-- ==== Sys2Proof/Word.lean ====
section
/-! DEFINITION. The word of epRISC v4, the number of a register, and the number of an interrupt.
Every register, every instruction and every memory access is one 32-bit word (R15, R80);
nothing here computes anything. -/

namespace Sys2Proof

/-- A register value, a memory word, an instruction or a word address (R11, R28, R60). -/
abbrev Word := BitVec 32

/-- A 4-bit register field: the number of one of the sixteen registers of the selected page (R21). -/
abbrev RegNum := BitVec 4

/-- An interrupt ID, `IRQ_ID_BITS` = 8 bits wide (R7, R192). -/
abbrev IrqId := BitVec 8

end Sys2Proof
end

