-- ==== Sys2Proof/Config.lean ====
section
/-! DEFINITION. The parameters of rule R7, each under a name of its own.
The parameters the spec fixes or decides are constants here. Of the three OPEN ones, `MEM_MAP` and
`IFETCH_COHERENT` are fields of `State` (`map`, `ifetchCoherent`), so that a statement about every
state holds for every platform; `HOST_IMAGE_ENDIAN` is `hostImageEndian` below, which no rule reads.
`XLEN`, `ADDR_BITS`, `IRQ_ID_BITS` and `REGS_PER_PAGE` are the widths of the types of Word.lean, and `ADDR_UNIT` is
one `Word`. `SWIN_PRIORITY` is `swinPriority` of Machine/Ops.lean, where the type of a priority is known. -/

namespace Sys2Proof.Config

/-- `NPAGES`: the pages of the base system (R2, R20). -/
def npages : Nat := 4

/-- `H_PAGE`: the page that holds the vector registers H0 to H3 (R27, decision D2). -/
def hPage : Fin 4 := 2

/-- The readings of the ALU Sign Extension flag that decision D8 names. -/
inductive ValueExt where
  | byFlag   -- CS_x = 1 sign-extends, CS_x = 0 zero-extends
  | sign     -- always sign-extended
  | zero     -- always zero-extended
  deriving DecidableEq, Repr

/-- `VALUE_EXT`: how the 8-bit and 16-bit Value fields are widened (R35, R92, decision D8). -/
def valueExt : ValueExt := .byFlag

/-- `SHIFT_MOD`: a shift amount is taken modulo this number (R138, decision D17). -/
def shiftModulus : Nat := 32

/-- `SRPG_D_BIT`: the bit of the core Data field that holds SRPG_D (R89, decision D22). -/
def srpgDBit : Nat := 4

/-- The readings of SRPG_D that decision D23 names. -/
inductive SrpgReading where
  | copied     -- CS.s becomes SRPG_D: the decision
  | inverted   -- CS.s becomes the opposite of SRPG_D
  | oneWay     -- SRPG_D = 1 clears CS.s, 0 leaves it
  | clears     -- CS.s is always cleared
  deriving DecidableEq, Repr

/-- The reading of SRPG_D in force (R154, decision D23, U15). -/
def srpgReading : SrpgReading := .copied

/-- `BR_S_SAVE`: the value of the branch `s` bit that means "save" (R160, decision D25). -/
def brSSave : Bool := false

/-- `BR_L_LINK`: the value of the branch `l` bit that means "link" (R160, decision D25). -/
def brLLink : Bool := false

/-- The four stack disciplines that decision D28 names. -/
inductive StackDiscipline where
  | fullDescending
  | fullAscending
  | emptyDescending
  | emptyAscending
  deriving DecidableEq, Repr

/-- `STACK_DIR`: the stack discipline (R161, decision D28). -/
def stackDir : StackDiscipline := .fullDescending

/-- `RESET_CS`: CS after reset. CS.p, CS.s, CS.i and bits 31:16 are 0 by R45; the fields R45 calls
unspecified are 0 here. DESIGN CHOICE, log entry 1. -/
def resetCS : Word := 0

/-- `HOST_IMAGE_ENDIAN`: which byte of a word lies lowest in the byte image `State.mem`. -/
inductive Endian where
  | little
  | big
  deriving DecidableEq, Repr

/-- The byte order of `State.mem`. No program can observe it (R65). DESIGN CHOICE, log entry 4. -/
def hostImageEndian : Endian := .little

/-- What a byte of RAM or ROM reads as while nothing lists it: the contents of memory at reset are the
platform's (R45, U25). DESIGN CHOICE, log entry 3. -/
def unlistedByte : BitVec 8 := 0

/-- What a device answers to the n-th access to a device since reset: an oracle (R63, U10), so a free
value. It has no body that a proof could see. DESIGN CHOICE, log entry 5. -/
opaque deviceAnswer : Nat → Word

end Sys2Proof.Config
end

