-- ==== Sys2Proof/Syntax.lean ====
section
/-! DEFINITION. The instructions of epRISC v4: one constructor for each of the 46 rows of
spec/opcode_table.json (R95, R102), the condition every instruction carries (R110), and the names
under which a word is rejected (R97). -/

namespace Sys2Proof

/-- The fifteen conditions of INST_COND, in the order of their codes 0x0 to 0xE (R110). Code 0xF has no
constructor: it is reserved (R112). -/
inductive Cond where
  | alc | eql | neq | hos | low | neg | poz | ovf | nov | hig | los | get | let_ | grt | lst
  deriving DecidableEq, Repr

/-- Why a word has no meaning: the reserved encodings of R97, by name. -/
inductive Reserved where
  /-- INST_COND is 0xF (R112). -/
  | conditionF
  /-- Bits 27:24 are 0000: no figure has all four selectors 0 (R81, R97). -/
  | noFormat
  /-- A core operation number of 4 to 15 (R97). -/
  | coreOperation
  /-- A branch with `r` = 0 and `s` = 1 or `l` = 1 (R97, R160). -/
  | branchSelectors
  /-- A bit that the canonical encoding requires zero is set (R96); a brch with `i` = 1 among them (R167). -/
  | nonCanonical
  /-- `srpg` with SRPG_P of 4 or more (R26, R97). -/
  | pageOutOfRange
  /-- Fewer than four bytes were given to the decoder: no word to decode (R80). -/
  | truncated
  deriving DecidableEq, Repr

/-- The instructions. Fields have the names of the format figures: `d` destination, `a` Term A, `b` Term B,
`sh` shift, `v` Value, `base`, `off`, `sd`, `i` alter interrupt. -/
inductive Instr where
  /-- addr, `a + b`, value form (ALUV, R83, R122). -/
  | addrV (cond : Cond) (d a : RegNum) (sh : BitVec 4) (v : BitVec 8)
  /-- addr, `a + b`, register form (ALUR, R84, R122). -/
  | addrR (cond : Cond) (d a b : RegNum)
  /-- subr, `a - b`, value form (ALUV, R83, R123). -/
  | subrV (cond : Cond) (d a : RegNum) (sh : BitVec 4) (v : BitVec 8)
  /-- subr, `a - b`, register form (ALUR, R84, R123). -/
  | subrR (cond : Cond) (d a b : RegNum)
  /-- masl, `(a & v) << s` or `(a & v) << b`, value form (ALUV, R83, R124). -/
  | maslV (cond : Cond) (d a : RegNum) (sh : BitVec 4) (v : BitVec 8)
  /-- masl, `(a & v) << s` or `(a & v) << b`, register form (ALUR, R84, R124). -/
  | maslR (cond : Cond) (d a b : RegNum) (v : BitVec 8)
  /-- masr, `(a & v) >> s` or `(a & v) >> b`, value form (ALUV, R83, R125). -/
  | masrV (cond : Cond) (d a : RegNum) (sh : BitVec 4) (v : BitVec 8)
  /-- masr, `(a & v) >> s` or `(a & v) >> b`, register form (ALUR, R84, R125). -/
  | masrR (cond : Cond) (d a b : RegNum) (v : BitVec 8)
  /-- andb, `a & b`, value form (ALUV, R83, R126). -/
  | andbV (cond : Cond) (d a : RegNum) (sh : BitVec 4) (v : BitVec 8)
  /-- andb, `a & b`, register form (ALUR, R84, R126). -/
  | andbR (cond : Cond) (d a b : RegNum)
  /-- orbt, `a | b`, value form (ALUV, R83, R127). -/
  | orbtV (cond : Cond) (d a : RegNum) (sh : BitVec 4) (v : BitVec 8)
  /-- orbt, `a | b`, register form (ALUR, R84, R127). -/
  | orbtR (cond : Cond) (d a b : RegNum)
  /-- xorb, `a ^ b`, value form (ALUV, R83, R128). -/
  | xorbV (cond : Cond) (d a : RegNum) (sh : BitVec 4) (v : BitVec 8)
  /-- xorb, `a ^ b`, register form (ALUR, R84, R128). -/
  | xorbR (cond : Cond) (d a b : RegNum)
  /-- notb, `~a`, value form (ALUV, R83, R129). -/
  | notbV (cond : Cond) (d a : RegNum)
  /-- notb, `~a`, register form (ALUR, R84, R129). -/
  | notbR (cond : Cond) (d a : RegNum)
  /-- arsl, `a << b`, value form (ALUV, R83, R130). -/
  | arslV (cond : Cond) (d a : RegNum) (sh : BitVec 4) (v : BitVec 8)
  /-- arsl, `a << b`, register form (ALUR, R84, R130). -/
  | arslR (cond : Cond) (d a b : RegNum)
  /-- arsr, `a >> b` with sign extension, value form (ALUV, R83, R131). -/
  | arsrV (cond : Cond) (d a : RegNum) (sh : BitVec 4) (v : BitVec 8)
  /-- arsr, `a >> b` with sign extension, register form (ALUR, R84, R131). -/
  | arsrR (cond : Cond) (d a b : RegNum)
  /-- losr, `a >> b` without sign extension, value form (ALUV, R83, R132). -/
  | losrV (cond : Cond) (d a : RegNum) (sh : BitVec 4) (v : BitVec 8)
  /-- losr, `a >> b` without sign extension, register form (ALUR, R84, R132). -/
  | losrR (cond : Cond) (d a b : RegNum)
  /-- rotl, `a r< b`, value form (ALUV, R83, R133). -/
  | rotlV (cond : Cond) (d a : RegNum) (sh : BitVec 4) (v : BitVec 8)
  /-- rotl, `a r< b`, register form (ALUR, R84, R133). -/
  | rotlR (cond : Cond) (d a b : RegNum)
  /-- rotr, `a r> b`, value form (ALUV, R83, R134). -/
  | rotrV (cond : Cond) (d a : RegNum) (sh : BitVec 4) (v : BitVec 8)
  /-- rotr, `a r> b`, register form (ALUR, R84, R134). -/
  | rotrR (cond : Cond) (d a b : RegNum)
  /-- cmpr, `a - b` without result store, value form (ALUV, R83, R135). -/
  | cmprV (cond : Cond) (a : RegNum) (sh : BitVec 4) (v : BitVec 8)
  /-- cmpr, `a - b` without result store, register form (ALUR, R84, R135). -/
  | cmprR (cond : Cond) (a b : RegNum)
  /-- test, `a & b` without result store, value form (ALUV, R83, R136). -/
  | testV (cond : Cond) (a : RegNum) (sh : BitVec 4) (v : BitVec 8)
  /-- test, `a & b` without result store, register form (ALUR, R84, R136). -/
  | testR (cond : Cond) (a b : RegNum)
  /-- masi, `a & ~b`, value form (ALUV, R83, R137). -/
  | masiV (cond : Cond) (d a : RegNum) (sh : BitVec 4) (v : BitVec 8)
  /-- masi, `a & ~b`, register form (ALUR, R84, R137). -/
  | masiR (cond : Cond) (d a b : RegNum)
  /-- Branch (BR, R162). -/
  | brch (cond : Cond) (base : RegNum) (off : BitVec 19)
  /-- Branch and save the return address to the link register (BR, R163). -/
  | brsl (cond : Cond) (base : RegNum) (i : Bool) (off : BitVec 19)
  /-- Branch and save the return address to the stack (BR, R164). -/
  | brss (cond : Cond) (base : RegNum) (i : Bool) (off : BitVec 19)
  /-- Return: restore IP from the link register (BR, R165). -/
  | brrl (cond : Cond) (i : Bool)
  /-- Return: restore IP from the stack (BR, R166). -/
  | brrs (cond : Cond) (i : Bool)
  /-- Load a value into a register (VAL, R171). -/
  | movv (cond : Cond) (d : RegNum) (sh : BitVec 4) (v : BitVec 16)
  /-- Copy a register (MOV with `w` = 0, R172). -/
  | movr (cond : Cond) (d src : RegNum)
  /-- Exchange two registers (MOV with `w` = 1, R173). -/
  | swap (cond : Cond) (d src : RegNum)
  /-- Load a word (MEM with `dir` = 0, R181). -/
  | load (cond : Cond) (base sd : RegNum) (off : BitVec 16)
  /-- Store a word (MEM with `dir` = 1, R182). -/
  | stor (cond : Cond) (base sd : RegNum) (off : BitVec 16)
  /-- No operation (CORE 0, R151). -/
  | noop (cond : Cond)
  /-- Software interrupt with ID SWIN_V (CORE 1, R152). -/
  | swin (cond : Cond) (v : IrqId)
  /-- Halt the core (CORE 2, R153). -/
  | halt (cond : Cond)
  /-- Set the register page SRPG_P and the hide flag SRPG_D (CORE 3, R154). -/
  | srpg (cond : Cond) (d : Bool) (p : BitVec 4)
  deriving DecidableEq, Repr

/-- INST_COND, the condition every instruction carries (R90, R110). -/
def Instr.cond : Instr → Cond
  | .addrV cond _ _ _ _ => cond
  | .addrR cond _ _ _ => cond
  | .subrV cond _ _ _ _ => cond
  | .subrR cond _ _ _ => cond
  | .maslV cond _ _ _ _ => cond
  | .maslR cond _ _ _ _ => cond
  | .masrV cond _ _ _ _ => cond
  | .masrR cond _ _ _ _ => cond
  | .andbV cond _ _ _ _ => cond
  | .andbR cond _ _ _ => cond
  | .orbtV cond _ _ _ _ => cond
  | .orbtR cond _ _ _ => cond
  | .xorbV cond _ _ _ _ => cond
  | .xorbR cond _ _ _ => cond
  | .notbV cond _ _ => cond
  | .notbR cond _ _ => cond
  | .arslV cond _ _ _ _ => cond
  | .arslR cond _ _ _ => cond
  | .arsrV cond _ _ _ _ => cond
  | .arsrR cond _ _ _ => cond
  | .losrV cond _ _ _ _ => cond
  | .losrR cond _ _ _ => cond
  | .rotlV cond _ _ _ _ => cond
  | .rotlR cond _ _ _ => cond
  | .rotrV cond _ _ _ _ => cond
  | .rotrR cond _ _ _ => cond
  | .cmprV cond _ _ _ => cond
  | .cmprR cond _ _ => cond
  | .testV cond _ _ _ => cond
  | .testR cond _ _ => cond
  | .masiV cond _ _ _ _ => cond
  | .masiR cond _ _ _ => cond
  | .brch cond _ _ => cond
  | .brsl cond _ _ _ => cond
  | .brss cond _ _ _ => cond
  | .brrl cond _ => cond
  | .brrs cond _ => cond
  | .movv cond _ _ _ => cond
  | .movr cond _ _ => cond
  | .swap cond _ _ => cond
  | .load cond _ _ _ => cond
  | .stor cond _ _ _ => cond
  | .noop cond => cond
  | .swin cond _ => cond
  | .halt cond => cond
  | .srpg cond _ _ => cond

end Sys2Proof
end

