-- ==== Sys2Proof/WellFormed.lean ====
section
/-! DEFINITION. What an instruction must meet beyond the widths of its fields. The types of Syntax.lean
leave one check: the page of `srpg` (R26, R97). Condition 0xF, the reserved core operations, the reserved
branch selectors and the must-be-zero bits (R96) have no constructor that could hold them. -/

namespace Sys2Proof

/-- The instruction has a canonical encoding that is not reserved (R96, R97): `srpg` names one of the
pages of the base system (R26). -/
def Instr.wellFormed : Instr → Bool
  | .srpg _ _ p => p.toNat < Config.npages
  | .addrV .. | .addrR .. | .subrV .. | .subrR .. | .maslV .. | .maslR .. | .masrV .. | .masrR ..
  | .andbV .. | .andbR .. | .orbtV .. | .orbtR .. | .xorbV .. | .xorbR .. | .notbV .. | .notbR ..
  | .arslV .. | .arslR .. | .arsrV .. | .arsrR .. | .losrV .. | .losrR .. | .rotlV .. | .rotlR ..
  | .rotrV .. | .rotrR .. | .cmprV .. | .cmprR .. | .testV .. | .testR .. | .masiV .. | .masiR ..
  | .brch .. | .brsl .. | .brss .. | .brrl .. | .brrs .. | .movv .. | .movr .. | .swap ..
  | .load .. | .stor .. | .noop .. | .swin .. | .halt .. => true

end Sys2Proof
end

