-- ==== Sys2Proof/Decode.lean ====
section
/-! DEFINITION. The decoder and the encoder of epRISC v4, written from the format figures (R81 to R90),
the opcode map (R95), the canonical encodings (R96) and the list of reserved encodings (R97); and the
bytes in which a word is laid out. -/

namespace Sys2Proof

/-! ### Bit fields -/

/-- The field of `len` bits whose lowest bit is bit `lo` (R10, R11). -/
def field (w : Word) (lo len : Nat) : BitVec len := w.extractLsb' lo len

/-- The word that holds `x` with its lowest bit at bit `lo` and zeros elsewhere: the terms of R103. -/
def place {n : Nat} (x : BitVec n) (lo : Nat) : Word := x.setWidth 32 <<< lo

/-- `w` with the field of `n` bits at bit `lo` replaced by `x`. -/
def setField {n : Nat} (w : Word) (lo : Nat) (x : BitVec n) : Word :=
  (w &&& ~~~(place (BitVec.allOnes n) lo)) ||| place x lo

/-! ### Bytes of a word -/

/-- The byte of `w` that lies `k` places above the word's lowest byte address (`HOST_IMAGE_ENDIAN`, R65). -/
def byteOfWord (w : Word) (k : Nat) : BitVec 8 :=
  match Config.hostImageEndian with
  | .little => w.extractLsb' (8 * k) 8
  | .big => w.extractLsb' (8 * (3 - k)) 8

/-- The word whose bytes are `b0` to `b3`, `b0` at the lowest address (`HOST_IMAGE_ENDIAN`, R65). -/
def wordOfBytes (b0 b1 b2 b3 : BitVec 8) : Word :=
  match Config.hostImageEndian with
  | .little => place b3 24 ||| place b2 16 ||| place b1 8 ||| place b0 0
  | .big => place b0 24 ||| place b1 16 ||| place b2 8 ||| place b3 0

/-! ### Decoding -/

/-- The condition of a code of INST_COND; none for 0xF (R110, R112). -/
def decodeCond (c : BitVec 4) : Option Cond :=
  match c with
  | 0x0#4 => some .alc
  | 0x1#4 => some .eql
  | 0x2#4 => some .neq
  | 0x3#4 => some .hos
  | 0x4#4 => some .low
  | 0x5#4 => some .neg
  | 0x6#4 => some .poz
  | 0x7#4 => some .ovf
  | 0x8#4 => some .nov
  | 0x9#4 => some .hig
  | 0xA#4 => some .los
  | 0xB#4 => some .get
  | 0xC#4 => some .let_
  | 0xD#4 => some .grt
  | 0xE#4 => some .lst
  | _ => none

/-- `i` where the must-be-zero bits of its encoding are zero, else the word is not canonical (R96). -/
def canonical (mbzClear : Prop) [Decidable mbzClear] (i : Instr) : Except Reserved Instr :=
  if mbzClear then .ok i else .error .nonCanonical

/-- ALU with value operand, bits 27:24 = 0111 (R83; must-be-zero bits R96). The last arm is operation 0xF. -/
def decodeALUV (c : Cond) (w : Word) : Except Reserved Instr :=
  let d := field w 20 4
  let a := field w 16 4
  let sh := field w 12 4
  let v := field w 4 8
  match field w 0 4 with
  | 0x0#4 => .ok (.addrV c d a sh v)
  | 0x1#4 => .ok (.subrV c d a sh v)
  | 0x2#4 => .ok (.maslV c d a sh v)
  | 0x3#4 => .ok (.masrV c d a sh v)
  | 0x4#4 => .ok (.andbV c d a sh v)
  | 0x5#4 => .ok (.orbtV c d a sh v)
  | 0x6#4 => .ok (.xorbV c d a sh v)
  | 0x7#4 => canonical (sh = 0#4 ∧ v = 0#8) (.notbV c d a)
  | 0x8#4 => .ok (.arslV c d a sh v)
  | 0x9#4 => .ok (.arsrV c d a sh v)
  | 0xA#4 => .ok (.losrV c d a sh v)
  | 0xB#4 => .ok (.rotlV c d a sh v)
  | 0xC#4 => .ok (.rotrV c d a sh v)
  | 0xD#4 => canonical (d = 0#4) (.cmprV c a sh v)
  | 0xE#4 => canonical (d = 0#4) (.testV c a sh v)
  | _ => .ok (.masiV c d a sh v)

/-- ALU with register operand, bits 27:24 = 0110 (R84; must-be-zero bits R96). The last arm is operation 0xF. -/
def decodeALUR (c : Cond) (w : Word) : Except Reserved Instr :=
  let d := field w 20 4
  let a := field w 16 4
  let b := field w 12 4
  let v := field w 4 8
  match field w 0 4 with
  | 0x0#4 => canonical (v = 0#8) (.addrR c d a b)
  | 0x1#4 => canonical (v = 0#8) (.subrR c d a b)
  | 0x2#4 => .ok (.maslR c d a b v)
  | 0x3#4 => .ok (.masrR c d a b v)
  | 0x4#4 => canonical (v = 0#8) (.andbR c d a b)
  | 0x5#4 => canonical (v = 0#8) (.orbtR c d a b)
  | 0x6#4 => canonical (v = 0#8) (.xorbR c d a b)
  | 0x7#4 => canonical (b = 0#4 ∧ v = 0#8) (.notbR c d a)
  | 0x8#4 => canonical (v = 0#8) (.arslR c d a b)
  | 0x9#4 => canonical (v = 0#8) (.arsrR c d a b)
  | 0xA#4 => canonical (v = 0#8) (.losrR c d a b)
  | 0xB#4 => canonical (v = 0#8) (.rotlR c d a b)
  | 0xC#4 => canonical (v = 0#8) (.rotrR c d a b)
  | 0xD#4 => canonical (d = 0#4 ∧ v = 0#8) (.cmprR c a b)
  | 0xE#4 => canonical (d = 0#4 ∧ v = 0#8) (.testR c a b)
  | _ => canonical (v = 0#8) (.masiR c d a b)

/-- Branch, bit 27 = 1 (R82, R160). With `r` = 0, `s` and `l` must be 0 (R97) and so must `i` (R167);
`brrl` and `brrs` leave base and offset unused, zero (R96). -/
def decodeBR (c : Cond) (w : Word) : Except Reserved Instr :=
  let r := w.getLsbD 26
  let s := w.getLsbD 25
  let l := w.getLsbD 24
  let base := field w 20 4
  let i := w.getLsbD 19
  let off := field w 0 19
  if r then
    if s = Config.brSSave then
      if l = Config.brLLink then .ok (.brsl c base i off) else .ok (.brss c base i off)
    else
      if l = Config.brLLink then canonical (base = 0#4 ∧ off = 0#19) (.brrl c i)
      else canonical (base = 0#4 ∧ off = 0#19) (.brrs c i)
  else
    if s ∨ l then .error .branchSelectors else canonical (i = false) (.brch c base off)

/-- Move or exchange, bits 27:24 = 0100; bits 14:0 are not drawn, zero (R86, R96). -/
def decodeMOV (c : Cond) (w : Word) : Except Reserved Instr :=
  let d := field w 20 4
  let src := field w 16 4
  if w.getLsbD 15 then canonical (field w 0 15 = 0#15) (.swap c d src)
  else canonical (field w 0 15 = 0#15) (.movr c d src)

/-- The Data field of `srpg`: SRPG_P in bits 3:0, SRPG_D in bit `SRPG_D_BIT` (R89). -/
def srpgData (d : Bool) (p : BitVec 4) : BitVec 20 :=
  p.setWidth 20 ||| ((BitVec.ofBool d).setWidth 20 <<< Config.srpgDBit)

/-- Core instructions, bits 27:24 = 0001 (R88, R89, R151 to R154). A page of 4 or more is reserved (R26). -/
def decodeCORE (c : Cond) (w : Word) : Except Reserved Instr :=
  let data := field w 0 20
  match field w 20 4 with
  | 0x0#4 => canonical (data = 0#20) (.noop c)
  | 0x1#4 => canonical (data.extractLsb' 8 12 = 0#12) (.swin c (data.extractLsb' 0 8))
  | 0x2#4 => canonical (data = 0#20) (.halt c)
  | 0x3#4 =>
    let d := data.getLsbD Config.srpgDBit
    let p := data.extractLsb' 0 4
    if data = srpgData d p then
      if p.toNat < Config.npages then .ok (.srpg c d p) else .error .pageOutOfRange
    else .error .nonCanonical
  | _ => .error .coreOperation

/-- The decoder: the decode tree of R81 under the condition of R90. Total: every word is an instruction
or is rejected by the name of what R97 lists. -/
def decodeWord (w : Word) : Except Reserved Instr :=
  match decodeCond (field w 28 4) with
  | none => .error .conditionF
  | some c =>
    match field w 24 4 with
    | 0x0#4 => .error .noFormat
    | 0x1#4 => decodeCORE c w
    | 0x2#4 => .ok (.load c (field w 20 4) (field w 16 4) (field w 0 16))
    | 0x3#4 => .ok (.stor c (field w 20 4) (field w 16 4) (field w 0 16))
    | 0x4#4 => decodeMOV c w
    | 0x5#4 => .ok (.movv c (field w 20 4) (field w 16 4) (field w 0 16))
    | 0x6#4 => decodeALUR c w
    | 0x7#4 => decodeALUV c w
    | _ => decodeBR c w

/-- The decoder on bytes: the first word's instruction and the bytes after it (R80: one length, one word). -/
def decode : List (BitVec 8) → Except Reserved (Instr × List (BitVec 8))
  | b0 :: b1 :: b2 :: b3 :: rest => (decodeWord (wordOfBytes b0 b1 b2 b3)).map fun i => (i, rest)
  | _ => .error .truncated

/-- The word whose low `nbits` bits are those of `w` and whose other bits are 0. -/
def tableWord (nbits w : Nat) : Word := BitVec.ofNat 32 (w % 2 ^ nbits)

/-- What the decoder reads from the instruction whose bits are `w`, numbered as spec/opcode_table.json
numbers them: the word laid out in memory order and given to `decode`. -/
def decodeTableWord (nbits w : Nat) : Option Instr :=
  let t := tableWord nbits w
  match decode [byteOfWord t 0, byteOfWord t 1, byteOfWord t 2, byteOfWord t 3] with
  | .ok (i, _) => some i
  | .error _ => none

/-! ### Encoding (R103) -/

/-- The code of a condition (R110). -/
def Cond.code : Cond → BitVec 4
  | .alc => 0x0#4
  | .eql => 0x1#4
  | .neq => 0x2#4
  | .hos => 0x3#4
  | .low => 0x4#4
  | .neg => 0x5#4
  | .poz => 0x6#4
  | .ovf => 0x7#4
  | .nov => 0x8#4
  | .hig => 0x9#4
  | .los => 0xA#4
  | .get => 0xB#4
  | .let_ => 0xC#4
  | .grt => 0xD#4
  | .lst => 0xE#4

/-- ALUV and ALUR: `cond fmt d a x v op`, `x` the even left shift or Term B (R83, R84). -/
def wordALU (c : Cond) (fmt d a x : BitVec 4) (v : BitVec 8) (op : BitVec 4) : Word :=
  place c.code 28 ||| place fmt 24 ||| place d 20 ||| place a 16 ||| place x 12 ||| place v 4 ||| place op 0

/-- BR: `cond 1 r s l base i off` (R82). -/
def wordBR (c : Cond) (r s l : Bool) (base : RegNum) (i : Bool) (off : BitVec 19) : Word :=
  place c.code 28 ||| place 1#1 27 ||| place (BitVec.ofBool r) 26 ||| place (BitVec.ofBool s) 25 |||
    place (BitVec.ofBool l) 24 ||| place base 20 ||| place (BitVec.ofBool i) 19 ||| place off 0

/-- VAL and MEM: `cond fmt x y low`, `low` the Value or the offset (R85, R87). -/
def wordWide (c : Cond) (fmt x y : BitVec 4) (low : BitVec 16) : Word :=
  place c.code 28 ||| place fmt 24 ||| place x 20 ||| place y 16 ||| place low 0

/-- MOV: `cond 0100 d s w`, bits 14:0 zero (R86). -/
def wordMOV (c : Cond) (d src : RegNum) (w : Bool) : Word :=
  place c.code 28 ||| place 0x4#4 24 ||| place d 20 ||| place src 16 ||| place (BitVec.ofBool w) 15

/-- CORE: `cond 0001 op data` (R88). -/
def wordCORE (c : Cond) (op : BitVec 4) (data : BitVec 20) : Word :=
  place c.code 28 ||| place 0x1#4 24 ||| place op 20 ||| place data 0

/-- The encoder: the canonical word of an instruction (R96, R103). -/
def encode : Instr → Word
  | .addrV c d a sh v => wordALU c 0x7#4 d a sh v 0x0#4
  | .addrR c d a b => wordALU c 0x6#4 d a b 0#8 0x0#4
  | .subrV c d a sh v => wordALU c 0x7#4 d a sh v 0x1#4
  | .subrR c d a b => wordALU c 0x6#4 d a b 0#8 0x1#4
  | .maslV c d a sh v => wordALU c 0x7#4 d a sh v 0x2#4
  | .maslR c d a b v => wordALU c 0x6#4 d a b v 0x2#4
  | .masrV c d a sh v => wordALU c 0x7#4 d a sh v 0x3#4
  | .masrR c d a b v => wordALU c 0x6#4 d a b v 0x3#4
  | .andbV c d a sh v => wordALU c 0x7#4 d a sh v 0x4#4
  | .andbR c d a b => wordALU c 0x6#4 d a b 0#8 0x4#4
  | .orbtV c d a sh v => wordALU c 0x7#4 d a sh v 0x5#4
  | .orbtR c d a b => wordALU c 0x6#4 d a b 0#8 0x5#4
  | .xorbV c d a sh v => wordALU c 0x7#4 d a sh v 0x6#4
  | .xorbR c d a b => wordALU c 0x6#4 d a b 0#8 0x6#4
  | .notbV c d a => wordALU c 0x7#4 d a 0#4 0#8 0x7#4
  | .notbR c d a => wordALU c 0x6#4 d a 0#4 0#8 0x7#4
  | .arslV c d a sh v => wordALU c 0x7#4 d a sh v 0x8#4
  | .arslR c d a b => wordALU c 0x6#4 d a b 0#8 0x8#4
  | .arsrV c d a sh v => wordALU c 0x7#4 d a sh v 0x9#4
  | .arsrR c d a b => wordALU c 0x6#4 d a b 0#8 0x9#4
  | .losrV c d a sh v => wordALU c 0x7#4 d a sh v 0xA#4
  | .losrR c d a b => wordALU c 0x6#4 d a b 0#8 0xA#4
  | .rotlV c d a sh v => wordALU c 0x7#4 d a sh v 0xB#4
  | .rotlR c d a b => wordALU c 0x6#4 d a b 0#8 0xB#4
  | .rotrV c d a sh v => wordALU c 0x7#4 d a sh v 0xC#4
  | .rotrR c d a b => wordALU c 0x6#4 d a b 0#8 0xC#4
  | .cmprV c a sh v => wordALU c 0x7#4 0#4 a sh v 0xD#4
  | .cmprR c a b => wordALU c 0x6#4 0#4 a b 0#8 0xD#4
  | .testV c a sh v => wordALU c 0x7#4 0#4 a sh v 0xE#4
  | .testR c a b => wordALU c 0x6#4 0#4 a b 0#8 0xE#4
  | .masiV c d a sh v => wordALU c 0x7#4 d a sh v 0xF#4
  | .masiR c d a b => wordALU c 0x6#4 d a b 0#8 0xF#4
  | .brch c base off => wordBR c false false false base false off
  | .brsl c base i off => wordBR c true Config.brSSave Config.brLLink base i off
  | .brss c base i off => wordBR c true Config.brSSave (!Config.brLLink) base i off
  | .brrl c i => wordBR c true (!Config.brSSave) Config.brLLink 0#4 i 0#19
  | .brrs c i => wordBR c true (!Config.brSSave) (!Config.brLLink) 0#4 i 0#19
  | .movv c d sh v => wordWide c 0x5#4 d sh v
  | .movr c d src => wordMOV c d src false
  | .swap c d src => wordMOV c d src true
  | .load c base sd off => wordWide c 0x2#4 base sd off
  | .stor c base sd off => wordWide c 0x3#4 base sd off
  | .noop c => wordCORE c 0x0#4 0#20
  | .swin c v => wordCORE c 0x1#4 (v.setWidth 20)
  | .halt c => wordCORE c 0x2#4 0#20
  | .srpg c d p => wordCORE c 0x3#4 (srpgData d p)

/-- The encoder on bytes, in memory order. -/
def encodeBytes (i : Instr) : List (BitVec 8) :=
  let w := encode i
  [byteOfWord w 0, byteOfWord w 1, byteOfWord w 2, byteOfWord w 3]

/-! ### The opcode table (R102) -/

/-- One row of spec/opcode_table.json: a word `w` belongs to the row when `w &&& mask = pattern`, and is
canonical when `w &&& mbz = 0` (R102). -/
structure OpcodeRow where
  mnemonic : String
  mask : Word
  pattern : Word
  mbz : Word
  deriving DecidableEq, Repr

/-- The rows of the ALU formats, as spec/opcode_table.json lists them. -/
def opcodeTableALU : List OpcodeRow := [
  ⟨"addr", 0x0F00000F, 0x07000000, 0x00000000⟩,
  ⟨"addr", 0x0F00000F, 0x06000000, 0x00000FF0⟩,
  ⟨"subr", 0x0F00000F, 0x07000001, 0x00000000⟩,
  ⟨"subr", 0x0F00000F, 0x06000001, 0x00000FF0⟩,
  ⟨"masl", 0x0F00000F, 0x07000002, 0x00000000⟩,
  ⟨"masl", 0x0F00000F, 0x06000002, 0x00000000⟩,
  ⟨"masr", 0x0F00000F, 0x07000003, 0x00000000⟩,
  ⟨"masr", 0x0F00000F, 0x06000003, 0x00000000⟩,
  ⟨"andb", 0x0F00000F, 0x07000004, 0x00000000⟩,
  ⟨"andb", 0x0F00000F, 0x06000004, 0x00000FF0⟩,
  ⟨"orbt", 0x0F00000F, 0x07000005, 0x00000000⟩,
  ⟨"orbt", 0x0F00000F, 0x06000005, 0x00000FF0⟩,
  ⟨"xorb", 0x0F00000F, 0x07000006, 0x00000000⟩,
  ⟨"xorb", 0x0F00000F, 0x06000006, 0x00000FF0⟩,
  ⟨"notb", 0x0F00000F, 0x07000007, 0x0000FFF0⟩,
  ⟨"notb", 0x0F00000F, 0x06000007, 0x0000FFF0⟩,
  ⟨"arsl", 0x0F00000F, 0x07000008, 0x00000000⟩,
  ⟨"arsl", 0x0F00000F, 0x06000008, 0x00000FF0⟩,
  ⟨"arsr", 0x0F00000F, 0x07000009, 0x00000000⟩,
  ⟨"arsr", 0x0F00000F, 0x06000009, 0x00000FF0⟩,
  ⟨"losr", 0x0F00000F, 0x0700000A, 0x00000000⟩,
  ⟨"losr", 0x0F00000F, 0x0600000A, 0x00000FF0⟩,
  ⟨"rotl", 0x0F00000F, 0x0700000B, 0x00000000⟩,
  ⟨"rotl", 0x0F00000F, 0x0600000B, 0x00000FF0⟩,
  ⟨"rotr", 0x0F00000F, 0x0700000C, 0x00000000⟩,
  ⟨"rotr", 0x0F00000F, 0x0600000C, 0x00000FF0⟩,
  ⟨"cmpr", 0x0F00000F, 0x0700000D, 0x00F00000⟩,
  ⟨"cmpr", 0x0F00000F, 0x0600000D, 0x00F00FF0⟩,
  ⟨"test", 0x0F00000F, 0x0700000E, 0x00F00000⟩,
  ⟨"test", 0x0F00000F, 0x0600000E, 0x00F00FF0⟩,
  ⟨"masi", 0x0F00000F, 0x0700000F, 0x00000000⟩,
  ⟨"masi", 0x0F00000F, 0x0600000F, 0x00000FF0⟩]

/-- The rows of the other formats, as spec/opcode_table.json lists them. -/
def opcodeTableOther : List OpcodeRow := [
  ⟨"brch", 0x0F000000, 0x08000000, 0x00080000⟩,
  ⟨"brsl", 0x0F000000, 0x0C000000, 0x00000000⟩,
  ⟨"brss", 0x0F000000, 0x0D000000, 0x00000000⟩,
  ⟨"brrl", 0x0F000000, 0x0E000000, 0x00F7FFFF⟩,
  ⟨"brrs", 0x0F000000, 0x0F000000, 0x00F7FFFF⟩,
  ⟨"movv", 0x0F000000, 0x05000000, 0x00000000⟩,
  ⟨"movr", 0x0F008000, 0x04000000, 0x00007FFF⟩,
  ⟨"swap", 0x0F008000, 0x04008000, 0x00007FFF⟩,
  ⟨"load", 0x0F000000, 0x02000000, 0x00000000⟩,
  ⟨"stor", 0x0F000000, 0x03000000, 0x00000000⟩,
  ⟨"noop", 0x0FF00000, 0x01000000, 0x000FFFFF⟩,
  ⟨"swin", 0x0FF00000, 0x01100000, 0x000FFF00⟩,
  ⟨"halt", 0x0FF00000, 0x01200000, 0x000FFFFF⟩,
  ⟨"srpg", 0x0FF00000, 0x01300000, 0x000FFFE0⟩]

/-- The 46 rows (R95, R102). -/
def opcodeTable : List OpcodeRow := opcodeTableALU ++ opcodeTableOther

/-- `w` belongs to the row (R102). -/
def OpcodeRow.selects (r : OpcodeRow) (w : Word) : Bool := w &&& r.mask = r.pattern

/-- The bits the canonical encoding requires zero are zero in `w` (R96, R102). -/
def OpcodeRow.isCanonical (r : OpcodeRow) (w : Word) : Bool := w &&& r.mbz = 0

/-- The mnemonic under which spec/opcode_table.json lists the instruction (R95). -/
def Instr.mnemonic : Instr → String
  | .addrV .. | .addrR .. => "addr"
  | .subrV .. | .subrR .. => "subr"
  | .maslV .. | .maslR .. => "masl"
  | .masrV .. | .masrR .. => "masr"
  | .andbV .. | .andbR .. => "andb"
  | .orbtV .. | .orbtR .. => "orbt"
  | .xorbV .. | .xorbR .. => "xorb"
  | .notbV .. | .notbR .. => "notb"
  | .arslV .. | .arslR .. => "arsl"
  | .arsrV .. | .arsrR .. => "arsr"
  | .losrV .. | .losrR .. => "losr"
  | .rotlV .. | .rotlR .. => "rotl"
  | .rotrV .. | .rotrR .. => "rotr"
  | .cmprV .. | .cmprR .. => "cmpr"
  | .testV .. | .testR .. => "test"
  | .masiV .. | .masiR .. => "masi"
  | .brch .. => "brch"
  | .brsl .. => "brsl"
  | .brss .. => "brss"
  | .brrl .. => "brrl"
  | .brrs .. => "brrs"
  | .movv .. => "movv"
  | .movr .. => "movr"
  | .swap .. => "swap"
  | .load .. => "load"
  | .stor .. => "stor"
  | .noop .. => "noop"
  | .swin .. => "swin"
  | .halt .. => "halt"
  | .srpg .. => "srpg"

end Sys2Proof
end

