-- ==== Sys2Proof/Machine/State.lean ====
section
/-! DEFINITION. The state of the machine as plain data: every piece of state the spec names (INVENTORY.md,
heading State), the reasons a step can stop, and the state after reset (R45, R220). -/

namespace Sys2Proof.Machine

/-- Why the machine stops where the spec gives no next state. -/
inductive Fault where
  /-- A read or write of an address where `MEM_MAP` has nothing: `reserved(unmapped address)`
  (R63, R64, U10). Raised by every memory access, the fetch among them. Safe: the model stops. -/
  | unmappedAddress (a : Word)
  /-- A write to ROM: `reserved(write to ROM or unmapped address)` (R64, U10). Raised by `stor` and by a
  push. Safe: the model stops. -/
  | writeToRom (a : Word)
  /-- An instruction writes CS with a page of 4 or more: `reserved(page out of range)` (R26, U9). Raised by
  the instructions that write CS as a register. Safe: the model stops. -/
  | pageOutOfRange
  /-- A register number is used while CS.p is 4 or more, so that it names no register of the base
  system (R26). Raised by every access through a register field. No run from reset gets there. Safe. -/
  | noSuchPage
  /-- Interrupt entry at priority 2 or 3 while the link register is IP, SP or CS:
  `reserved(link register is IP, SP or CS)` (R32, R195, U6). Raised by interrupt entry. Safe. -/
  | linkRegister
  /-- The core is halted: the run has ended, there is no next state (R153, R205, U12). Raised by `step`.
  Safe: the model stops. -/
  | halted
  deriving DecidableEq, Repr

/-- Why an instruction is given no meaning. -/
inductive Refusal where
  /-- The instruction has no meaning in this model yet. Raised by `exec` alone. Safe. -/
  | notModelled (mnemonic : String)
  /-- The fetched word is a reserved encoding: no meaning, no trap (R97, R112, U2). Raised by `step`. Safe. -/
  | reservedEncoding (why : Reserved)
  /-- `srpg` with a page of 4 or more, which no word encodes (R26, R97, U9). Raised by `execSrpg` on an
  ill-formed instruction. Safe. -/
  | pageOutOfRange
  /-- `brsl` or `brrl` while the link register is IP, SP or CS: `reserved(link register is IP, SP or CS)`
  (R32, R163, U6). Raised by `execBrsl` and `execBrrl`. Safe. -/
  | linkRegister
  /-- A fetch from a word that a store, a push or an interrupt entry has written since reset, on a
  platform that is not `IFETCH_COHERENT` (R72, U11). Raised by `step`. Safe. -/
  | fetchFromWrittenWord (a : Word)
  deriving DecidableEq, Repr

/-- What `MEM_MAP` has at an address (R63, R64, decision D39); an address in no region has nothing. -/
inductive RegionKind where
  | ram
  | rom
  | device
  deriving DecidableEq, Repr

/-- One region of `MEM_MAP`: the word addresses `base` to `base + size - 1`. -/
structure Region where
  base : Nat
  size : Nat
  kind : RegionKind
  deriving DecidableEq, Repr

/-- The four interrupt priorities, 0 to 3, under the names of H0 to H3 (R27, R192). -/
inductive Priority where
  | low
  | medium
  | high
  | extreme
  deriving DecidableEq, Repr

/-- An interrupt request: a priority and an ID (R42, R192). -/
structure Request where
  priority : Priority
  id : IrqId
  deriving DecidableEq, Repr

/-- A byte image of memory: byte `k` of the word at word address `a` stands at byte `4 * a + k`. -/
abbrev Memory := List Host.Cell

/-- The machine. The first eight fields are the spec's own state of the core and of memory; the others hold
what the spec leaves to the platform, or what the model needs in order to follow a rule, as plain data. -/
structure State where
  /-- The 64 paged registers `R[p][n]`, at index `16 * p + n` (R12, R20). -/
  regs : Vector Word 64
  /-- IP, the program counter: the word address of the next instruction (R28). -/
  ip : Word
  /-- SP, the address of the top of the stack (R41, R161). -/
  sp : Word
  /-- CS, the core status (R30). -/
  cs : Word
  /-- GL, the global register (R22, R41). -/
  gl : Word
  /-- The core is halted (R42, R153). -/
  halted : Bool
  /-- The contents of memory that differ from `Config.unlistedByte` (R60, R63). -/
  mem : Memory
  /-- The interrupt requests pending at the coming instruction boundary (R42, R192). -/
  pending : List Request
  /-- What the platform makes pending at the boundaries after that one, in order: the oracle of R193 and U13
  as data. An exhausted list means nothing is pending. MODEL. -/
  schedule : List (List Request)
  /-- `MEM_MAP` (R7, R63, decision D39). -/
  map : List Region
  /-- `IFETCH_COHERENT` (R7, R72, decision D38). -/
  ifetchCoherent : Bool
  /-- The word addresses written since reset, strictly rising: what R72 asks of a fetch. MODEL. -/
  written : List Nat
  /-- How many accesses to devices there have been: the argument of the free value
  `Config.deviceAnswer`. MODEL. -/
  deviceAccesses : Nat
  /-- The writes the core has sent to devices, latest first: a device does what the platform says with
  them (R64). MODEL. -/
  deviceWrites : List (Word × Word)
  deriving DecidableEq, Repr

/-- The machine right after reset (R45, R220). IP, CS.p, CS.s, CS.i, CS[31:16] and `halted` are as R45 states.
SP, GL, the 64 paged registers and the other CS fields are unspecified there and 0 here (DESIGN CHOICE, log
entry 1); the platform's part is log entries 2, 3, 6 and 7. -/
def State.reset : State where
  regs := Vector.replicate 64 0
  ip := 0
  sp := 0
  cs := Config.resetCS
  gl := 0
  halted := false
  mem := []
  pending := []
  schedule := []
  map := [⟨0, 2 ^ 32, .ram⟩]
  ifetchCoherent := false
  written := []
  deviceAccesses := 0
  deviceWrites := []

/-! ### Named updates -/

/-- `R[p][n]` stands at this index of `State.regs` (R12, R20). -/
def slot (p : Fin 4) (n : RegNum) : Fin 64 :=
  ⟨16 * p.val + n.toNat, by have := p.isLt; have := n.isLt; omega⟩

/-- The value of `R[p][n]` (R12). -/
def State.paged (s : State) (p : Fin 4) (n : RegNum) : Word := s.regs.get (slot p n)

/-- `R[p][n] <- v`. -/
def State.withPaged (s : State) (p : Fin 4) (n : RegNum) (v : Word) : State :=
  { s with regs := s.regs.set (slot p n).val v (slot p n).isLt }

/-- `IP <- v`. -/
def State.withIp (s : State) (v : Word) : State := { s with ip := v }

/-- `SP <- v`. -/
def State.withSp (s : State) (v : Word) : State := { s with sp := v }

/-- CS takes the 32 bits `v`; the rules for what CS can hold are in Flags.lean. -/
def State.withCs (s : State) (v : Word) : State := { s with cs := v }

/-- `GL <- v`. -/
def State.withGl (s : State) (v : Word) : State := { s with gl := v }

/-- `halted <- b`. -/
def State.withHalted (s : State) (b : Bool) : State := { s with halted := b }

/-- Memory and the record of written words after a store to RAM. -/
def State.withMem (s : State) (m : Memory) (w : List Nat) : State := { s with mem := m, written := w }

/-- The state after one more access to a device. -/
def State.withDevice (s : State) (out : List (Word × Word)) (w : List Nat) : State :=
  { s with deviceAccesses := s.deviceAccesses + 1, deviceWrites := out, written := w }

/-- The requests pending at this boundary and those at later ones. -/
def State.withRequests (s : State) (now : List Request) (later : List (List Request)) : State :=
  { s with pending := now, schedule := later }

end Sys2Proof.Machine
end

