-- ==== Sys2Proof/Machine/Flags.lean ====
section
/-! DEFINITION. The Core Status register, field by field (R30 to R40), the conditions (R110), and every flag
computation of the ALU (R37, R121). -/

namespace Sys2Proof.Machine

/-! ### The fields of CS (R30) -/

/-- `CS.p`, Register Page setting (R31). -/
def csPage (cs : Word) : BitVec 4 := field cs 12 4

/-- `CS.l`, Global Link Register setting (R32). -/
def csLink (cs : Word) : RegNum := field cs 8 4

/-- `CS.s`, Hide Special Registers flag (R33). -/
def csHide (cs : Word) : Bool := cs.getLsbD 7

/-- `CS.i`, Allow Interrupts flag (R34). -/
def csAllow (cs : Word) : Bool := cs.getLsbD 6

/-- `CS.x`, ALU Sign Extension flag (R35). -/
def csExtend (cs : Word) : Bool := cs.getLsbD 5

/-- `CS.f`, Inhibit Flag Set flag (R36). -/
def csInhibit (cs : Word) : Bool := cs.getLsbD 4

/-- `CS.c`, Carry flag (R37). -/
def csC (cs : Word) : Bool := cs.getLsbD 3

/-- `CS.z`, Zero flag (R37). -/
def csZ (cs : Word) : Bool := cs.getLsbD 2

/-- `CS.n`, Negative flag (R37). -/
def csN (cs : Word) : Bool := cs.getLsbD 1

/-- `CS.v`, Overflow flag (R37). -/
def csV (cs : Word) : Bool := cs.getLsbD 0

/-- What a read of CS as a register gives: bits 15:0 as they stand and zero above (R38, R40). -/
def csRead (cs : Word) : Word := (field cs 0 16).setWidth 32

/-- What CS holds after a write of `v`: bits 15:0 from `v`, bits 31:16 zero (R38, R40). -/
def csWrite (v : Word) : Word := (field v 0 16).setWidth 32

/-- CS can hold `v`: its page is one of the base system's (R26). -/
def pageLegal (v : Word) : Bool := (csPage v).toNat < Config.npages

/-- `CS.i <- b`, written to CS directly (R34, R167). -/
def csSetAllow (cs : Word) (b : Bool) : Word := setField cs 6 (BitVec.ofBool b)

/-- What SRPG_D makes of the hide flag, in the reading of `Config.srpgReading` (R154). -/
def srpgHide (d hide : Bool) : Bool :=
  match Config.srpgReading with
  | .copied => d
  | .inverted => !d
  | .oneWay => if d then false else hide
  | .clears => false

/-- `CS.p <- p ; CS.s <- hide`, written to CS directly (R154). -/
def csSetPage (cs : Word) (p : BitVec 4) (hide : Bool) : Word :=
  setField (setField cs 12 p) 7 (BitVec.ofBool hide)

/-- The four condition flags become `c`, `z`, `n`, `v`. -/
def csSetFlags (cs : Word) (c z n v : Bool) : Word :=
  setField (setField (setField (setField cs 3 (BitVec.ofBool c)) 2 (BitVec.ofBool z)) 1
    (BitVec.ofBool n)) 0 (BitVec.ofBool v)

/-! ### Conditions -/

/-- The condition holds under the flags of `cs`: the formulas of R110. -/
def condHolds (c : Cond) (cs : Word) : Bool :=
  match c with
  | .alc => true
  | .eql => csZ cs
  | .neq => !csZ cs
  | .hos => csC cs
  | .low => !csC cs
  | .neg => csN cs
  | .poz => !csN cs
  | .ovf => csV cs
  | .nov => !csV cs
  | .hig => csC cs && !csZ cs
  | .los => !csC cs || csZ cs
  | .get => csN cs == csV cs
  | .let_ => csN cs != csV cs
  | .grt => !csZ cs && (csN cs == csV cs)
  | .lst => csZ cs || (csN cs != csV cs)

/-! ### What an ALU operation computes -/

/-- A result, and the carry and the overflow where the operation writes them (R121). -/
structure AluOut where
  res : Word
  cv : Option (Bool × Bool)
  deriving DecidableEq, Repr

/-- A result that leaves `CS.c` and `CS.v` unchanged: thirteen of the sixteen operations (R37, R121). -/
def plainOut (res : Word) : AluOut := ⟨res, none⟩

/-- Addition: the carry out of bit 31, and the signed overflow (R121). -/
def addOut (A B : Word) : AluOut :=
  let res := A + B
  ⟨res, some (decide (2 ^ 32 ≤ A.toNat + B.toNat), A.msb == B.msb && res.msb != A.msb)⟩

/-- Subtraction: carry 1 means no borrow, and the signed overflow (R121). -/
def subOut (A B : Word) : AluOut :=
  let res := A - B
  ⟨res, some (decide (B.toNat ≤ A.toNat), A.msb != B.msb && res.msb != A.msb)⟩

/-- CS after the flag update of an ALU instruction: none with `CS.f` = 1 (R36), else Z and N from the result
and C and V where the operation writes them (R37). -/
def flagUpdate (cs : Word) (o : AluOut) : Word :=
  if csInhibit cs then cs
  else
    match o.cv with
    | some (c, v) => csSetFlags cs c (decide (o.res = 0)) o.res.msb v
    | none => csSetFlags cs (csC cs) (decide (o.res = 0)) o.res.msb (csV cs)

end Sys2Proof.Machine
end

