-- ==== Sys2Proof/Machine/Memory.lean ====
section
/-! DEFINITION. The byte image of memory: one canonical form, the read and the write of a byte and of a word, and
the map of the address space (R60 to R67). A word is read and written whole (R65, R67): no rule of the spec
sees a byte. -/

namespace Sys2Proof.Machine

/-- The canonical form: addresses strictly rising, within the 2^32 words of the address space (R60), and no
entry equal to what an unlisted byte reads as. -/
abbrev Memory.wf (m : Memory) : Prop :=
  m.Pairwise (fun x y => x.1 < y.1) ∧ ∀ c ∈ m, c.1 < 4 * 2 ^ 32 ∧ c.2 ≠ Config.unlistedByte

/-- The byte at byte `n` of the image. -/
def Memory.readByte : Memory → Nat → BitVec 8
  | [], _ => Config.unlistedByte
  | (k, b) :: rest, n => if k = n then b else Memory.readByte rest n

/-- The image without an entry for byte `n`. -/
def Memory.erase (m : Memory) (n : Nat) : Memory := m.filter fun c => c.1 ≠ n

/-- The image with an entry for byte `n` put in its place. -/
def Memory.insert : Memory → Nat → BitVec 8 → Memory
  | [], n, v => [(n, v)]
  | (k, b) :: rest, n, v =>
    if n < k then (n, v) :: (k, b) :: rest else (k, b) :: Memory.insert rest n v

/-- Byte `n` of the image becomes `v`; an entry that would say what an unlisted byte reads as is left out. -/
def Memory.writeByte (m : Memory) (n : Nat) (v : BitVec 8) : Memory :=
  if v = Config.unlistedByte then m.erase n else (m.erase n).insert n v

/-- The byte of the image at which the word at word address `a` begins. -/
def byteBase (a : Word) : Nat := 4 * a.toNat

/-- The word at word address `a` (R63). -/
def Memory.readWord (m : Memory) (a : Word) : Word :=
  wordOfBytes (m.readByte (byteBase a)) (m.readByte (byteBase a + 1))
    (m.readByte (byteBase a + 2)) (m.readByte (byteBase a + 3))

/-- The word at word address `a` becomes `v`: the whole word (R64). -/
def Memory.writeWord (m : Memory) (a v : Word) : Memory :=
  (((m.writeByte (byteBase a) (byteOfWord v 0)).writeByte (byteBase a + 1) (byteOfWord v 1)).writeByte
    (byteBase a + 2) (byteOfWord v 2)).writeByte (byteBase a + 3) (byteOfWord v 3)

/-- What `MEM_MAP` has at word address `a`: the kind of the first region that holds it (R63, R64). -/
def kindAt (map : List Region) (a : Word) : Option RegionKind :=
  (map.find? fun r => r.base ≤ a.toNat && a.toNat < r.base + r.size).map (·.kind)

/-- The word addresses written since reset, with one more (R72). -/
def addWritten : List Nat → Nat → List Nat
  | [], a => [a]
  | k :: rest, a => if a < k then a :: k :: rest else if a = k then k :: rest else k :: addWritten rest a

end Sys2Proof.Machine
end

