-- ==== Sys2Proof/Machine/Ops.lean ====
section
/-! DEFINITION. The operations the meanings share: the condition check, register access through the mapping of R23,
memory access under `MEM_MAP`, the stack, the link register, taking an interrupt or a software interrupt,
and the return from one. -/

namespace Sys2Proof.Machine

/-- The outcome of an instruction. -/
abbrev Result := Host.Outcome State Fault Refusal

/-- `IP <- cur + 1`, the end of an instruction that does not write IP (R28, R29). -/
def advance (s : State) : State := s.withIp (s.ip + 1)

/-- The condition check: `body` where the condition holds under CS0, else nothing but the advance of IP
(R29 step 4, R111). -/
def underCond (c : Cond) (s : State) (body : Result) : Result :=
  if condHolds c s.cs then body else .next (advance s)

/-! ### Registers (R22, R23) -/

/-- What a register number names: a special register or a register of a page. -/
inductive RegName where
  | ip
  | sp
  | cs
  | gl
  | paged (p : Fin 4) (n : RegNum)
  deriving DecidableEq, Repr

/-- The register that number `i` names under `cs0` (R23); none where `CS.p` selects a page the base system
does not have (R26). -/
def regName (cs0 : Word) (i : RegNum) : Option RegName :=
  if csHide cs0 = false ∧ i = 0 then some .ip
  else if csHide cs0 = false ∧ i = 1 then some .sp
  else if csHide cs0 = false ∧ i = 2 then some .cs
  else if csHide cs0 = false ∧ i = 3 then some .gl
  else if h : (csPage cs0).toNat < 4 then some (.paged ⟨(csPage cs0).toNat, h⟩ i)
  else none

/-- The value of a register. IP holds the address of the executing instruction (R28); a read of CS is `csRead`. -/
def State.get (s : State) : RegName → Word
  | .ip => s.ip
  | .sp => s.sp
  | .cs => csRead s.cs
  | .gl => s.gl
  | .paged p n => s.paged p n

/-- The state with a register written. A write of CS keeps bits 15:0 alone (R38). -/
def State.set (s : State) (r : RegName) (v : Word) : State :=
  match r with
  | .ip => s.withIp v
  | .sp => s.withSp v
  | .cs => s.withCs (csWrite v)
  | .gl => s.withGl v
  | .paged p n => s.withPaged p n v

/-- `k` given `x[i]`, the value of the register that number `i` names in `s` (R13, R23). -/
def withReg (s : State) (i : RegNum) (k : Word → Result) : Result :=
  match regName s.cs i with
  | some r => k (s.get r)
  | none => .fault .noSuchPage

/-- A register can be given the value: CS takes no page of 4 or more (R26). -/
def writable (r : RegName) (v : Word) : Bool :=
  match r with
  | .cs => pageLegal v
  | .ip | .sp | .gl | .paged .. => true

/-- `k` given the name of number `i` under `cs0`, where that register can take `v`. -/
def withDest (cs0 : Word) (i : RegNum) (v : Word) (k : RegName → Result) : Result :=
  match regName cs0 i with
  | none => .fault .noSuchPage
  | some r => if writable r v then k r else .fault .pageOutOfRange

/-- `x[i] <- v` with `i` mapped under `cs0`, the CS the instruction began with, over the other effects of the
instruction, which `s` holds already (R29 step 7, R39). The explicit write wins over an advance of IP and over a
flag update (R29, R40). -/
def writeBack (cs0 : Word) (s : State) (i : RegNum) (v : Word) : Result :=
  withDest cs0 i v fun r => .next (s.set r v)

/-! ### Memory (R63, R64) -/

/-- `MemRead(a, 32)` and the state after it: a device answers with a free value (R63, U10). -/
def memRead (s : State) (a : Word) : Except Fault (Word × State) :=
  match kindAt s.map a with
  | some .ram | some .rom => .ok (s.mem.readWord a, s)
  | some .device => .ok (Config.deviceAnswer s.deviceAccesses, s.withDevice s.deviceWrites s.written)
  | none => .error (.unmappedAddress a)

/-- `MemWrite(a, 32, v)`: RAM takes the value, a device is sent it, ROM and nothing are reserved (R64, U10). -/
def memWrite (s : State) (a v : Word) : Except Fault State :=
  match kindAt s.map a with
  | some .ram => .ok (s.withMem (s.mem.writeWord a v) (addWritten s.written a.toNat))
  | some .device => .ok (s.withDevice ((a, v) :: s.deviceWrites) (addWritten s.written a.toNat))
  | some .rom => .error (.writeToRom a)
  | none => .error (.unmappedAddress a)

/-! ### The stack (R161) -/

/-- The address a push writes, for SP before the instruction (R161, `STACK_DIR`). -/
def pushAddress (sp : Word) : Word :=
  match Config.stackDir with
  | .fullDescending => sp - 1
  | .fullAscending => sp + 1
  | .emptyDescending | .emptyAscending => sp

/-- SP after a push (R161, `STACK_DIR`). -/
def pushedSp (sp : Word) : Word :=
  match Config.stackDir with
  | .fullDescending | .emptyDescending => sp - 1
  | .fullAscending | .emptyAscending => sp + 1

/-- The address a pop reads, for SP before the instruction (R161, `STACK_DIR`). -/
def popAddress (sp : Word) : Word :=
  match Config.stackDir with
  | .fullDescending | .fullAscending => sp
  | .emptyDescending => sp + 1
  | .emptyAscending => sp - 1

/-- SP after a pop (R161, `STACK_DIR`). -/
def poppedSp (sp : Word) : Word :=
  match Config.stackDir with
  | .fullDescending | .emptyDescending => sp + 1
  | .fullAscending | .emptyAscending => sp - 1

/-- `push(v)`: one memory write and the move of SP itself, whatever CS.s is (R161). -/
def push (s : State) (v : Word) : Except Fault State :=
  match memWrite s (pushAddress s.sp) v with
  | .ok s1 => .ok (s1.withSp (pushedSp s.sp))
  | .error f => .error f

/-- `pop()`: one memory read and the move of SP itself, whatever CS.s is (R161). -/
def pop (s : State) : Except Fault (Word × State) :=
  match memRead s (popAddress s.sp) with
  | .ok (v, s1) => .ok (v, s1.withSp (poppedSp s.sp))
  | .error f => .error f

/-! ### The link register (R32) -/

/-- IP, SP and CS are reserved as link registers: for a save or an interrupt entry (R32) and for a restore (U6, D7). -/
def RegName.reservedLink : RegName → Bool
  | .ip | .sp | .cs => true
  | .gl | .paged .. => false

/-- The link register under `cs`, where it can hold a return address; `reserved` where it is IP, SP or CS
(R32, U6). -/
def withLink (cs : Word) (reserved : Result) (k : RegName → Result) : Result :=
  match regName cs (csLink cs) with
  | none => .fault .noSuchPage
  | some r => if r.reservedLink then reserved else k r

/-! ### Taking an interrupt and returning from one (R194 to R196, R199) -/

/-- The number of a priority (R192). -/
def Priority.number : Priority → Fin 4
  | .low => 0
  | .medium => 1
  | .high => 2
  | .extreme => 3

/-- `H[k]`, read straight from the paged register `R[H_PAGE][k]` (R27, R194). -/
def vectorBase (s : State) (k : Priority) : Word :=
  s.paged Config.hPage (BitVec.ofNat 4 k.number.val)

/-- The handler address `(H[k] + zext_8(ID)) mod 2^32` (R194). -/
def handler (s : State) (k : Priority) (id : IrqId) : Word := vectorBase s k + id.setWidth 32

/-- Priorities 0 and 1 save the return address on the stack, 2 and 3 in the link register (R192, R195). -/
def Priority.savesToStack : Priority → Bool
  | .low | .medium => true
  | .high | .extreme => false

/-- Taking an interrupt of priority `k` with the given ID: the return address `ret` goes to the stack or to the
link register, IP to the handler and CS.i becomes 0; nothing else changes (R195, R196). -/
def takeInterrupt (k : Priority) (id : IrqId) (ret : Word) (s : State) : Result :=
  if k.savesToStack then
    match push s ret with
    | .ok s1 => .next ((s1.withIp (handler s k id)).withCs (csSetAllow s.cs false))
    | .error f => .fault f
  else
    withLink s.cs (.fault .linkRegister) fun r =>
      .next (((s.set r ret).withIp (handler s k id)).withCs (csSetAllow s.cs false))

/-- The priority a software interrupt is serviced at: `SWIN_PRIORITY` (R7, R196, decision D33). -/
def swinPriority : Priority := .low

/-- The return: IP becomes the restored address, and CS.i becomes 1 where the `i` bit is set (R165 to R167, R199). -/
def resume (s : State) (target : Word) (i : Bool) : State :=
  (s.withIp target).withCs (if i then csSetAllow s.cs true else s.cs)

/-- CS after a save form: CS.i becomes 0 where the `i` bit is set (R163, R164, R167). -/
def maskedCs (cs : Word) (i : Bool) : Word := if i then csSetAllow cs false else cs

end Sys2Proof.Machine
end

