-- ==== Sys2Proof/Machine/Operands.lean ====
section
/-! DEFINITION. Every operand form: the widened Values (R92), the value operand of the ALU (R93), the operand of
the value load (R94), shift amounts (R138), addresses (R168, R180); the functions of the ALU operations; and the
frame every ALU instruction executes in (R120). -/

namespace Sys2Proof.Machine

/-! ### Immediates -/

/-- A Value field is sign-extended under `cs` (R35, R92, `VALUE_EXT`). -/
def signExtends (cs : Word) : Bool :=
  match Config.valueExt with
  | .byFlag => csExtend cs
  | .sign => true
  | .zero => false

/-- `ext8(v)` (R92). -/
def ext8 (cs : Word) (v : BitVec 8) : Word := if signExtends cs then v.signExtend 32 else v.setWidth 32

/-- `ext16(v)` (R92). -/
def ext16 (cs : Word) (v : BitVec 16) : Word := if signExtends cs then v.signExtend 32 else v.setWidth 32

/-- The amount of the even left shift: twice the field (R93). -/
def evenShift (sh : BitVec 4) : Nat := 2 * sh.toNat

/-- The second operand of the value form (R93). -/
def valueOperand (cs : Word) (sh : BitVec 4) (v : BitVec 8) : Word := ext8 cs v <<< evenShift sh

/-- The value `movv` loads; its shift is not doubled (R94). -/
def loadedValue (cs : Word) (sh : BitVec 4) (v : BitVec 16) : Word := ext16 cs v <<< sh.toNat

/-- The target of `brch`, `brsl` and `brss` for the value of the base register (R91, R168). -/
def branchTarget (base : Word) (off : BitVec 19) : Word := base + off.signExtend 32

/-- The effective address of `load` and `stor` for the value of the base register (R91, R180). -/
def effectiveAddress (base : Word) (off : BitVec 16) : Word := base + off.signExtend 32

/-! ### The functions of the operations -/

/-- The amount of a shift or rotate: the operand modulo 32, its low five bits (R138, `SHIFT_MOD`). -/
def shiftAmount (B : Word) : Nat := B.toNat % Config.shiftModulus

/-- `(a & m) << n` (R124). -/
def maskLeft (A m : Word) (n : Nat) : Word := (A &&& m) <<< n

/-- `(a & m) >> n`, a logical shift (R125). -/
def maskRight (A m : Word) (n : Nat) : Word := (A &&& m) >>> n

/-- Left shift: zeros enter at bit 0 (R130). -/
def shiftLeft (A : Word) (n : Nat) : Word := A <<< n

/-- Arithmetic right shift: copies of bit 31 enter at bit 31 (R131). -/
def shiftRightArith (A : Word) (n : Nat) : Word := A.sshiftRight n

/-- Logical right shift: zeros enter at bit 31 (R132). -/
def shiftRightLogic (A : Word) (n : Nat) : Word := A >>> n

/-- Rotate left: the bits leaving bit 31 re-enter at bit 0 (R133). -/
def rotateLeft (A : Word) (n : Nat) : Word := if n = 0 then A else A <<< n ||| A >>> (32 - n)

/-- Rotate right: the bits leaving bit 0 re-enter at bit 31 (R134). -/
def rotateRight (A : Word) (n : Nat) : Word := if n = 0 then A else A >>> n ||| A <<< (32 - n)

/-! ### The frame of the ALU instructions (R120) -/

/-- The end of an ALU instruction that stores: the flag update, the advance of IP, and `x[d] <- res`, which wins
over both (R29, R40, R120). -/
def aluStore (s : State) (d : RegNum) (o : AluOut) : Result :=
  writeBack s.cs ((advance s).withCs (flagUpdate s.cs o)) d o.res

/-- The end of `cmpr` and `test`: the flag update and the advance of IP (R120, R135, R136). -/
def aluDiscard (s : State) (o : AluOut) : Result :=
  .next ((advance s).withCs (flagUpdate s.cs o))

/-- Value form: `A = x[a]`, `B` the value operand (R120). -/
def aluValue (s : State) (a : RegNum) (sh : BitVec 4) (v : BitVec 8) (f : Word → Word → AluOut)
    (finish : AluOut → Result) : Result :=
  withReg s a fun A => finish (f A (valueOperand s.cs sh v))

/-- Register form: `A = x[a]`, `B = x[b]` (R120). -/
def aluReg (s : State) (a b : RegNum) (f : Word → Word → AluOut) (finish : AluOut → Result) : Result :=
  withReg s a fun A => withReg s b fun B => finish (f A B)

/-- Value form of `masl` and `masr`: the mask is the Value, the amount the even shift (R120, R124, R125). -/
def maskValue (s : State) (a : RegNum) (sh : BitVec 4) (v : BitVec 8) (f : Word → Word → Nat → Word)
    (finish : AluOut → Result) : Result :=
  withReg s a fun A => finish (plainOut (f A (ext8 s.cs v) (evenShift sh)))

/-- Register form of `masl` and `masr`: the mask is the Value, the amount `x[b][4:0]` (R120, R124, R125). -/
def maskReg (s : State) (a b : RegNum) (v : BitVec 8) (f : Word → Word → Nat → Word)
    (finish : AluOut → Result) : Result :=
  withReg s a fun A => withReg s b fun B => finish (plainOut (f A (ext8 s.cs v) (shiftAmount B)))

end Sys2Proof.Machine
end

