-- ==== Sys2Proof/Machine/Alu.lean ====
section
/-! DEFINITION. The sixteen ALU operations, each in its value form (ALUV) and its register form (ALUR): rules R120 to
R143. The frame (operands, flag update, store, advance) is in Operands.lean; here stands the function of each. -/

namespace Sys2Proof.Machine

/-- addr, value form: (A + B) mod 2^32; Z, N from the result, C, V of the addition (R122). -/
def execAddrV (c : Cond) (d a : RegNum) (sh : BitVec 4) (v : BitVec 8) (s : State) : Result :=
  underCond c s (aluValue s a sh v addOut (aluStore s d))

/-- addr, register form: (A + B) mod 2^32; Z, N from the result, C, V of the addition (R122). -/
def execAddrR (c : Cond) (d a b : RegNum) (s : State) : Result :=
  underCond c s (aluReg s a b addOut (aluStore s d))

/-- subr, value form: (A - B) mod 2^32; Z, N from the result, C, V of the subtraction (R123). -/
def execSubrV (c : Cond) (d a : RegNum) (sh : BitVec 4) (v : BitVec 8) (s : State) : Result :=
  underCond c s (aluValue s a sh v subOut (aluStore s d))

/-- subr, register form: (A - B) mod 2^32; Z, N from the result, C, V of the subtraction (R123). -/
def execSubrR (c : Cond) (d a b : RegNum) (s : State) : Result :=
  underCond c s (aluReg s a b subOut (aluStore s d))

/-- masl, value form: ((A & m) << n) mod 2^32; Z, N from the result; `m` the Value, `n` the even shift (R124). -/
def execMaslV (c : Cond) (d a : RegNum) (sh : BitVec 4) (v : BitVec 8) (s : State) : Result :=
  underCond c s (maskValue s a sh v maskLeft (aluStore s d))

/-- masl, register form: ((A & m) << n) mod 2^32; Z, N from the result; `m` the Value, `n` the low five bits of Term B (R124). -/
def execMaslR (c : Cond) (d a b : RegNum) (v : BitVec 8) (s : State) : Result :=
  underCond c s (maskReg s a b v maskLeft (aluStore s d))

/-- masr, value form: unsigned(A & m) div 2^n; Z, N from the result; `m` the Value, `n` the even shift (R125). -/
def execMasrV (c : Cond) (d a : RegNum) (sh : BitVec 4) (v : BitVec 8) (s : State) : Result :=
  underCond c s (maskValue s a sh v maskRight (aluStore s d))

/-- masr, register form: unsigned(A & m) div 2^n; Z, N from the result; `m` the Value, `n` the low five bits of Term B (R125). -/
def execMasrR (c : Cond) (d a b : RegNum) (v : BitVec 8) (s : State) : Result :=
  underCond c s (maskReg s a b v maskRight (aluStore s d))

/-- andb, value form: A & B; Z, N from the result (R126). -/
def execAndbV (c : Cond) (d a : RegNum) (sh : BitVec 4) (v : BitVec 8) (s : State) : Result :=
  underCond c s (aluValue s a sh v (fun A B => plainOut (A &&& B)) (aluStore s d))

/-- andb, register form: A & B; Z, N from the result (R126). -/
def execAndbR (c : Cond) (d a b : RegNum) (s : State) : Result :=
  underCond c s (aluReg s a b (fun A B => plainOut (A &&& B)) (aluStore s d))

/-- orbt, value form: A | B; Z, N from the result (R127). -/
def execOrbtV (c : Cond) (d a : RegNum) (sh : BitVec 4) (v : BitVec 8) (s : State) : Result :=
  underCond c s (aluValue s a sh v (fun A B => plainOut (A ||| B)) (aluStore s d))

/-- orbt, register form: A | B; Z, N from the result (R127). -/
def execOrbtR (c : Cond) (d a b : RegNum) (s : State) : Result :=
  underCond c s (aluReg s a b (fun A B => plainOut (A ||| B)) (aluStore s d))

/-- xorb, value form: A ^ B; Z, N from the result (R128). -/
def execXorbV (c : Cond) (d a : RegNum) (sh : BitVec 4) (v : BitVec 8) (s : State) : Result :=
  underCond c s (aluValue s a sh v (fun A B => plainOut (A ^^^ B)) (aluStore s d))

/-- xorb, register form: A ^ B; Z, N from the result (R128). -/
def execXorbR (c : Cond) (d a b : RegNum) (s : State) : Result :=
  underCond c s (aluReg s a b (fun A B => plainOut (A ^^^ B)) (aluStore s d))

/-- notb, value form: ~A; Term B is not read; Z, N from the result (R129, R143). -/
def execNotbV (c : Cond) (d a : RegNum) (s : State) : Result :=
  underCond c s (withReg s a fun A => aluStore s d (plainOut (~~~A)))

/-- notb, register form: ~A; Term B is not read; Z, N from the result (R129, R143). -/
def execNotbR (c : Cond) (d a : RegNum) (s : State) : Result :=
  underCond c s (withReg s a fun A => aluStore s d (plainOut (~~~A)))

/-- arsl, value form: (A << n) mod 2^32; Z, N from the result (R130). -/
def execArslV (c : Cond) (d a : RegNum) (sh : BitVec 4) (v : BitVec 8) (s : State) : Result :=
  underCond c s (aluValue s a sh v (fun A B => plainOut (shiftLeft A (shiftAmount B))) (aluStore s d))

/-- arsl, register form: (A << n) mod 2^32; Z, N from the result (R130). -/
def execArslR (c : Cond) (d a b : RegNum) (s : State) : Result :=
  underCond c s (aluReg s a b (fun A B => plainOut (shiftLeft A (shiftAmount B))) (aluStore s d))

/-- arsr, value form: A shifted right with copies of bit 31; Z, N from the result (R131). -/
def execArsrV (c : Cond) (d a : RegNum) (sh : BitVec 4) (v : BitVec 8) (s : State) : Result :=
  underCond c s (aluValue s a sh v (fun A B => plainOut (shiftRightArith A (shiftAmount B))) (aluStore s d))

/-- arsr, register form: A shifted right with copies of bit 31; Z, N from the result (R131). -/
def execArsrR (c : Cond) (d a b : RegNum) (s : State) : Result :=
  underCond c s (aluReg s a b (fun A B => plainOut (shiftRightArith A (shiftAmount B))) (aluStore s d))

/-- losr, value form: unsigned(A) div 2^n; Z, N from the result (R132). -/
def execLosrV (c : Cond) (d a : RegNum) (sh : BitVec 4) (v : BitVec 8) (s : State) : Result :=
  underCond c s (aluValue s a sh v (fun A B => plainOut (shiftRightLogic A (shiftAmount B))) (aluStore s d))

/-- losr, register form: unsigned(A) div 2^n; Z, N from the result (R132). -/
def execLosrR (c : Cond) (d a b : RegNum) (s : State) : Result :=
  underCond c s (aluReg s a b (fun A B => plainOut (shiftRightLogic A (shiftAmount B))) (aluStore s d))

/-- rotl, value form: A rotated left; Z, N from the result (R133). -/
def execRotlV (c : Cond) (d a : RegNum) (sh : BitVec 4) (v : BitVec 8) (s : State) : Result :=
  underCond c s (aluValue s a sh v (fun A B => plainOut (rotateLeft A (shiftAmount B))) (aluStore s d))

/-- rotl, register form: A rotated left; Z, N from the result (R133). -/
def execRotlR (c : Cond) (d a b : RegNum) (s : State) : Result :=
  underCond c s (aluReg s a b (fun A B => plainOut (rotateLeft A (shiftAmount B))) (aluStore s d))

/-- rotr, value form: A rotated right; Z, N from the result (R134). -/
def execRotrV (c : Cond) (d a : RegNum) (sh : BitVec 4) (v : BitVec 8) (s : State) : Result :=
  underCond c s (aluValue s a sh v (fun A B => plainOut (rotateRight A (shiftAmount B))) (aluStore s d))

/-- rotr, register form: A rotated right; Z, N from the result (R134). -/
def execRotrR (c : Cond) (d a b : RegNum) (s : State) : Result :=
  underCond c s (aluReg s a b (fun A B => plainOut (rotateRight A (shiftAmount B))) (aluStore s d))

/-- cmpr, value form: A - B, not stored; the flags of subr (R135). -/
def execCmprV (c : Cond) (a : RegNum) (sh : BitVec 4) (v : BitVec 8) (s : State) : Result :=
  underCond c s (aluValue s a sh v subOut (aluDiscard s))

/-- cmpr, register form: A - B, not stored; the flags of subr (R135). -/
def execCmprR (c : Cond) (a b : RegNum) (s : State) : Result :=
  underCond c s (aluReg s a b subOut (aluDiscard s))

/-- test, value form: A & B, not stored; Z, N from the result (R136). -/
def execTestV (c : Cond) (a : RegNum) (sh : BitVec 4) (v : BitVec 8) (s : State) : Result :=
  underCond c s (aluValue s a sh v (fun A B => plainOut (A &&& B)) (aluDiscard s))

/-- test, register form: A & B, not stored; Z, N from the result (R136). -/
def execTestR (c : Cond) (a b : RegNum) (s : State) : Result :=
  underCond c s (aluReg s a b (fun A B => plainOut (A &&& B)) (aluDiscard s))

/-- masi, value form: A & ~B; Z, N from the result (R137). -/
def execMasiV (c : Cond) (d a : RegNum) (sh : BitVec 4) (v : BitVec 8) (s : State) : Result :=
  underCond c s (aluValue s a sh v (fun A B => plainOut (A &&& ~~~B)) (aluStore s d))

/-- masi, register form: A & ~B; Z, N from the result (R137). -/
def execMasiR (c : Cond) (d a b : RegNum) (s : State) : Result :=
  underCond c s (aluReg s a b (fun A B => plainOut (A &&& ~~~B)) (aluStore s d))

end Sys2Proof.Machine
end

