-- ==== Sys2Proof/Machine/Branch.lean ====
section
/-! DEFINITION. Branches, calls and returns (R160 to R168), the returns from an interrupt among them (R199). -/

namespace Sys2Proof.Machine

/-- brch: `IP <- x[base] + sext_19(off)` (R162). -/
def execBrch (c : Cond) (base : RegNum) (off : BitVec 19) (s : State) : Result :=
  underCond c s (withReg s base fun b => .next (s.withIp (branchTarget b off)))

/-- brsl: the return address goes to the link register, IP to the target; the base is read before the link
register is written, and a link register that is IP, SP or CS is reserved (R32, R163, R167). -/
def execBrsl (c : Cond) (base : RegNum) (ib : Bool) (off : BitVec 19) (s : State) : Result :=
  underCond c s (withReg s base fun b => withLink s.cs (.refused .linkRegister) fun r =>
    .next (((s.set r (s.ip + 1)).withIp (branchTarget b off)).withCs (maskedCs s.cs ib)))

/-- brss: the return address is pushed, IP goes to the target formed before the push (R164, R167). -/
def execBrss (c : Cond) (base : RegNum) (ib : Bool) (off : BitVec 19) (s : State) : Result :=
  underCond c s (withReg s base fun b =>
    match push s (s.ip + 1) with
    | .ok s1 => .next ((s1.withIp (branchTarget b off)).withCs (maskedCs s.cs ib))
    | .error f => .fault f)

/-- brrl: IP from the link register; a link register that is IP, SP or CS is reserved, for the restore as for the
save (R32, R165, R167; U6 and D7, log entry 9). -/
def execBrrl (c : Cond) (ib : Bool) (s : State) : Result :=
  underCond c s (withLink s.cs (.refused .linkRegister) fun r => .next (resume s (s.get r) ib))

/-- brrs: IP from the stack (R166, R167). -/
def execBrrs (c : Cond) (ib : Bool) (s : State) : Result :=
  underCond c s
    (match pop s with
    | .ok (t, s1) => .next (resume s1 t ib)
    | .error f => .fault f)

end Sys2Proof.Machine
end

