-- ==== Sys2Proof/Machine/LoadStore.lean ====
section
/-! DEFINITION. Load and store: one addressing mode, one whole word (R180 to R183). -/

namespace Sys2Proof.Machine

/-- load: `x[sd] <- MemRead(EA, 32)` (R181). -/
def execLoad (c : Cond) (base sd : RegNum) (off : BitVec 16) (s : State) : Result :=
  underCond c s (withReg s base fun b =>
    match memRead s (effectiveAddress b off) with
    | .ok (v, s1) => writeBack s.cs (advance s1) sd v
    | .error f => .fault f)

/-- stor: `MemWrite(EA, 32, x[sd])` (R182). -/
def execStor (c : Cond) (base sd : RegNum) (off : BitVec 16) (s : State) : Result :=
  underCond c s (withReg s base fun b => withReg s sd fun v =>
    match memWrite s (effectiveAddress b off) v with
    | .ok s1 => .next (advance s1)
    | .error f => .fault f)

end Sys2Proof.Machine
end

