-- ==== Sys2Proof/Machine/Misc.lean ====
section
/-! DEFINITION. The core (miscellaneous) instructions: noop, swin, halt, srpg (R150 to R154). There is one mode, so
all four may be executed at any time (R150, R200). -/

namespace Sys2Proof.Machine

/-- noop: nothing but the advance of IP (R151). -/
def execNoop (c : Cond) (s : State) : Result := underCond c s (.next (advance s))

/-- swin: the entry of a priority `SWIN_PRIORITY` interrupt with ID SWIN_V and return address `cur + 1`, whether
CS.i is 0 or 1 (R152, R196). -/
def execSwin (c : Cond) (v : IrqId) (s : State) : Result :=
  underCond c s (takeInterrupt swinPriority v (s.ip + 1) s)

/-- halt: `halted <- true ; IP <- cur + 1` (R153). -/
def execHalt (c : Cond) (s : State) : Result := underCond c s (.next ((advance s).withHalted true))

/-- srpg: `CS.p <- SRPG_P ; CS.s <- SRPG_D`, written to CS directly (R154). A page of 4 or more, which no
canonical word encodes, is refused (R26, R97). -/
def execSrpg (c : Cond) (d : Bool) (p : BitVec 4) (s : State) : Result :=
  underCond c s
    (if p.toNat < Config.npages then
      .next ((advance s).withCs (csSetPage s.cs p (srpgHide d (csHide s.cs))))
    else .refused .pageOutOfRange)

end Sys2Proof.Machine
end

