-- ==== Sys2Proof/Machine/Transfer.lean ====
section
/-! DEFINITION. Register transfer: value load, move, exchange (R170 to R173). None of them updates the flags on its
own (R170). -/

namespace Sys2Proof.Machine

/-- movv: `x[d] <- ext16(v) << sh` (R94, R171). -/
def execMovv (c : Cond) (d : RegNum) (sh : BitVec 4) (v : BitVec 16) (s : State) : Result :=
  underCond c s (writeBack s.cs (advance s) d (loadedValue s.cs sh v))

/-- movr: `x[d] <- x[s]` (R172). -/
def execMovr (c : Cond) (d src : RegNum) (s : State) : Result :=
  underCond c s (withReg s src fun v => writeBack s.cs (advance s) d v)

/-- swap: both registers are read first; then each takes the other's value (R173). -/
def execSwap (c : Cond) (d src : RegNum) (s : State) : Result :=
  underCond c s (withReg s d fun t1 => withReg s src fun t2 =>
    withDest s.cs d t2 fun rd => withDest s.cs src t1 fun rs =>
      .next (((advance s).set rd t2).set rs t1))

end Sys2Proof.Machine
end

