-- ==== Sys2Proof/Machine/Dispatch.lean ====
section
/-! DEFINITION. The meaning of every instruction, one arm per constructor of Instr. -/

namespace Sys2Proof.Machine

def exec (i : Instr) (s : State) : Host.Outcome State Fault Refusal :=
  match i with
  | .addrV c d a sh v => Sys2Proof.Machine.execAddrV c d a sh v s
  | .addrR c d a b => Sys2Proof.Machine.execAddrR c d a b s
  | .subrV c d a sh v => Sys2Proof.Machine.execSubrV c d a sh v s
  | .subrR c d a b => Sys2Proof.Machine.execSubrR c d a b s
  | .maslV c d a sh v => Sys2Proof.Machine.execMaslV c d a sh v s
  | .maslR c d a b v => Sys2Proof.Machine.execMaslR c d a b v s
  | .masrV c d a sh v => Sys2Proof.Machine.execMasrV c d a sh v s
  | .masrR c d a b v => Sys2Proof.Machine.execMasrR c d a b v s
  | .andbV c d a sh v => Sys2Proof.Machine.execAndbV c d a sh v s
  | .andbR c d a b => Sys2Proof.Machine.execAndbR c d a b s
  | .orbtV c d a sh v => Sys2Proof.Machine.execOrbtV c d a sh v s
  | .orbtR c d a b => Sys2Proof.Machine.execOrbtR c d a b s
  | .xorbV c d a sh v => Sys2Proof.Machine.execXorbV c d a sh v s
  | .xorbR c d a b => Sys2Proof.Machine.execXorbR c d a b s
  | .notbV c d a => Sys2Proof.Machine.execNotbV c d a s
  | .notbR c d a => Sys2Proof.Machine.execNotbR c d a s
  | .arslV c d a sh v => Sys2Proof.Machine.execArslV c d a sh v s
  | .arslR c d a b => Sys2Proof.Machine.execArslR c d a b s
  | .arsrV c d a sh v => Sys2Proof.Machine.execArsrV c d a sh v s
  | .arsrR c d a b => Sys2Proof.Machine.execArsrR c d a b s
  | .losrV c d a sh v => Sys2Proof.Machine.execLosrV c d a sh v s
  | .losrR c d a b => Sys2Proof.Machine.execLosrR c d a b s
  | .rotlV c d a sh v => Sys2Proof.Machine.execRotlV c d a sh v s
  | .rotlR c d a b => Sys2Proof.Machine.execRotlR c d a b s
  | .rotrV c d a sh v => Sys2Proof.Machine.execRotrV c d a sh v s
  | .rotrR c d a b => Sys2Proof.Machine.execRotrR c d a b s
  | .cmprV c a sh v => Sys2Proof.Machine.execCmprV c a sh v s
  | .cmprR c a b => Sys2Proof.Machine.execCmprR c a b s
  | .testV c a sh v => Sys2Proof.Machine.execTestV c a sh v s
  | .testR c a b => Sys2Proof.Machine.execTestR c a b s
  | .masiV c d a sh v => Sys2Proof.Machine.execMasiV c d a sh v s
  | .masiR c d a b => Sys2Proof.Machine.execMasiR c d a b s
  | .brch c base off => Sys2Proof.Machine.execBrch c base off s
  | .brsl c base ib off => Sys2Proof.Machine.execBrsl c base ib off s
  | .brss c base ib off => Sys2Proof.Machine.execBrss c base ib off s
  | .brrl c ib => Sys2Proof.Machine.execBrrl c ib s
  | .brrs c ib => Sys2Proof.Machine.execBrrs c ib s
  | .movv c d sh v => Sys2Proof.Machine.execMovv c d sh v s
  | .movr c d src => Sys2Proof.Machine.execMovr c d src s
  | .swap c d src => Sys2Proof.Machine.execSwap c d src s
  | .load c base sd off => Sys2Proof.Machine.execLoad c base sd off s
  | .stor c base sd off => Sys2Proof.Machine.execStor c base sd off s
  | .noop c => Sys2Proof.Machine.execNoop c s
  | .swin c v => Sys2Proof.Machine.execSwin c v s
  | .halt c => Sys2Proof.Machine.execHalt c s
  | .srpg c d p => Sys2Proof.Machine.execSrpg c d p s

end Sys2Proof.Machine
end

