-- ==== Sys2Proof/Machine/Fetch.lean ====
section
/-! DEFINITION. What happens between two instructions: the sampling of the pending interrupt requests and the choice
of one (R193, R197), and the fetch (R29 step 2, R72). Step.lean calls these. -/

namespace Sys2Proof.Machine

/-- Of two requests the one of higher priority; among equals the first, since the order of the list is the
platform's choice (R193, U13). -/
def higher (r q : Request) : Request :=
  if r.priority.number < q.priority.number then q else r

/-- The request taken of those pending: one of the highest priority (R193). -/
def highest : List Request → Option Request
  | [] => none
  | r :: rest =>
    match highest rest with
    | none => some r
    | some q => some (higher r q)

/-- The request to take at this boundary: none with CS.i = 0, whatever the priority (R193). That `halted` is
false is `step`'s own check. -/
def requestToTake (s : State) : Option Request :=
  if csAllow s.cs then highest s.pending else none

/-- The boundary has passed: the platform supplies the pending set of the next one (R42, R192). -/
def nextBoundary (s : State) : State :=
  s.withRequests (s.schedule.headD []) s.schedule.tail

/-- The fetch: the word at IP and the state after the read. On a platform that is not `IFETCH_COHERENT` a word
written since reset is refused (R29, R72). -/
def fetch (s : State) : Host.Outcome (Word × State) Fault Refusal :=
  if s.ifetchCoherent = false ∧ s.ip.toNat ∈ s.written then .refused (.fetchFromWrittenWord s.ip)
  else
    match memRead s s.ip with
    | .ok r => .next r
    | .error f => .fault f

/-- `s` with the word `w` placed where the next step fetches, as a loader outside the machine would place it:
memory holds it, it does not count as written by the core, RAM is there, the core is not halted and no request
diverts the step. -/
def placeWord (s : State) (w : Word) : State :=
  { s with
    mem := s.mem.writeWord s.ip w
    written := s.written.filter fun a => a ≠ s.ip.toNat
    map := if kindAt s.map s.ip = some .ram then s.map else ⟨s.ip.toNat, 1, .ram⟩ :: s.map
    halted := false
    pending := if requestToTake s = none then s.pending else [] }

end Sys2Proof.Machine
end

