-- ==== Sys2Proof/Machine/Step.lean ====
section
/-! DEFINITION. One step: what lies between two instruction boundaries, an interrupt entry or one instruction (R29). -/

namespace Sys2Proof.Machine

/-- The instruction cycle (R29): a halted core has no next state (R205, U12); a request that may be taken is
taken before the fetch (R193, R197); else the word at IP is fetched, decoded and executed. -/
def step (s : State) : Host.Outcome State Fault Refusal :=
  if s.halted then .fault .halted
  else
    match requestToTake s with
    | some r => takeInterrupt r.priority r.id s.ip (nextBoundary s)
    | none =>
      match fetch (nextBoundary s) with
      | .fault f => .fault f
      | .refused r => .refused r
      | .next (w, s1) =>
        match decodeWord w with
        | .ok i => exec i s1
        | .error why => .refused (.reservedEncoding why)

/-- `s` with the instruction whose bits are `w` where the next step fetches (log entry 7). -/
def State.withFetchWord (s : State) (nbits w : Nat) : State := placeWord s (tableWord nbits w)

end Sys2Proof.Machine
end

