-- ==== Sys2Proof/Safety.lean ====
section
/-! DEFINITION. The terms in which claims speak of the machine: the invariant, runs, what an instruction may
change, and when a step completes. -/

namespace Sys2Proof.Machine

/-- What holds of every state the machine can be in: memory and the record of written words are canonical, CS
bits 31:16 are zero (R38) and CS.p is a page of the base system (R26). -/
structure State.Inv (s : State) : Prop where
  memWf : s.mem.wf
  writtenSorted : s.written.Pairwise (· < ·) ∧ ∀ a ∈ s.written, a < 2 ^ 32
  csUpper : field s.cs 16 16 = 0
  page : pageLegal s.cs = true

/-- Some number of steps leads from one state to the other. -/
inductive Reaches : State → State → Prop where
  | refl (s : State) : Reaches s s
  | step {s t u : State} : Reaches s t → step t = .next u → Reaches s u

/-- The next step has a next state. -/
def Completes (s : State) : Prop := ∃ t, step s = .next t

/-- `n` steps from `s` meet no fault and no refusal, but for the end of the run by `halt` (R205). -/
def safeFor : Nat → State → Bool
  | 0, _ => true
  | n + 1, s =>
    match step s with
    | .next t => safeFor n t
    | .fault .halted => true
    | .fault _ | .refused _ => false

/-! ### What an instruction may change, computed by the functions its meaning uses -/

/-- The address an instruction stores to from `s`, where it stores at all: `stor`, `brss` and `swin` (R61). -/
def storeAddress (i : Instr) (s : State) : Option Word :=
  match i with
  | .stor c base _ off =>
    if condHolds c s.cs then (regName s.cs base).map fun r => effectiveAddress (s.get r) off else none
  | .brss c _ _ _ | .swin c _ => if condHolds c s.cs then some (pushAddress s.sp) else none
  | .addrV .. | .addrR .. | .subrV .. | .subrR .. | .maslV .. | .maslR .. | .masrV .. | .masrR .. | .andbV ..
  | .andbR .. | .orbtV .. | .orbtR .. | .xorbV .. | .xorbR .. | .notbV .. | .notbR .. | .arslV .. | .arslR ..
  | .arsrV .. | .arsrR .. | .losrV .. | .losrR .. | .rotlV .. | .rotlR .. | .rotrV .. | .rotrR .. | .cmprV ..
  | .cmprR .. | .testV .. | .testR .. | .masiV .. | .masiR .. | .brch .. | .brsl .. | .brrl .. | .brrs ..
  | .movv .. | .movr .. | .swap .. | .load .. | .noop .. | .halt .. | .srpg .. => none

/-- The registers an instruction writes from `s` beside the advance of IP, a jump and the fields of CS: its
destination, the link register, SP where it pushes or pops. -/
def destinations (i : Instr) (s : State) : List RegName :=
  match i with
  | .addrV _ d _ _ _
  | .addrR _ d _ _
  | .subrV _ d _ _ _
  | .subrR _ d _ _
  | .maslV _ d _ _ _
  | .maslR _ d _ _ _
  | .masrV _ d _ _ _
  | .masrR _ d _ _ _
  | .andbV _ d _ _ _
  | .andbR _ d _ _
  | .orbtV _ d _ _ _
  | .orbtR _ d _ _
  | .xorbV _ d _ _ _
  | .xorbR _ d _ _
  | .notbV _ d _
  | .notbR _ d _
  | .arslV _ d _ _ _
  | .arslR _ d _ _
  | .arsrV _ d _ _ _
  | .arsrR _ d _ _
  | .losrV _ d _ _ _
  | .losrR _ d _ _
  | .rotlV _ d _ _ _
  | .rotlR _ d _ _
  | .rotrV _ d _ _ _
  | .rotrR _ d _ _
  | .masiV _ d _ _ _
  | .masiR _ d _ _
  | .movv _ d _ _
  | .movr _ d _ => (regName s.cs d).toList
  | .swap _ d src => (regName s.cs d).toList ++ (regName s.cs src).toList
  | .load _ _ sd _ => (regName s.cs sd).toList
  | .brsl .. => (regName s.cs (csLink s.cs)).toList
  | .brss .. | .brrs .. | .swin .. => [.sp]
  | .cmprV .. | .cmprR .. | .testV .. | .testR .. | .brch .. | .brrl .. | .stor .. | .noop .. | .halt ..
  | .srpg .. => []

/-- The bits of CS an instruction may change other than by writing CS as a register: the flags its ALU operation
writes (R37, R121), CS.i (R152, R167), CS.p and CS.s (R154). -/
def csBits (i : Instr) : Word :=
  match i with
  | .addrV .. | .addrR .. | .subrV .. | .subrR .. | .cmprV .. | .cmprR .. => 0xF
  | .maslV .. | .maslR .. | .masrV .. | .masrR .. | .andbV .. | .andbR .. | .orbtV .. | .orbtR .. | .xorbV ..
  | .xorbR .. | .notbV .. | .notbR .. | .arslV .. | .arslR .. | .arsrV .. | .arsrR .. | .losrV .. | .losrR ..
  | .rotlV .. | .rotlR .. | .rotrV .. | .rotrR .. | .testV .. | .testR .. | .masiV .. | .masiR .. => 0x6
  | .brsl _ _ ib _ | .brss _ _ ib _ | .brrl _ ib | .brrs _ ib => if ib then 0x40 else 0
  | .swin .. => 0x40
  | .srpg .. => 0xF080
  | .brch .. | .movv .. | .movr .. | .swap .. | .load .. | .stor .. | .noop .. | .halt .. => 0

end Sys2Proof.Machine
end

