-- ==== Sys2Proof/Certificates/Slice0/Obligations.lean ====
section
/-! DEFINITION. The statements for the provers. The formulas under `Sys2Proof.Spec` are written out from the rules
they cite, so that a statement does not repeat the model's own function for the point it is about. -/

open Sys2Proof Sys2Proof.Machine

namespace Sys2Proof.Spec

/-- `IP <- cur + 1` (R28). -/
def fallThrough (s : State) : State := s.withIp (s.ip + 1)

/-- `ext8(v)` under the CS in force (R92). -/
def value8 (cs : Word) (v : BitVec 8) : Word := if csExtend cs then v.signExtend 32 else v.setWidth 32

/-- `ext16(v)` under the CS in force (R92). -/
def value16 (cs : Word) (v : BitVec 16) : Word := if csExtend cs then v.signExtend 32 else v.setWidth 32

/-- The second operand of the value form: `(ext8(v) << (2*sh)) mod 2^32` (R93). -/
def operand (cs : Word) (sh : BitVec 4) (v : BitVec 8) : Word := value8 cs v <<< (2 * sh.toNat)

/-- CS after an ALU instruction that writes all four flags: nothing with CS.f = 1, else C and V as given, Z and N
from the result (R36, R37). -/
def flagsCZNV (cs : Word) (c v : Bool) (res : Word) : Word :=
  if csInhibit cs then cs else csSetFlags cs c (decide (res = 0)) (res.getLsbD 31) v

/-- CS after an ALU instruction that writes Z and N alone (R36, R37). -/
def flagsZN (cs res : Word) : Word := flagsCZNV cs (csC cs) (csV cs) res

/-- Carry out of bit 31 (R121). -/
def carryAdd (A B : Word) : Bool := decide (2 ^ 32 ≤ A.toNat + B.toNat)

/-- Signed overflow of the addition (R121). -/
def overflowAdd (A B : Word) : Bool :=
  decide (A.getLsbD 31 = B.getLsbD 31 ∧ (A + B).getLsbD 31 ≠ A.getLsbD 31)

/-- No borrow (R121). -/
def carrySub (A B : Word) : Bool := decide (B.toNat ≤ A.toNat)

/-- Signed overflow of the subtraction (R121). -/
def overflowSub (A B : Word) : Bool :=
  decide (A.getLsbD 31 ≠ B.getLsbD 31 ∧ (A - B).getLsbD 31 ≠ A.getLsbD 31)

/-- Outcome `o` writes `res` to the register `rd` over the state `t`: it is that next state wherever `rd` can take
`res`, and the fault for a page of 4 or more where `rd` is CS and `res` names one (R26, R40). -/
def Writes (o : Result) (t : State) (rd : RegName) (res : Word) : Prop :=
  (rd ≠ .cs ∨ (field res 12 4).toNat < 4 → o = .next (t.set rd res)) ∧
  (rd = .cs ∧ 4 ≤ (field res 12 4).toNat → o = .fault .pageOutOfRange)

/-- Outcome `o` is that of an ALU instruction that stores `res` in `rd` and leaves `cs` in CS where the result is
not written there (R120). -/
def Stores (o : Result) (s : State) (rd : RegName) (res cs : Word) : Prop :=
  Writes o ((fallThrough s).withCs cs) rd res

/-- The state after one write of the word `v` at address `a`, by what `MEM_MAP` has there: RAM takes it (R64). -/
def storedRam (s : State) (a v : Word) : State :=
  s.withMem (s.mem.writeWord a v) (addWritten s.written a.toNat)

/-- The same where a device is there: it is sent the word (R64). -/
def storedDevice (s : State) (a v : Word) : State :=
  s.withDevice ((a, v) :: s.deviceWrites) (addWritten s.written a.toNat)

/-- Outcome `o` stores the word `v` at address `a` and goes on as `k` says; where ROM or nothing is at `a` it is the
fault for that (R64). -/
def WritesMemory (o : Result) (s : State) (a v : Word) (k : State → State) : Prop :=
  (kindAt s.map a = some .ram → o = .next (k (storedRam s a v))) ∧
  (kindAt s.map a = some .device → o = .next (k (storedDevice s a v))) ∧
  (kindAt s.map a = some .rom → o = .fault (.writeToRom a)) ∧
  (kindAt s.map a = none → o = .fault (.unmappedAddress a))

/-- CS.i as bit 6 of CS, written (R34). -/
def allow (cs : Word) (b : Bool) : Word := if b then cs ||| 0x40#32 else cs &&& 0xFFFFFFBF#32

/-- The next states of an outcome, changed by `f`. -/
def mapNext (f : State → State) : Result → Result
  | .next t => .next (f t)
  | .fault r => .fault r
  | .refused r => .refused r

/-- The ALU instructions: those whose flags an ALU operation writes (R37). -/
def isAlu (i : Instr) : Prop := csBits i = 0xF ∨ csBits i = 0x6

/-- The next step fetches a word from RAM or ROM: the core runs, no request is taken, and the word at IP is there
and, unless the platform is `IFETCH_COHERENT`, not written since reset (R29, R63, R72). -/
def fetches (s : State) : Prop :=
  s.halted = false ∧ requestToTake s = none ∧
    (kindAt s.map s.ip = some .ram ∨ kindAt s.map s.ip = some .rom) ∧
    (s.ifetchCoherent = true ∨ s.ip.toNat ∉ s.written)

/-- The four bytes that hold the word at `a` in the byte image. -/
def bytesAt (m : Memory) (a : Word) : List (BitVec 8) :=
  [m.readByte (4 * a.toNat), m.readByte (4 * a.toNat + 1), m.readByte (4 * a.toNat + 2),
    m.readByte (4 * a.toNat + 3)]

end Sys2Proof.Spec

open Sys2Proof.Spec

/-! ### Encoding -/

/-- Decoding what was encoded gives the instruction back, for every well-formed instruction, as a word and as bytes
followed by anything (R96, R103). -/
def Obligations.DecodingAnEncodedInstructionGivesItBack : Prop :=
  ∀ i : Instr, i.wellFormed = true →
    decodeWord (encode i) = .ok i ∧ ∀ rest, decode (encodeBytes i ++ rest) = .ok (i, rest)

/-- A word that decodes is the encoding of what it decodes to, and that is well-formed: a word has one meaning and
no bit of it is dropped (R96, R97). -/
def Obligations.EncodingADecodedWordGivesItBack : Prop :=
  ∀ (w : Word) (i : Instr), decodeWord w = .ok i → encode i = w ∧ i.wellFormed = true

/-- A word decodes exactly if its condition is not 0xF and it belongs to a row of the opcode table with no
must-be-zero bit set and, for `srpg`, a page below 4 (R97, R102). -/
def Obligations.DecodableWordsAreTheCanonicalTableWords : Prop :=
  ∀ w : Word, (∃ i, decodeWord w = .ok i) ↔
    field w 28 4 ≠ 0xF#4 ∧ ∃ r ∈ opcodeTable, r.selects w = true ∧ r.isCanonical w = true ∧
      (r.mnemonic = "srpg" → (field w 0 4).toNat < 4)

/-- No word belongs to two rows of the opcode table (R102). -/
def Obligations.OpcodeTableRowsDoNotOverlap : Prop :=
  ∀ (w : Word), ∀ r ∈ opcodeTable, ∀ q ∈ opcodeTable, r.selects w = true → q.selects w = true → r = q

/-- Seven words, one of each format, decode to the instructions the spec's decoding table gives them (R81). -/
def Obligations.SampleWordsDecodeAsListed : Prop :=
  decodeWord 0x27753120 = .ok (.addrV .neq 7 5 3 0x12) ∧
  decodeWord 0x26756122 = .ok (.maslR .neq 7 5 6 0x12) ∧
  decodeWord 0x2D880123 = .ok (.brss .neq 8 true 0x123) ∧
  decodeWord 0x25F9BEEF = .ok (.movv .neq 15 9 0xBEEF) ∧
  decodeWord 0x24F98000 = .ok (.swap .neq 15 9) ∧
  decodeWord 0x239E7FFF = .ok (.stor .neq 9 14 0x7FFF) ∧
  decodeWord 0x21300013 = .ok (.srpg .neq true 3)

/-- A word with condition 0xF is rejected whatever its other bits, and a step that fetches one is refused (R112). -/
def Obligations.ConditionFIsReserved : Prop :=
  (∀ w : Word, field w 28 4 = 0xF#4 → decodeWord w = .error .conditionF) ∧
  (∀ s : State, fetches s → field (s.mem.readWord s.ip) 28 4 = 0xF#4 →
    step s = .refused (.reservedEncoding .conditionF))

/-- A step that fetches a reserved encoding is refused by the name of what is reserved (R97). -/
def Obligations.ReservedEncodingsAreRefused : Prop :=
  ∀ (s : State) (why : Reserved), fetches s → decodeWord (s.mem.readWord s.ip) = .error why →
    step s = .refused (.reservedEncoding why)

/-! ### The instruction cycle -/

/-- When the bytes at IP decode to an instruction, the step is that instruction's meaning, at the state in which the
platform's next pending set is in place; nothing else is done around it (R29). The replacement of the pending set is
the model's choice, log entry 8. -/
def Obligations.StepRunsTheDecodedInstruction : Prop :=
  ∀ (s : State) (i : Instr), fetches s → decode (bytesAt s.mem s.ip) = .ok (i, []) →
    step s = exec i (s.withRequests (s.schedule.headD []) s.schedule.tail)

/-- An instruction placed with `withFetchWord` is the one the very next step runs, from every state. Placing it
stands for a load from outside the machine: the model's choice, log entry 7. -/
def Obligations.PlacedInstructionIsTheOneThatRuns : Prop :=
  ∀ (s : State) (w : Nat) (i : Instr), decodeTableWord 32 w = some i →
    step (s.withFetchWord 32 w) = exec i (nextBoundary (s.withFetchWord 32 w))

/-- On a platform that is not `IFETCH_COHERENT` a word written since reset is not executed: the step is refused
(R72). How the model records the words written is its choice, log entry 6. -/
def Obligations.WrittenWordsAreNotExecutedIncoherently : Prop :=
  ∀ s : State, s.halted = false → requestToTake s = none → s.ifetchCoherent = false →
    s.ip.toNat ∈ s.written → step s = .refused (.fetchFromWrittenWord s.ip)

/-- On a platform that is not `IFETCH_COHERENT`, whatever a run from a state with nothing written yet fetches from
RAM or ROM is what memory held at the start (R72). How the model records the words written is its choice, log entry
6. -/
def Obligations.IncoherentRunsExecuteTheOriginalCode : Prop :=
  ∀ (s t u : State) (w : Word), s.written = [] → s.ifetchCoherent = false → Reaches s t →
    kindAt s.map t.ip ≠ some .device → fetch (nextBoundary t) = .next (w, u) → w = s.mem.readWord t.ip

/-- An instruction whose condition fails does nothing but advance (R111). -/
def Obligations.FailedConditionOnlyAdvances : Prop :=
  ∀ (i : Instr) (s : State), condHolds i.cond s.cs = false → exec i s = .next (s.withIp (s.ip + 1))

/-- The fifteen conditions, by their codes 0x0 to 0xE, as formulas over bits 3 (C), 2 (Z), 1 (N) and 0 (V) of CS
(R110). -/
def Obligations.ConditionsTestTheFlagsOfTheTable : Prop :=
  (∀ n : BitVec 4, decodeCond n = [Cond.alc, .eql, .neq, .hos, .low, .neg, .poz, .ovf, .nov, .hig, .los, .get, .let_,
    .grt, .lst][n.toNat]?) ∧
  ∀ cs : Word,
    let C := cs.getLsbD 3; let Z := cs.getLsbD 2; let N := cs.getLsbD 1; let V := cs.getLsbD 0
    (condHolds .alc cs = true) ∧
    (condHolds .eql cs = true ↔ Z = true) ∧ (condHolds .neq cs = true ↔ Z = false) ∧
    (condHolds .hos cs = true ↔ C = true) ∧ (condHolds .low cs = true ↔ C = false) ∧
    (condHolds .neg cs = true ↔ N = true) ∧ (condHolds .poz cs = true ↔ N = false) ∧
    (condHolds .ovf cs = true ↔ V = true) ∧ (condHolds .nov cs = true ↔ V = false) ∧
    (condHolds .hig cs = true ↔ C = true ∧ Z = false) ∧ (condHolds .los cs = true ↔ C = false ∨ Z = true) ∧
    (condHolds .get cs = true ↔ N = V) ∧ (condHolds .let_ cs = true ↔ N ≠ V) ∧
    (condHolds .grt cs = true ↔ Z = false ∧ N = V) ∧ (condHolds .lst cs = true ↔ Z = true ∨ N ≠ V)

/-- After a compare of A with B the conditions order the operands: HOS, LOW, HIG and LOS as unsigned values, GET, GRT,
code 0xC and code 0xE as signed values, EQL and NEQ (R113). -/
def Obligations.ConditionsAfterCompareOrderTheOperands : Prop :=
  ∀ (s : State) (c : Cond) (a b : RegNum) (ra rb : RegName) (k : Cond), condHolds c s.cs = true →
    csInhibit s.cs = false → regName s.cs a = some ra → regName s.cs b = some rb →
    let A := s.get ra; let B := s.get rb
    ∃ t, exec (.cmprR c a b) s = .next t ∧
      (condHolds k t.cs = true ↔
        match k with
        | .hos => B.toNat ≤ A.toNat
        | .low => A.toNat < B.toNat
        | .hig => B.toNat < A.toNat
        | .los => A.toNat ≤ B.toNat
        | .get => B.toInt ≤ A.toInt
        | .grt => B.toInt < A.toInt
        | .let_ => A.toInt < B.toInt
        | .lst => A.toInt ≤ B.toInt
        | .eql => A = B
        | .neq => A ≠ B
        | .alc => True
        | .neg => (A - B).toInt < 0
        | .poz => 0 ≤ (A - B).toInt
        | .ovf => ¬(-2 ^ 31 ≤ A.toInt - B.toInt ∧ A.toInt - B.toInt < 2 ^ 31)
        | .nov => -2 ^ 31 ≤ A.toInt - B.toInt ∧ A.toInt - B.toInt < 2 ^ 31)

/-- With CS.f = 1 no ALU instruction changes the flags or any other bit of CS (R36, R141), but for one whose destination
is CS: that write is not inhibited (R36, R40). `cmpr` and `test` then change nothing but IP (R141). -/
def Obligations.InhibitedAluLeavesTheFlags : Prop :=
  (∀ (i : Instr) (s t : State), isAlu i → csInhibit s.cs = true → RegName.cs ∉ destinations i s →
    exec i s = .next t → t.cs = s.cs) ∧
  (∀ (s t : State) (c : Cond) (a b : RegNum) (sh : BitVec 4) (v : BitVec 8), csInhibit s.cs = true →
    (exec (.cmprV c a sh v) s = .next t ∨ exec (.cmprR c a b) s = .next t ∨
      exec (.testV c a sh v) s = .next t ∨ exec (.testR c a b) s = .next t) → t = fallThrough s)

/-! ### Registers and CS -/

/-- What a register number names: IP, SP, CS and GL for 0 to 3 while they are not hidden, else the register of that
number in the page CS.p selects (R23). -/
def Obligations.RegisterNumbersNameTheMappedRegisters : Prop :=
  ∀ (cs : Word) (i : RegNum),
    (csHide cs = false → i = 0 → regName cs i = some .ip) ∧
    (csHide cs = false → i = 1 → regName cs i = some .sp) ∧
    (csHide cs = false → i = 2 → regName cs i = some .cs) ∧
    (csHide cs = false → i = 3 → regName cs i = some .gl) ∧
    (∀ p : Fin 4, (csHide cs = true ∨ 4 ≤ i.toNat) → (csPage cs).toNat = p.val →
      regName cs i = some (.paged p i))

/-- While CS.p is 4 or more, which no step brings about, a number that names a paged register is a fault wherever it
is read (`withReg`), written (`withDest`) or used as the link register (`withLink`), the three ways in which a meaning
reaches a register by its number; so `movr` from it and `movv` to it fault. The model's choice, log entry 10 (R26). -/
def Obligations.MissingPagesFault : Prop :=
  ∀ (s : State) (i : RegNum), 4 ≤ (csPage s.cs).toNat → (csHide s.cs = true ∨ 4 ≤ i.toNat) →
    (∀ k, withReg s i k = .fault .noSuchPage) ∧
    (∀ w k, withDest s.cs i w k = .fault .noSuchPage) ∧
    (i = csLink s.cs → ∀ o k, withLink s.cs o k = .fault .noSuchPage) ∧
    ∀ (c : Cond) (d : RegNum) (sh : BitVec 4) (v : BitVec 16), condHolds c s.cs = true →
      exec (.movr c d i) s = .fault .noSuchPage ∧ exec (.movv c i sh v) s = .fault .noSuchPage

/-- CS bits 31:16 read as zero and a write to them is ignored; bits 15:0 are written and read as they stand (R38). -/
def Obligations.CsKeepsItsLowHalfAlone : Prop :=
  ∀ (s : State) (v : Word),
    field (s.get .cs) 16 16 = 0 ∧ field (s.get .cs) 0 16 = field s.cs 0 16 ∧
    field ((s.set .cs v).cs) 16 16 = 0 ∧ field ((s.set .cs v).cs) 0 16 = field v 0 16 ∧
    (s.set .cs v).get .cs = (s.set .cs v).cs

/-! ### Reset and the invariant -/

/-- What the spec gives for reset: IP is 0, the page is 0, the special registers are visible, interrupts are off, CS
bits 31:16 are 0, the core is not halted, and there is readable memory at address 0 (R45, R68, R220). The map that
gives that memory is the model's choice, log entry 2. -/
def Obligations.ResetLeavesWhatTheSpecGives : Prop :=
  State.reset.ip = 0 ∧ csPage State.reset.cs = 0 ∧ csHide State.reset.cs = false ∧
  csAllow State.reset.cs = false ∧ field State.reset.cs 16 16 = 0 ∧ State.reset.halted = false ∧
  kindAt State.reset.map 0 = some .ram

/-- The invariant holds of the state after reset (R26, R38, R45). -/
def Obligations.ResetMeetsTheInvariant : Prop := State.reset.Inv

/-- Every step keeps the invariant: memory and the record of written words stay canonical, CS bits 31:16 stay zero
and CS.p stays a page of the base system (R26, R38). The canonical forms are the model's own. -/
def Obligations.EveryStepKeepsTheInvariant : Prop :=
  ∀ s t : State, s.Inv → step s = .next t → t.Inv

/-! ### ALU operations -/

/-- `addr` and `subr`, both forms: the result, the four flags, the advance of IP and nothing else (R120 to R123). -/
def Obligations.AddAndSubtractWriteResultAndFlags : Prop :=
  ∀ (s : State) (c : Cond) (d a b : RegNum) (sh : BitVec 4) (v : BitVec 8) (rd ra rb : RegName),
    condHolds c s.cs = true → regName s.cs d = some rd → regName s.cs a = some ra →
    regName s.cs b = some rb →
    let A := s.get ra; let B := s.get rb; let V := operand s.cs sh v
    Stores (exec (.addrR c d a b) s) s rd (A + B) (flagsCZNV s.cs (carryAdd A B) (overflowAdd A B) (A + B)) ∧
    Stores (exec (.addrV c d a sh v) s) s rd (A + V) (flagsCZNV s.cs (carryAdd A V) (overflowAdd A V) (A + V)) ∧
    Stores (exec (.subrR c d a b) s) s rd (A - B) (flagsCZNV s.cs (carrySub A B) (overflowSub A B) (A - B)) ∧
    Stores (exec (.subrV c d a sh v) s) s rd (A - V) (flagsCZNV s.cs (carrySub A V) (overflowSub A V) (A - V))

/-- `andb`, `orbt`, `xorb`, `masi` and `notb`, both forms: the result, Z and N, the advance of IP and nothing else
(R120, R126 to R129, R137). -/
def Obligations.LogicalOperationsWriteResultAndZN : Prop :=
  ∀ (s : State) (c : Cond) (d a b : RegNum) (sh : BitVec 4) (v : BitVec 8) (rd ra rb : RegName),
    condHolds c s.cs = true → regName s.cs d = some rd → regName s.cs a = some ra →
    regName s.cs b = some rb →
    let A := s.get ra; let B := s.get rb; let V := operand s.cs sh v
    Stores (exec (.andbR c d a b) s) s rd (A &&& B) (flagsZN s.cs (A &&& B)) ∧
    Stores (exec (.andbV c d a sh v) s) s rd (A &&& V) (flagsZN s.cs (A &&& V)) ∧
    Stores (exec (.orbtR c d a b) s) s rd (A ||| B) (flagsZN s.cs (A ||| B)) ∧
    Stores (exec (.orbtV c d a sh v) s) s rd (A ||| V) (flagsZN s.cs (A ||| V)) ∧
    Stores (exec (.xorbR c d a b) s) s rd (A ^^^ B) (flagsZN s.cs (A ^^^ B)) ∧
    Stores (exec (.xorbV c d a sh v) s) s rd (A ^^^ V) (flagsZN s.cs (A ^^^ V)) ∧
    Stores (exec (.masiR c d a b) s) s rd (A &&& ~~~B) (flagsZN s.cs (A &&& ~~~B)) ∧
    Stores (exec (.masiV c d a sh v) s) s rd (A &&& ~~~V) (flagsZN s.cs (A &&& ~~~V)) ∧
    Stores (exec (.notbR c d a) s) s rd (~~~A) (flagsZN s.cs (~~~A)) ∧
    Stores (exec (.notbV c d a) s) s rd (~~~A) (flagsZN s.cs (~~~A))

/-- `arsl`, `arsr` and `losr`, both forms, with the amount the low five bits of the second operand: the result, Z and
N, the advance of IP and nothing else (R120, R130 to R132, R138). -/
def Obligations.ShiftsWriteResultAndZN : Prop :=
  ∀ (s : State) (c : Cond) (d a b : RegNum) (sh : BitVec 4) (v : BitVec 8) (rd ra rb : RegName),
    condHolds c s.cs = true → regName s.cs d = some rd → regName s.cs a = some ra →
    regName s.cs b = some rb →
    let A := s.get ra; let n := (field (s.get rb) 0 5).toNat; let m := (field (operand s.cs sh v) 0 5).toNat
    Stores (exec (.arslR c d a b) s) s rd (A <<< n) (flagsZN s.cs (A <<< n)) ∧
    Stores (exec (.arslV c d a sh v) s) s rd (A <<< m) (flagsZN s.cs (A <<< m)) ∧
    Stores (exec (.arsrR c d a b) s) s rd (A.sshiftRight n) (flagsZN s.cs (A.sshiftRight n)) ∧
    Stores (exec (.arsrV c d a sh v) s) s rd (A.sshiftRight m) (flagsZN s.cs (A.sshiftRight m)) ∧
    Stores (exec (.losrR c d a b) s) s rd (A >>> n) (flagsZN s.cs (A >>> n)) ∧
    Stores (exec (.losrV c d a sh v) s) s rd (A >>> m) (flagsZN s.cs (A >>> m))

/-- `rotl` and `rotr`, both forms, as rotations of the 32-bit value by the low five bits of the second operand: the
result, Z and N, the advance of IP and nothing else (R120, R133, R134, R138). -/
def Obligations.RotatesWriteResultAndZN : Prop :=
  ∀ (s : State) (c : Cond) (d a b : RegNum) (sh : BitVec 4) (v : BitVec 8) (rd ra rb : RegName),
    condHolds c s.cs = true → regName s.cs d = some rd → regName s.cs a = some ra →
    regName s.cs b = some rb →
    let A := s.get ra; let n := (field (s.get rb) 0 5).toNat; let m := (field (operand s.cs sh v) 0 5).toNat
    Stores (exec (.rotlR c d a b) s) s rd (A.rotateLeft n) (flagsZN s.cs (A.rotateLeft n)) ∧
    Stores (exec (.rotlV c d a sh v) s) s rd (A.rotateLeft m) (flagsZN s.cs (A.rotateLeft m)) ∧
    Stores (exec (.rotrR c d a b) s) s rd (A.rotateRight n) (flagsZN s.cs (A.rotateRight n)) ∧
    Stores (exec (.rotrV c d a sh v) s) s rd (A.rotateRight m) (flagsZN s.cs (A.rotateRight m))

/-- `masl` and `masr`, both forms: the mask is the widened Value, the amount the even shift or the low five bits of
Term B; the result, Z and N, the advance of IP and nothing else (R120, R124, R125, R138). -/
def Obligations.MaskAndShiftsWriteResultAndZN : Prop :=
  ∀ (s : State) (c : Cond) (d a b : RegNum) (sh : BitVec 4) (v : BitVec 8) (rd ra rb : RegName),
    condHolds c s.cs = true → regName s.cs d = some rd → regName s.cs a = some ra →
    regName s.cs b = some rb →
    let M := s.get ra &&& value8 s.cs v; let n := (field (s.get rb) 0 5).toNat; let e := 2 * sh.toNat
    Stores (exec (.maslR c d a b v) s) s rd (M <<< n) (flagsZN s.cs (M <<< n)) ∧
    Stores (exec (.maslV c d a sh v) s) s rd (M <<< e) (flagsZN s.cs (M <<< e)) ∧
    Stores (exec (.masrR c d a b v) s) s rd (M >>> n) (flagsZN s.cs (M >>> n)) ∧
    Stores (exec (.masrV c d a sh v) s) s rd (M >>> e) (flagsZN s.cs (M >>> e))

/-- `cmpr` and `test`, both forms: the flags, the advance of IP and nothing else; no register is written (R120, R121,
R135, R136). -/
def Obligations.CompareAndTestWriteFlagsAlone : Prop :=
  ∀ (s : State) (c : Cond) (a b : RegNum) (sh : BitVec 4) (v : BitVec 8) (ra rb : RegName),
    condHolds c s.cs = true → regName s.cs a = some ra → regName s.cs b = some rb →
    let A := s.get ra; let B := s.get rb; let V := operand s.cs sh v
    exec (.cmprR c a b) s = .next ((fallThrough s).withCs
      (flagsCZNV s.cs (carrySub A B) (overflowSub A B) (A - B))) ∧
    exec (.cmprV c a sh v) s = .next ((fallThrough s).withCs
      (flagsCZNV s.cs (carrySub A V) (overflowSub A V) (A - V))) ∧
    exec (.testR c a b) s = .next ((fallThrough s).withCs (flagsZN s.cs (A &&& B))) ∧
    exec (.testV c a sh v) s = .next ((fallThrough s).withCs (flagsZN s.cs (A &&& V)))

/-- The overflow of the ALU is 1 exactly when the true signed result lies outside the signed range, for addition and
subtraction, and its carry is the carry out of bit 31 and the absence of a borrow (R121). -/
def Obligations.OverflowMeansTheSignedResultDoesNotFit : Prop :=
  ∀ A B : Word,
    (∃ c v, (addOut A B).cv = some (c, v) ∧ (c = true ↔ 2 ^ 32 ≤ A.toNat + B.toNat) ∧
      (v = true ↔ ¬(-2 ^ 31 ≤ A.toInt + B.toInt ∧ A.toInt + B.toInt < 2 ^ 31))) ∧
    (∃ c v, (subOut A B).cv = some (c, v) ∧ (c = true ↔ B.toNat ≤ A.toNat) ∧
      (v = true ↔ ¬(-2 ^ 31 ≤ A.toInt - B.toInt ∧ A.toInt - B.toInt < 2 ^ 31)))

/-- The shifts as arithmetic: left is multiplication modulo 2^32, logical right is division of the unsigned value,
arithmetic right is the floor of the division of the signed value (R130 to R132). -/
def Obligations.ShiftsAreMultiplicationAndDivision : Prop :=
  ∀ (A : Word) (n : Nat), n < 32 →
    (shiftLeft A n).toNat = A.toNat * 2 ^ n % 2 ^ 32 ∧
    (shiftRightLogic A n).toNat = A.toNat / 2 ^ n ∧
    (shiftRightArith A n).toInt = Int.fdiv A.toInt (2 ^ n)

/-! ### Branches -/

/-- `brch`: IP is the base plus the offset; nothing else changes (R162, R168). -/
def Obligations.BranchGoesToBasePlusOffset : Prop :=
  ∀ (s : State) (c : Cond) (base : RegNum) (off : BitVec 19) (rb : RegName), condHolds c s.cs = true →
    regName s.cs base = some rb → exec (.brch c base off) s = .next (s.withIp (s.get rb + off.signExtend 32))

/-- `brsl`: the return address goes to the link register, IP to the base read before that plus the offset, and CS.i
is cleared where `i` is set; a link register that is IP, SP or CS is refused (R32, R163, R167, R168). -/
def Obligations.BranchSavesToLink : Prop :=
  ∀ (s : State) (c : Cond) (base : RegNum) (i : Bool) (off : BitVec 19) (rb rl : RegName),
    condHolds c s.cs = true → regName s.cs base = some rb → regName s.cs (csLink s.cs) = some rl →
    (rl ≠ .ip ∧ rl ≠ .sp ∧ rl ≠ .cs →
      exec (.brsl c base i off) s = .next (((s.set rl (s.ip + 1)).withIp (s.get rb + off.signExtend 32)).withCs
        (if i then allow s.cs false else s.cs))) ∧
    (rl = .ip ∨ rl = .sp ∨ rl = .cs → exec (.brsl c base i off) s = .refused .linkRegister)

/-- `brss`: the return address is pushed, IP goes to the base read before the push plus the offset, and CS.i is
cleared where `i` is set (R161, R164, R167, R168). Where a device is there, what the write leaves in the state is
the model's choice, log entry 5. -/
def Obligations.BranchSavesToStack : Prop :=
  ∀ (s : State) (c : Cond) (base : RegNum) (i : Bool) (off : BitVec 19) (rb : RegName),
    condHolds c s.cs = true → regName s.cs base = some rb →
    WritesMemory (exec (.brss c base i off) s) s (s.sp - 1) (s.ip + 1) fun t =>
      ((t.withSp (s.sp - 1)).withIp (s.get rb + off.signExtend 32)).withCs
        (if i then allow s.cs false else s.cs)

/-- `brrl`: IP is the link register, CS.i is set where `i` is set; nothing else changes (R165, R167). A link register
that is IP, SP or CS is refused: the treatment of U6 and D7, log entry 9. -/
def Obligations.ReturnFromLink : Prop :=
  ∀ (s : State) (c : Cond) (i : Bool) (rl : RegName), condHolds c s.cs = true →
    regName s.cs (csLink s.cs) = some rl →
    (rl ≠ .ip ∧ rl ≠ .sp ∧ rl ≠ .cs →
      exec (.brrl c i) s = .next ((s.withIp (s.get rl)).withCs (if i then allow s.cs true else s.cs))) ∧
    (rl = .ip ∨ rl = .sp ∨ rl = .cs → exec (.brrl c i) s = .refused .linkRegister)

/-- `brrs`: IP is the word at the top of the stack, SP moves past it, CS.i is set where `i` is set (R161, R166,
R167). A device in the place of the stack answers with a free value, and an address that holds nothing is a fault
(R63). The form of the free value is the model's choice, log entry 5. -/
def Obligations.ReturnFromStack : Prop :=
  ∀ (s : State) (c : Cond) (i : Bool), condHolds c s.cs = true →
    let cs := if i then allow s.cs true else s.cs
    (kindAt s.map s.sp = some .ram ∨ kindAt s.map s.sp = some .rom →
      exec (.brrs c i) s = .next (((s.withSp (s.sp + 1)).withIp (s.mem.readWord s.sp)).withCs cs)) ∧
    (kindAt s.map s.sp = some .device →
      exec (.brrs c i) s = .next ((((s.withDevice s.deviceWrites s.written).withSp (s.sp + 1)).withIp
        (Config.deviceAnswer s.deviceAccesses)).withCs cs)) ∧
    (kindAt s.map s.sp = none → exec (.brrs c i) s = .fault (.unmappedAddress s.sp))

/-- `brrl` does the same as `brch` with the link register as base and offset 0 (R165), but where the condition holds
and CS.l names IP, SP or CS: there it is refused, the treatment of U6 and D7, log entry 9. -/
def Obligations.ReturnFromLinkIsABranchThroughIt : Prop :=
  ∀ (s : State) (c : Cond),
    (condHolds c s.cs = false ∨ csHide s.cs = true ∨ 3 ≤ (csLink s.cs).toNat →
      exec (.brrl c false) s = exec (.brch c (csLink s.cs) 0) s) ∧
    (condHolds c s.cs = true ∧ csHide s.cs = false ∧ (csLink s.cs).toNat < 3 →
      exec (.brrl c false) s = .refused .linkRegister)

/-! ### Register transfer -/

/-- `movv`: the destination takes the widened Value shifted left, undoubled; the flags stay (R94, R170, R171). -/
def Obligations.LoadValueWritesTheShiftedValue : Prop :=
  ∀ (s : State) (c : Cond) (d : RegNum) (sh : BitVec 4) (v : BitVec 16) (rd : RegName),
    condHolds c s.cs = true → regName s.cs d = some rd →
    Writes (exec (.movv c d sh v) s) (fallThrough s) rd (value16 s.cs v <<< sh.toNat)

/-- `movr`: the destination takes the source; the flags stay (R170, R172). -/
def Obligations.MoveCopiesTheSource : Prop :=
  ∀ (s : State) (c : Cond) (d src : RegNum) (rd rs : RegName), condHolds c s.cs = true →
    regName s.cs d = some rd → regName s.cs src = some rs →
    Writes (exec (.movr c d src) s) (fallThrough s) rd (s.get rs)

/-- `swap`: each register takes the other's value as it was before; a CS that would get a page of 4 or more faults
(R170, R173). -/
def Obligations.SwapExchangesTheRegisters : Prop :=
  ∀ (s : State) (c : Cond) (d src : RegNum) (rd rs : RegName), condHolds c s.cs = true →
    regName s.cs d = some rd → regName s.cs src = some rs →
    ((rd ≠ .cs ∨ (field (s.get rs) 12 4).toNat < 4) → (rs ≠ .cs ∨ (field (s.get rd) 12 4).toNat < 4) →
      exec (.swap c d src) s = .next (((fallThrough s).set rd (s.get rs)).set rs (s.get rd))) ∧
    ((rd = .cs ∧ 4 ≤ (field (s.get rs) 12 4).toNat) ∨ (rs = .cs ∧ 4 ≤ (field (s.get rd) 12 4).toNat) →
      exec (.swap c d src) s = .fault .pageOutOfRange)

/-! ### Load and store -/

/-- `load`: the destination takes the word at base plus offset; a device answers with a free value, an address that
holds nothing is a fault (R63, R180, R181). The form of the free value is the model's choice, log entry 5. -/
def Obligations.LoadReadsTheWord : Prop :=
  ∀ (s : State) (c : Cond) (base sd : RegNum) (off : BitVec 16) (rb rd : RegName), condHolds c s.cs = true →
    regName s.cs base = some rb → regName s.cs sd = some rd →
    let a := s.get rb + off.signExtend 32
    (kindAt s.map a = some .ram ∨ kindAt s.map a = some .rom →
      Writes (exec (.load c base sd off) s) (fallThrough s) rd (s.mem.readWord a)) ∧
    (kindAt s.map a = some .device → rd ≠ .cs →
      exec (.load c base sd off) s = .next ((fallThrough (s.withDevice s.deviceWrites s.written)).set rd
        (Config.deviceAnswer s.deviceAccesses))) ∧
    (kindAt s.map a = some .device → rd = .cs →
      exec (.load c base sd off) s =
        if (field (Config.deviceAnswer s.deviceAccesses) 12 4).toNat < 4 then
          .next ((fallThrough (s.withDevice s.deviceWrites s.written)).set .cs
            (Config.deviceAnswer s.deviceAccesses))
        else .fault .pageOutOfRange) ∧
    (kindAt s.map a = none → exec (.load c base sd off) s = .fault (.unmappedAddress a))

/-- `stor`: the word at base plus offset becomes the source register; no register is written (R64, R180, R182).
Where a device is there, what the write leaves in the state is the model's choice, log entry 5. -/
def Obligations.StoreWritesTheWord : Prop :=
  ∀ (s : State) (c : Cond) (base sd : RegNum) (off : BitVec 16) (rb rs : RegName), condHolds c s.cs = true →
    regName s.cs base = some rb → regName s.cs sd = some rs →
    WritesMemory (exec (.stor c base sd off) s) s (s.get rb + off.signExtend 32) (s.get rs) fun t =>
      t.withIp (s.ip + 1)

/-- A load returns the value of the latest store to its address: a read after a write to RAM gives the value written
there and what was there before everywhere else (R63, R64, R70). -/
def Obligations.ReadsSeeTheLatestWrite : Prop :=
  ∀ (s t : State) (a b v : Word), kindAt s.map a = some .ram →
    (kindAt s.map b = some .ram ∨ kindAt s.map b = some .rom) → memWrite s a v = .ok t →
    memRead t b = .ok (if b = a then v else s.mem.readWord b, t)

/-- `push` writes below SP and moves SP there; `pop` reads at SP and moves SP up; a pop after a push gives the word
back and SP as it was, whatever CS is (R161). -/
def Obligations.PushAndPopAreAFullDescendingStack : Prop :=
  ∀ (s : State) (v : Word),
    (kindAt s.map (s.sp - 1) = some .ram →
      push s v = .ok ((storedRam s (s.sp - 1) v).withSp (s.sp - 1)) ∧
      ∃ t u, push s v = .ok t ∧ pop t = .ok (v, u) ∧ u.sp = s.sp) ∧
    (kindAt s.map s.sp = some .ram ∨ kindAt s.map s.sp = some .rom →
      pop s = .ok (s.mem.readWord s.sp, s.withSp (s.sp + 1)))

/-! ### Core instructions -/

/-- `noop`: nothing but the advance of IP, and its word with condition ALC is 0x01000000 (R151). -/
def Obligations.NoopOnlyAdvances : Prop :=
  encode (.noop .alc) = 0x01000000 ∧
  ∀ (s : State) (c : Cond), condHolds c s.cs = true → exec (.noop c) s = .next (s.withIp (s.ip + 1))

/-- `swin`: the return address is pushed, IP goes to H0 plus the ID, CS.i is cleared, whether it was set or not
(R152, R196). Where a device is there, what the write leaves in the state is the model's choice, log entry 5. -/
def Obligations.SoftwareInterruptEntersThroughH0 : Prop :=
  ∀ (s : State) (c : Cond) (v : IrqId), condHolds c s.cs = true →
    WritesMemory (exec (.swin c v) s) s (s.sp - 1) (s.ip + 1) fun t =>
      ((t.withSp (s.sp - 1)).withIp (s.paged 2 0 + v.setWidth 32)).withCs (allow s.cs false)

/-- `halt`: the core is halted with IP at the next instruction and all else as it was; its word with condition ALC
is 0x01200000; a halted core takes no step (R153). That this is a fault is the model's form of the end of the run,
log entry 11. -/
def Obligations.HaltStopsTheCore : Prop :=
  encode (.halt .alc) = 0x01200000 ∧
  (∀ (s : State) (c : Cond), condHolds c s.cs = true →
    exec (.halt c) s = .next ((s.withIp (s.ip + 1)).withHalted true)) ∧
  (∀ s : State, s.halted = true → step s = .fault .halted)

/-- `srpg`: CS.p takes SRPG_P and CS.s takes SRPG_D, every other bit of CS stays, whether or not CS.s hides CS; a page
of 4 or more is refused (R26, R154). -/
def Obligations.SetPageWritesPageAndHide : Prop :=
  ∀ (s : State) (c : Cond) (d : Bool) (p : BitVec 4), condHolds c s.cs = true →
    (p.toNat < 4 → ∃ cs, exec (.srpg c d p) s = .next ((s.withIp (s.ip + 1)).withCs cs) ∧ field cs 12 4 = p ∧
      cs.getLsbD 7 = d ∧ ∀ k, k < 32 → k ≠ 7 → ¬(12 ≤ k ∧ k < 16) → cs.getLsbD k = s.cs.getLsbD k) ∧
    (4 ≤ p.toNat → exec (.srpg c d p) s = .refused .pageOutOfRange)

/-! ### Interrupts -/

/-- The handler address is H[k] plus the zero-extended ID, modulo 2^32, and H[k] is R[2][k] whatever CS is (R194). -/
def Obligations.HandlerIsVectorPlusId : Prop :=
  ∀ (s : State) (cs : Word) (k : Priority) (id : IrqId),
    (handler s k id).toNat = ((s.paged 2 (BitVec.ofNat 4 k.number.val)).toNat + id.toNat) % 2 ^ 32 ∧
    handler (s.withCs cs) k id = handler s k id

/-- Which request is taken: none with CS.i = 0; else, of the pending ones, one that no other exceeds in priority
(R193). -/
def Obligations.TakenRequestHasTheHighestPriority : Prop :=
  ∀ s : State,
    (csAllow s.cs = false → requestToTake s = none) ∧
    (csAllow s.cs = true → s.pending = [] → requestToTake s = none) ∧
    (csAllow s.cs = true → s.pending ≠ [] →
      ∃ r ∈ s.pending, requestToTake s = some r ∧ ∀ q ∈ s.pending, q.priority.number ≤ r.priority.number)

/-- Interrupt entry at priority 0 or 1 is one step: the address of the next instruction is pushed, IP goes to the
handler, CS.i is cleared, nothing else of the core changes (R195). The replacement of the pending set and what a
device makes of the write are the model's choices, log entries 8 and 5. -/
def Obligations.InterruptEntryThroughTheStack : Prop :=
  ∀ (s : State) (r : Request), s.halted = false → requestToTake s = some r →
    (r.priority = .low ∨ r.priority = .medium) →
    let u := s.withRequests (s.schedule.headD []) s.schedule.tail
    WritesMemory (step s) u (s.sp - 1) s.ip fun t =>
      ((t.withSp (s.sp - 1)).withIp (s.paged 2 (if r.priority = .low then 0 else 1) + r.id.setWidth 32)).withCs
        (allow s.cs false)

/-- Interrupt entry at priority 2 or 3 is one step: the address of the next instruction goes to the link register,
IP to the handler, CS.i is cleared, nothing else of the core changes; a link register that is IP, SP or CS is a
fault (R32, R195). The replacement of the pending set and the fault are the model's, log entries 8 and 13. -/
def Obligations.InterruptEntryThroughTheLink : Prop :=
  ∀ (s : State) (r : Request) (rl : RegName), s.halted = false → requestToTake s = some r →
    (r.priority = .high ∨ r.priority = .extreme) → regName s.cs (csLink s.cs) = some rl →
    let u := s.withRequests (s.schedule.headD []) s.schedule.tail
    (rl ≠ .ip ∧ rl ≠ .sp ∧ rl ≠ .cs →
      step s = .next (((u.set rl s.ip).withIp
        (s.paged 2 (if r.priority = .high then 2 else 3) + r.id.setWidth 32)).withCs (allow s.cs false))) ∧
    (rl = .ip ∨ rl = .sp ∨ rl = .cs → step s = .fault .linkRegister)

/-- With CS.i = 0 a step does not depend on which requests are pending (R193, R197). That the pending set is data of
the state is the model's choice, log entry 8. -/
def Obligations.MaskedRequestsDoNotMatter : Prop :=
  ∀ (s : State) (p q : List Request), csAllow s.cs = false →
    step (s.withRequests p s.schedule) = step (s.withRequests q s.schedule)

/-- The return undoes the entry: after an entry through the stack `brrs i`, after one through the link register
`brrl i`, resumes at the saved address with CS.i set and every other bit of CS and every register as before the
entry, but for the link register that holds the address (R199). -/
def Obligations.ReturnUndoesTheEntry : Prop :=
  ∀ (s : State) (k : Priority) (id : IrqId) (ret : Word),
    ((k = .low ∨ k = .medium) → kindAt s.map (s.sp - 1) = some .ram →
      ∃ t u, takeInterrupt k id ret s = .next t ∧ exec (.brrs .alc true) t = .next u ∧ u.ip = ret ∧
        u.cs = allow s.cs true ∧ u.sp = s.sp ∧ u.gl = s.gl ∧ u.regs = s.regs) ∧
    (∀ rl, (k = .high ∨ k = .extreme) → regName s.cs (csLink s.cs) = some rl →
      rl ≠ .ip ∧ rl ≠ .sp ∧ rl ≠ .cs →
      ∃ t u, takeInterrupt k id ret s = .next t ∧ exec (.brrl .alc true) t = .next u ∧ u.ip = ret ∧
        u.cs = allow s.cs true ∧ u.get rl = ret ∧ u.mem = s.mem ∧
        ∀ r, r ≠ rl → r ≠ .ip → r ≠ .cs → u.get r = s.get r)

/-! ### Frames over all instructions -/

/-- Memory: an instruction that stores nothing leaves every byte; one that stores leaves every byte outside the four
of the word at the address its meaning computes (R61, R62). -/
def Obligations.InstructionsStoreAtMostOneWord : Prop :=
  ∀ (i : Instr) (s t : State), exec i s = .next t →
    (storeAddress i s = none → ∀ n, t.mem.readByte n = s.mem.readByte n) ∧
    (∀ a, storeAddress i s = some a → ∀ n, ¬(4 * a.toNat ≤ n ∧ n < 4 * a.toNat + 4) →
      t.mem.readByte n = s.mem.readByte n)

/-- Registers: an instruction leaves every register but IP, CS and those it writes: its destinations, the link register
of `brsl`, SP where it pushes or pops (R29, R37). -/
def Obligations.InstructionsLeaveOtherRegisters : Prop :=
  ∀ (i : Instr) (s t : State) (r : RegName), exec i s = .next t → r ∉ destinations i s → r ≠ .ip →
    r ≠ .cs → t.get r = s.get r

/-- CS: an instruction that does not write CS as a register leaves every bit of CS but those the spec names for it:
the flags of its ALU operation, CS.i for a branch with `i` and for `swin`, CS.p and CS.s for `srpg` (R37, R121, R154,
R167, R196). -/
def Obligations.InstructionsLeaveOtherCsBits : Prop :=
  ∀ (i : Instr) (s t : State), exec i s = .next t → RegName.cs ∉ destinations i s →
    t.cs &&& ~~~csBits i = s.cs &&& ~~~csBits i

/-- The rest: `halt` alone sets `halted` and nothing clears it (R42, R153); the pending requests are the platform's
and no instruction changes them (R42); nothing is sent to a device by an instruction that stores nothing. That no
instruction, a store to a device among them, changes `MEM_MAP`, `IFETCH_COHERENT` or the schedule, and the record of
what was written and sent, are the model's choices, log entries 19, 6, 8 and 5. -/
def Obligations.InstructionsLeaveThePlatform : Prop :=
  ∀ (i : Instr) (s t : State), exec i s = .next t →
    t.map = s.map ∧ t.ifetchCoherent = s.ifetchCoherent ∧ t.pending = s.pending ∧ t.schedule = s.schedule ∧
    ((∀ c, i ≠ .halt c) → t.halted = s.halted) ∧ (s.halted = true → t.halted = true) ∧
    (storeAddress i s = none → t.deviceWrites = s.deviceWrites ∧ t.written = s.written)

/-! ### Rules over the whole machine -/

/-- An instruction neither reads nor writes a register of a page that is not selected, but for the vector H0 that
`swin` reads: with another value in that register it does the same (R25). -/
def Obligations.InstructionsIgnoreOtherPages : Prop :=
  ∀ (i : Instr) (s : State) (q : Fin 4) (k : RegNum) (v : Word), (csPage s.cs).toNat ≠ q.val →
    ((∃ c id, i = .swin c id) → ¬(q = 2 ∧ k = 0)) →
    exec i (s.withPaged q k v) = mapNext (fun t => t.withPaged q k v) (exec i s)

/-- While CS.s = 1 only `srpg` can change CS.p or CS.s: a step that changes either has executed a word that decodes
to `srpg` (R47, R222). -/
def Obligations.WhileHiddenOnlySrpgChangesThePage : Prop :=
  ∀ s t : State, step s = .next t → csHide s.cs = true →
    (csHide t.cs = false ∨ csPage t.cs ≠ csPage s.cs) →
    ∃ w u c d p, requestToTake s = none ∧ fetch (nextBoundary s) = .next (w, u) ∧
      decodeWord w = .ok (.srpg c d p)

/-- However long the machine runs, `MEM_MAP` stays and every word that is not in RAM keeps what it held (R63, R64).
That `MEM_MAP` stays, and that the core alone changes memory, are the model's choices, log entries 17 and 19. -/
def Obligations.RunsChangeRamAlone : Prop :=
  ∀ s t : State, Reaches s t →
    t.map = s.map ∧ ∀ a, kindAt s.map a ≠ some .ram → t.mem.readWord a = s.mem.readWord a
end

