-- ==== Sys2Proof/Laws/Encoding.lean ====
section
/-! SUPPORT. The fields of an encoded word are the fields it was made from, format by format (R82 to R88, R103). -/

namespace Sys2Proof

@[simp] theorem decodeCond_code (c : Cond) : decodeCond c.code = some c := by cases c <;> rfl

section
variable (c : Cond) (fmt d a x : BitVec 4) (v : BitVec 8) (op : BitVec 4)

@[simp] theorem wordALU_cond : field (wordALU c fmt d a x v op) 28 4 = c.code := by
  ext i hi; unfold field wordALU place; interval_cases i <;> simp
@[simp] theorem wordALU_fmt : field (wordALU c fmt d a x v op) 24 4 = fmt := by
  ext i hi; unfold field wordALU place; interval_cases i <;> simp
@[simp] theorem wordALU_d : field (wordALU c fmt d a x v op) 20 4 = d := by
  ext i hi; unfold field wordALU place; interval_cases i <;> simp
@[simp] theorem wordALU_a : field (wordALU c fmt d a x v op) 16 4 = a := by
  ext i hi; unfold field wordALU place; interval_cases i <;> simp
@[simp] theorem wordALU_x : field (wordALU c fmt d a x v op) 12 4 = x := by
  ext i hi; unfold field wordALU place; interval_cases i <;> simp
@[simp] theorem wordALU_v : field (wordALU c fmt d a x v op) 4 8 = v := by
  ext i hi; unfold field wordALU place; interval_cases i <;> simp
@[simp] theorem wordALU_op : field (wordALU c fmt d a x v op) 0 4 = op := by
  ext i hi; unfold field wordALU place; interval_cases i <;> simp

end

section
variable (c : Cond) (r s l : Bool) (base : RegNum) (i : Bool) (off : BitVec 19)

@[simp] theorem wordBR_cond : field (wordBR c r s l base i off) 28 4 = c.code := by
  ext j hj; unfold field wordBR place; interval_cases j <;> simp
@[simp] theorem wordBR_fmt : field (wordBR c r s l base i off) 24 4 =
    (BitVec.ofBool l).setWidth 4 ||| (BitVec.ofBool s).setWidth 4 <<< 1 ||| (BitVec.ofBool r).setWidth 4 <<< 2 |||
      0x8#4 := by
  ext j hj; unfold field wordBR place; interval_cases j <;> simp
@[simp] theorem wordBR_r : (wordBR c r s l base i off).getLsbD 26 = r := by simp [wordBR, place]
@[simp] theorem wordBR_s : (wordBR c r s l base i off).getLsbD 25 = s := by simp [wordBR, place]
@[simp] theorem wordBR_l : (wordBR c r s l base i off).getLsbD 24 = l := by simp [wordBR, place]
@[simp] theorem wordBR_i : (wordBR c r s l base i off).getLsbD 19 = i := by simp [wordBR, place]
@[simp] theorem wordBR_base : field (wordBR c r s l base i off) 20 4 = base := by
  ext j hj; unfold field wordBR place; interval_cases j <;> simp
@[simp] theorem wordBR_off : field (wordBR c r s l base i off) 0 19 = off := by
  ext j hj; unfold field wordBR place; interval_cases j <;> simp

end

section
variable (c : Cond) (fmt x y : BitVec 4) (low : BitVec 16)

@[simp] theorem wordWide_cond : field (wordWide c fmt x y low) 28 4 = c.code := by
  ext i hi; unfold field wordWide place; interval_cases i <;> simp
@[simp] theorem wordWide_fmt : field (wordWide c fmt x y low) 24 4 = fmt := by
  ext i hi; unfold field wordWide place; interval_cases i <;> simp
@[simp] theorem wordWide_x : field (wordWide c fmt x y low) 20 4 = x := by
  ext i hi; unfold field wordWide place; interval_cases i <;> simp
@[simp] theorem wordWide_y : field (wordWide c fmt x y low) 16 4 = y := by
  ext i hi; unfold field wordWide place; interval_cases i <;> simp
@[simp] theorem wordWide_low : field (wordWide c fmt x y low) 0 16 = low := by
  ext i hi; unfold field wordWide place; interval_cases i <;> simp

end

section
variable (c : Cond) (d src : RegNum) (w : Bool)

@[simp] theorem wordMOV_cond : field (wordMOV c d src w) 28 4 = c.code := by
  ext i hi; unfold field wordMOV place; interval_cases i <;> simp
@[simp] theorem wordMOV_fmt : field (wordMOV c d src w) 24 4 = 0x4#4 := by
  ext i hi; unfold field wordMOV place; interval_cases i <;> simp
@[simp] theorem wordMOV_d : field (wordMOV c d src w) 20 4 = d := by
  ext i hi; unfold field wordMOV place; interval_cases i <;> simp
@[simp] theorem wordMOV_src : field (wordMOV c d src w) 16 4 = src := by
  ext i hi; unfold field wordMOV place; interval_cases i <;> simp
@[simp] theorem wordMOV_w : (wordMOV c d src w).getLsbD 15 = w := by simp [wordMOV, place]
@[simp] theorem wordMOV_low : field (wordMOV c d src w) 0 15 = 0#15 := by
  ext i hi; unfold field wordMOV place; interval_cases i <;> simp

end

section
variable (c : Cond) (op : BitVec 4) (data : BitVec 20)

@[simp] theorem wordCORE_cond : field (wordCORE c op data) 28 4 = c.code := by
  ext i hi; unfold field wordCORE place; interval_cases i <;> simp
@[simp] theorem wordCORE_fmt : field (wordCORE c op data) 24 4 = 0x1#4 := by
  ext i hi; unfold field wordCORE place; interval_cases i <;> simp
@[simp] theorem wordCORE_op : field (wordCORE c op data) 20 4 = op := by
  ext i hi; unfold field wordCORE place; interval_cases i <;> simp
@[simp] theorem wordCORE_data : field (wordCORE c op data) 0 20 = data := by
  ext i hi; unfold field wordCORE place; interval_cases i <;> simp

end

/-- The Data field of `srpg` gives its two subfields back (R89). -/
theorem srpgData_fields (d : Bool) (p : BitVec 4) :
    (srpgData d p).getLsbD Config.srpgDBit = d ∧ (srpgData d p).extractLsb' 0 4 = p := by
  revert d p
  decide

end Sys2Proof
end

