-- ==== Sys2Proof/Laws/Memory.lean ====
section
/-! SUPPORT. The laws of memory: a read after a write, of a byte and of a word; the canonical form is kept; and the
same for the record of written words. None but the canonical form needs a premise on the memory. -/

namespace Sys2Proof.Machine

/-! ### One byte -/

theorem Memory.readByte_erase (m : Memory) (n k : Nat) :
    (m.erase n).readByte k = if k = n then Config.unlistedByte else m.readByte k := by
  induction m with
  | nil => simp [Memory.erase, Memory.readByte]
  | cons c rest ih =>
    obtain ⟨j, b⟩ := c
    by_cases hj : j = n
    · have he : Memory.erase ((j, b) :: rest) n = Memory.erase rest n := by simp [Memory.erase, hj]
      rw [he, ih]
      by_cases hk : k = n
      · simp [hk]
      · rw [if_neg hk, if_neg hk, Memory.readByte, if_neg (by omega)]
    · have he : Memory.erase ((j, b) :: rest) n = (j, b) :: Memory.erase rest n := by simp [Memory.erase, hj]
      rw [he, Memory.readByte, Memory.readByte, ih]
      by_cases hjk : j = k
      · simp [hjk, show k ≠ n by omega]
      · simp [hjk]

theorem Memory.readByte_insert (m : Memory) (n k : Nat) (v : BitVec 8) (h : ∀ c ∈ m, c.1 ≠ n) :
    (m.insert n v).readByte k = if k = n then v else m.readByte k := by
  induction m with
  | nil =>
    by_cases hk : k = n
    · simp [Memory.insert, Memory.readByte, hk]
    · simp [Memory.insert, Memory.readByte, hk, Ne.symm hk]
  | cons c rest ih =>
    obtain ⟨j, b⟩ := c
    have hj : j ≠ n := h (j, b) List.mem_cons_self
    have hr := ih fun c hc => h c (List.mem_cons_of_mem _ hc)
    unfold Memory.insert
    split
    · by_cases hk : k = n
      · simp [Memory.readByte, hk]
      · simp [Memory.readByte, hk, Ne.symm hk]
    · rw [Memory.readByte, Memory.readByte, hr]
      by_cases hjk : j = k
      · simp [hjk, show k ≠ n by omega]
      · simp [hjk]

/-- A byte read after a byte was written. -/
theorem Memory.readByte_writeByte (m : Memory) (n k : Nat) (v : BitVec 8) :
    (m.writeByte n v).readByte k = if k = n then v else m.readByte k := by
  unfold Memory.writeByte
  split
  · rename_i hv
    rw [Memory.readByte_erase, hv]
  · rw [Memory.readByte_insert _ _ _ _ (by simp [Memory.erase]), Memory.readByte_erase]
    by_cases hk : k = n <;> simp [hk]

/-! ### One word -/

/-- The byte that a write of `v` at word address `a` leaves at byte `k` of the image. -/
theorem Memory.readByte_writeWord (m : Memory) (a v : Word) (k : Nat) :
    (m.writeWord a v).readByte k =
      if byteBase a ≤ k ∧ k < byteBase a + 4 then byteOfWord v (k - byteBase a) else m.readByte k := by
  unfold Memory.writeWord
  simp only [Memory.readByte_writeByte]
  by_cases h : byteBase a ≤ k ∧ k < byteBase a + 4
  · rw [if_pos h]
    obtain ⟨j, rfl⟩ : ∃ j, k = byteBase a + j := ⟨k - byteBase a, by omega⟩
    have hj : j < 4 := by omega
    interval_cases j <;> simp
  · rw [if_neg h, if_neg (by omega), if_neg (by omega), if_neg (by omega), if_neg (by omega)]

/-- The bytes of a word make the word again. -/
theorem wordOfBytes_byteOfWord (v : Word) :
    wordOfBytes (byteOfWord v 0) (byteOfWord v 1) (byteOfWord v 2) (byteOfWord v 3) = v := by
  apply BitVec.eq_of_getLsbD_eq
  intro i hi
  interval_cases i <;> simp [wordOfBytes, byteOfWord, Config.hostImageEndian, place]

/-- A word read where it was written. -/
@[simp] theorem Memory.readWord_writeWord_same (m : Memory) (a v : Word) :
    (m.writeWord a v).readWord a = v := by
  simp [Memory.readWord, Memory.readByte_writeWord, wordOfBytes_byteOfWord]

/-- A word read elsewhere. -/
theorem Memory.readWord_writeWord_other (m : Memory) (a b v : Word) (h : b ≠ a) :
    (m.writeWord a v).readWord b = m.readWord b := by
  have hn : b.toNat ≠ a.toNat := fun e => h (BitVec.eq_of_toNat_eq e)
  have hb : byteBase b + 4 ≤ byteBase a ∨ byteBase a + 4 ≤ byteBase b := by
    unfold byteBase
    omega
  simp only [Memory.readWord, Memory.readByte_writeWord]
  rw [if_neg (by omega), if_neg (by omega), if_neg (by omega), if_neg (by omega)]

theorem Memory.readWord_writeWord (m : Memory) (a b v : Word) :
    (m.writeWord a v).readWord b = if b = a then v else m.readWord b := by
  by_cases h : b = a
  · simp [h]
  · simp [h, Memory.readWord_writeWord_other m a b v h]

/-! ### The canonical form -/

theorem Memory.erase_wf (m : Memory) (n : Nat) (h : m.wf) : (m.erase n).wf :=
  ⟨h.1.filter _, fun c hc => h.2 c (List.mem_filter.mp hc).1⟩

theorem Memory.mem_insert (m : Memory) (n : Nat) (v : BitVec 8) (c : Host.Cell) :
    c ∈ m.insert n v ↔ c = (n, v) ∨ c ∈ m := by
  induction m with
  | nil => simp [Memory.insert]
  | cons d rest ih =>
    obtain ⟨k, b⟩ := d
    unfold Memory.insert
    split
    · simp
    · simp only [List.mem_cons, ih]
      tauto

theorem Memory.insert_sorted (m : Memory) (n : Nat) (v : BitVec 8)
    (h : m.Pairwise fun x y => x.1 < y.1) (hn : ∀ c ∈ m, c.1 ≠ n) :
    (m.insert n v).Pairwise fun x y => x.1 < y.1 := by
  induction m with
  | nil => simp [Memory.insert]
  | cons d rest ih =>
    obtain ⟨k, b⟩ := d
    rw [List.pairwise_cons] at h
    unfold Memory.insert
    split
    · rename_i hk
      refine List.pairwise_cons.mpr ⟨fun c hc => ?_, List.pairwise_cons.mpr h⟩
      rcases List.mem_cons.mp hc with rfl | hc
      · exact hk
      · exact lt_trans hk (h.1 c hc)
    · have hkn : k ≠ n := hn (k, b) List.mem_cons_self
      refine List.pairwise_cons.mpr ⟨fun c hc => ?_, ih h.2 fun c hc => hn c (List.mem_cons_of_mem _ hc)⟩
      rcases (Memory.mem_insert rest n v c).mp hc with rfl | hc
      · show k < n
        omega
      · exact h.1 c hc

/-- A write of a byte of the address space keeps the canonical form. -/
theorem Memory.writeByte_wf (m : Memory) (n : Nat) (v : BitVec 8) (h : m.wf) (hn : n < 4 * 2 ^ 32) :
    (m.writeByte n v).wf := by
  have he := Memory.erase_wf m n h
  unfold Memory.writeByte
  split
  · exact he
  · rename_i hv
    refine ⟨Memory.insert_sorted _ _ _ he.1 (by simp [Memory.erase]), fun c hc => ?_⟩
    rcases (Memory.mem_insert _ n v c).mp hc with rfl | hc
    · exact ⟨hn, hv⟩
    · exact he.2 c hc

/-- A write of a word keeps the canonical form. -/
theorem Memory.writeWord_wf (m : Memory) (a v : Word) (h : m.wf) : (m.writeWord a v).wf := by
  have ha := a.isLt
  unfold Memory.writeWord byteBase
  refine Memory.writeByte_wf _ _ _ (Memory.writeByte_wf _ _ _ (Memory.writeByte_wf _ _ _
    (Memory.writeByte_wf _ _ _ h ?_) ?_) ?_) ?_ <;> omega

/-! ### The record of written words -/

theorem mem_addWritten (l : List Nat) (a k : Nat) : k ∈ addWritten l a ↔ k = a ∨ k ∈ l := by
  induction l with
  | nil => simp [addWritten]
  | cons j rest ih =>
    unfold addWritten
    split
    · simp
    · split
      · rename_i h
        simp [h]
      · simp only [List.mem_cons, ih]
        tauto

theorem addWritten_sorted (l : List Nat) (a : Nat) (h : l.Pairwise (· < ·)) :
    (addWritten l a).Pairwise (· < ·) := by
  induction l with
  | nil => simp [addWritten]
  | cons j rest ih =>
    have hp := List.pairwise_cons.mp h
    unfold addWritten
    split
    · rename_i hj
      refine List.pairwise_cons.mpr ⟨fun k hk => ?_, h⟩
      rcases List.mem_cons.mp hk with rfl | hk
      · exact hj
      · exact lt_trans hj (hp.1 k hk)
    · split
      · exact h
      · refine List.pairwise_cons.mpr ⟨fun k hk => ?_, ih hp.2⟩
        rcases (mem_addWritten rest a k).mp hk with rfl | hk
        · omega
        · exact hp.1 k hk

end Sys2Proof.Machine
end

