-- ==== Sys2Proof/Laws/State.lean ====
section
/-! SUPPORT. One lemma per field of State per named update, and the register file's read after a write; with these
no proof unfolds a record update. -/

namespace Sys2Proof.Machine.State

/-! ### withPaged -/

section
variable (s : State) (p : Fin 4) (n : RegNum) (v : Word)

@[simp] theorem withPaged_regs : (s.withPaged p n v).regs = s.regs.set (slot p n).val v (slot p n).isLt := rfl
@[simp] theorem withPaged_ip : (s.withPaged p n v).ip = s.ip := rfl
@[simp] theorem withPaged_sp : (s.withPaged p n v).sp = s.sp := rfl
@[simp] theorem withPaged_cs : (s.withPaged p n v).cs = s.cs := rfl
@[simp] theorem withPaged_gl : (s.withPaged p n v).gl = s.gl := rfl
@[simp] theorem withPaged_halted : (s.withPaged p n v).halted = s.halted := rfl
@[simp] theorem withPaged_mem : (s.withPaged p n v).mem = s.mem := rfl
@[simp] theorem withPaged_pending : (s.withPaged p n v).pending = s.pending := rfl
@[simp] theorem withPaged_schedule : (s.withPaged p n v).schedule = s.schedule := rfl
@[simp] theorem withPaged_map : (s.withPaged p n v).map = s.map := rfl
@[simp] theorem withPaged_ifetchCoherent : (s.withPaged p n v).ifetchCoherent = s.ifetchCoherent := rfl
@[simp] theorem withPaged_written : (s.withPaged p n v).written = s.written := rfl
@[simp] theorem withPaged_deviceAccesses : (s.withPaged p n v).deviceAccesses = s.deviceAccesses := rfl
@[simp] theorem withPaged_deviceWrites : (s.withPaged p n v).deviceWrites = s.deviceWrites := rfl

end

/-! ### withIp -/

section
variable (s : State) (v : Word)

@[simp] theorem withIp_regs : (s.withIp v).regs = s.regs := rfl
@[simp] theorem withIp_ip : (s.withIp v).ip = v := rfl
@[simp] theorem withIp_sp : (s.withIp v).sp = s.sp := rfl
@[simp] theorem withIp_cs : (s.withIp v).cs = s.cs := rfl
@[simp] theorem withIp_gl : (s.withIp v).gl = s.gl := rfl
@[simp] theorem withIp_halted : (s.withIp v).halted = s.halted := rfl
@[simp] theorem withIp_mem : (s.withIp v).mem = s.mem := rfl
@[simp] theorem withIp_pending : (s.withIp v).pending = s.pending := rfl
@[simp] theorem withIp_schedule : (s.withIp v).schedule = s.schedule := rfl
@[simp] theorem withIp_map : (s.withIp v).map = s.map := rfl
@[simp] theorem withIp_ifetchCoherent : (s.withIp v).ifetchCoherent = s.ifetchCoherent := rfl
@[simp] theorem withIp_written : (s.withIp v).written = s.written := rfl
@[simp] theorem withIp_deviceAccesses : (s.withIp v).deviceAccesses = s.deviceAccesses := rfl
@[simp] theorem withIp_deviceWrites : (s.withIp v).deviceWrites = s.deviceWrites := rfl
@[simp] theorem withIp_paged (q : Fin 4) (k : RegNum) : (s.withIp v).paged q k = s.paged q k := rfl

end

/-! ### withSp -/

section
variable (s : State) (v : Word)

@[simp] theorem withSp_regs : (s.withSp v).regs = s.regs := rfl
@[simp] theorem withSp_ip : (s.withSp v).ip = s.ip := rfl
@[simp] theorem withSp_sp : (s.withSp v).sp = v := rfl
@[simp] theorem withSp_cs : (s.withSp v).cs = s.cs := rfl
@[simp] theorem withSp_gl : (s.withSp v).gl = s.gl := rfl
@[simp] theorem withSp_halted : (s.withSp v).halted = s.halted := rfl
@[simp] theorem withSp_mem : (s.withSp v).mem = s.mem := rfl
@[simp] theorem withSp_pending : (s.withSp v).pending = s.pending := rfl
@[simp] theorem withSp_schedule : (s.withSp v).schedule = s.schedule := rfl
@[simp] theorem withSp_map : (s.withSp v).map = s.map := rfl
@[simp] theorem withSp_ifetchCoherent : (s.withSp v).ifetchCoherent = s.ifetchCoherent := rfl
@[simp] theorem withSp_written : (s.withSp v).written = s.written := rfl
@[simp] theorem withSp_deviceAccesses : (s.withSp v).deviceAccesses = s.deviceAccesses := rfl
@[simp] theorem withSp_deviceWrites : (s.withSp v).deviceWrites = s.deviceWrites := rfl
@[simp] theorem withSp_paged (q : Fin 4) (k : RegNum) : (s.withSp v).paged q k = s.paged q k := rfl

end

/-! ### withCs -/

section
variable (s : State) (v : Word)

@[simp] theorem withCs_regs : (s.withCs v).regs = s.regs := rfl
@[simp] theorem withCs_ip : (s.withCs v).ip = s.ip := rfl
@[simp] theorem withCs_sp : (s.withCs v).sp = s.sp := rfl
@[simp] theorem withCs_cs : (s.withCs v).cs = v := rfl
@[simp] theorem withCs_gl : (s.withCs v).gl = s.gl := rfl
@[simp] theorem withCs_halted : (s.withCs v).halted = s.halted := rfl
@[simp] theorem withCs_mem : (s.withCs v).mem = s.mem := rfl
@[simp] theorem withCs_pending : (s.withCs v).pending = s.pending := rfl
@[simp] theorem withCs_schedule : (s.withCs v).schedule = s.schedule := rfl
@[simp] theorem withCs_map : (s.withCs v).map = s.map := rfl
@[simp] theorem withCs_ifetchCoherent : (s.withCs v).ifetchCoherent = s.ifetchCoherent := rfl
@[simp] theorem withCs_written : (s.withCs v).written = s.written := rfl
@[simp] theorem withCs_deviceAccesses : (s.withCs v).deviceAccesses = s.deviceAccesses := rfl
@[simp] theorem withCs_deviceWrites : (s.withCs v).deviceWrites = s.deviceWrites := rfl
@[simp] theorem withCs_paged (q : Fin 4) (k : RegNum) : (s.withCs v).paged q k = s.paged q k := rfl

end

/-! ### withGl -/

section
variable (s : State) (v : Word)

@[simp] theorem withGl_regs : (s.withGl v).regs = s.regs := rfl
@[simp] theorem withGl_ip : (s.withGl v).ip = s.ip := rfl
@[simp] theorem withGl_sp : (s.withGl v).sp = s.sp := rfl
@[simp] theorem withGl_cs : (s.withGl v).cs = s.cs := rfl
@[simp] theorem withGl_gl : (s.withGl v).gl = v := rfl
@[simp] theorem withGl_halted : (s.withGl v).halted = s.halted := rfl
@[simp] theorem withGl_mem : (s.withGl v).mem = s.mem := rfl
@[simp] theorem withGl_pending : (s.withGl v).pending = s.pending := rfl
@[simp] theorem withGl_schedule : (s.withGl v).schedule = s.schedule := rfl
@[simp] theorem withGl_map : (s.withGl v).map = s.map := rfl
@[simp] theorem withGl_ifetchCoherent : (s.withGl v).ifetchCoherent = s.ifetchCoherent := rfl
@[simp] theorem withGl_written : (s.withGl v).written = s.written := rfl
@[simp] theorem withGl_deviceAccesses : (s.withGl v).deviceAccesses = s.deviceAccesses := rfl
@[simp] theorem withGl_deviceWrites : (s.withGl v).deviceWrites = s.deviceWrites := rfl
@[simp] theorem withGl_paged (q : Fin 4) (k : RegNum) : (s.withGl v).paged q k = s.paged q k := rfl

end

/-! ### withHalted -/

section
variable (s : State) (b : Bool)

@[simp] theorem withHalted_regs : (s.withHalted b).regs = s.regs := rfl
@[simp] theorem withHalted_ip : (s.withHalted b).ip = s.ip := rfl
@[simp] theorem withHalted_sp : (s.withHalted b).sp = s.sp := rfl
@[simp] theorem withHalted_cs : (s.withHalted b).cs = s.cs := rfl
@[simp] theorem withHalted_gl : (s.withHalted b).gl = s.gl := rfl
@[simp] theorem withHalted_halted : (s.withHalted b).halted = b := rfl
@[simp] theorem withHalted_mem : (s.withHalted b).mem = s.mem := rfl
@[simp] theorem withHalted_pending : (s.withHalted b).pending = s.pending := rfl
@[simp] theorem withHalted_schedule : (s.withHalted b).schedule = s.schedule := rfl
@[simp] theorem withHalted_map : (s.withHalted b).map = s.map := rfl
@[simp] theorem withHalted_ifetchCoherent : (s.withHalted b).ifetchCoherent = s.ifetchCoherent := rfl
@[simp] theorem withHalted_written : (s.withHalted b).written = s.written := rfl
@[simp] theorem withHalted_deviceAccesses : (s.withHalted b).deviceAccesses = s.deviceAccesses := rfl
@[simp] theorem withHalted_deviceWrites : (s.withHalted b).deviceWrites = s.deviceWrites := rfl
@[simp] theorem withHalted_paged (q : Fin 4) (k : RegNum) : (s.withHalted b).paged q k = s.paged q k := rfl

end

/-! ### withMem -/

section
variable (s : State) (m : Memory) (w : List Nat)

@[simp] theorem withMem_regs : (s.withMem m w).regs = s.regs := rfl
@[simp] theorem withMem_ip : (s.withMem m w).ip = s.ip := rfl
@[simp] theorem withMem_sp : (s.withMem m w).sp = s.sp := rfl
@[simp] theorem withMem_cs : (s.withMem m w).cs = s.cs := rfl
@[simp] theorem withMem_gl : (s.withMem m w).gl = s.gl := rfl
@[simp] theorem withMem_halted : (s.withMem m w).halted = s.halted := rfl
@[simp] theorem withMem_mem : (s.withMem m w).mem = m := rfl
@[simp] theorem withMem_pending : (s.withMem m w).pending = s.pending := rfl
@[simp] theorem withMem_schedule : (s.withMem m w).schedule = s.schedule := rfl
@[simp] theorem withMem_map : (s.withMem m w).map = s.map := rfl
@[simp] theorem withMem_ifetchCoherent : (s.withMem m w).ifetchCoherent = s.ifetchCoherent := rfl
@[simp] theorem withMem_written : (s.withMem m w).written = w := rfl
@[simp] theorem withMem_deviceAccesses : (s.withMem m w).deviceAccesses = s.deviceAccesses := rfl
@[simp] theorem withMem_deviceWrites : (s.withMem m w).deviceWrites = s.deviceWrites := rfl
@[simp] theorem withMem_paged (q : Fin 4) (k : RegNum) : (s.withMem m w).paged q k = s.paged q k := rfl

end

/-! ### withDevice -/

section
variable (s : State) (out : List (Word × Word)) (w : List Nat)

@[simp] theorem withDevice_regs : (s.withDevice out w).regs = s.regs := rfl
@[simp] theorem withDevice_ip : (s.withDevice out w).ip = s.ip := rfl
@[simp] theorem withDevice_sp : (s.withDevice out w).sp = s.sp := rfl
@[simp] theorem withDevice_cs : (s.withDevice out w).cs = s.cs := rfl
@[simp] theorem withDevice_gl : (s.withDevice out w).gl = s.gl := rfl
@[simp] theorem withDevice_halted : (s.withDevice out w).halted = s.halted := rfl
@[simp] theorem withDevice_mem : (s.withDevice out w).mem = s.mem := rfl
@[simp] theorem withDevice_pending : (s.withDevice out w).pending = s.pending := rfl
@[simp] theorem withDevice_schedule : (s.withDevice out w).schedule = s.schedule := rfl
@[simp] theorem withDevice_map : (s.withDevice out w).map = s.map := rfl
@[simp] theorem withDevice_ifetchCoherent : (s.withDevice out w).ifetchCoherent = s.ifetchCoherent := rfl
@[simp] theorem withDevice_written : (s.withDevice out w).written = w := rfl
@[simp] theorem withDevice_deviceAccesses : (s.withDevice out w).deviceAccesses = s.deviceAccesses + 1 := rfl
@[simp] theorem withDevice_deviceWrites : (s.withDevice out w).deviceWrites = out := rfl
@[simp] theorem withDevice_paged (q : Fin 4) (k : RegNum) : (s.withDevice out w).paged q k = s.paged q k := rfl

end

/-! ### withRequests -/

section
variable (s : State) (now : List Request) (later : List (List Request))

@[simp] theorem withRequests_regs : (s.withRequests now later).regs = s.regs := rfl
@[simp] theorem withRequests_ip : (s.withRequests now later).ip = s.ip := rfl
@[simp] theorem withRequests_sp : (s.withRequests now later).sp = s.sp := rfl
@[simp] theorem withRequests_cs : (s.withRequests now later).cs = s.cs := rfl
@[simp] theorem withRequests_gl : (s.withRequests now later).gl = s.gl := rfl
@[simp] theorem withRequests_halted : (s.withRequests now later).halted = s.halted := rfl
@[simp] theorem withRequests_mem : (s.withRequests now later).mem = s.mem := rfl
@[simp] theorem withRequests_pending : (s.withRequests now later).pending = now := rfl
@[simp] theorem withRequests_schedule : (s.withRequests now later).schedule = later := rfl
@[simp] theorem withRequests_map : (s.withRequests now later).map = s.map := rfl
@[simp] theorem withRequests_ifetchCoherent : (s.withRequests now later).ifetchCoherent = s.ifetchCoherent := rfl
@[simp] theorem withRequests_written : (s.withRequests now later).written = s.written := rfl
@[simp] theorem withRequests_deviceAccesses : (s.withRequests now later).deviceAccesses = s.deviceAccesses := rfl
@[simp] theorem withRequests_deviceWrites : (s.withRequests now later).deviceWrites = s.deviceWrites := rfl
@[simp] theorem withRequests_paged (q : Fin 4) (k : RegNum) : (s.withRequests now later).paged q k = s.paged q k := rfl

end

end Sys2Proof.Machine.State

namespace Sys2Proof.Machine

/-! ### The register file -/

/-- Two registers of the file share a slot only if they are the same register. -/
theorem slot_eq_iff (p q : Fin 4) (n k : RegNum) : (slot p n).val = (slot q k).val ↔ p = q ∧ n = k := by
  constructor
  · intro h
    have h1 : 16 * p.val + n.toNat = 16 * q.val + k.toNat := h
    have hn := n.isLt
    have hk := k.isLt
    exact ⟨Fin.ext (by omega), BitVec.eq_of_toNat_eq (by omega)⟩
  · rintro ⟨rfl, rfl⟩
    rfl

/-- Reading a paged register after writing one (R20). -/
theorem State.withPaged_paged (s : State) (p q : Fin 4) (n k : RegNum) (v : Word) :
    (s.withPaged p n v).paged q k = if p = q ∧ n = k then v else s.paged q k := by
  have h := slot_eq_iff p q n k
  unfold State.paged State.withPaged
  simp only [Vector.get_eq_getElem, Vector.getElem_set]
  by_cases hs : (slot p n).val = (slot q k).val
  · rw [if_pos hs, if_pos (h.mp hs)]
  · rw [if_neg hs, if_neg (fun hc => hs (h.mpr hc))]

@[simp] theorem State.withPaged_paged_same (s : State) (p : Fin 4) (n : RegNum) (v : Word) :
    (s.withPaged p n v).paged p n = v := by simp [State.withPaged_paged]

/-! ### advance -/

section
variable (s : State)

@[simp] theorem advance_regs : (advance s).regs = s.regs := rfl
@[simp] theorem advance_ip : (advance s).ip = s.ip + 1 := rfl
@[simp] theorem advance_sp : (advance s).sp = s.sp := rfl
@[simp] theorem advance_cs : (advance s).cs = s.cs := rfl
@[simp] theorem advance_gl : (advance s).gl = s.gl := rfl
@[simp] theorem advance_halted : (advance s).halted = s.halted := rfl
@[simp] theorem advance_mem : (advance s).mem = s.mem := rfl
@[simp] theorem advance_pending : (advance s).pending = s.pending := rfl
@[simp] theorem advance_schedule : (advance s).schedule = s.schedule := rfl
@[simp] theorem advance_map : (advance s).map = s.map := rfl
@[simp] theorem advance_ifetchCoherent : (advance s).ifetchCoherent = s.ifetchCoherent := rfl
@[simp] theorem advance_written : (advance s).written = s.written := rfl
@[simp] theorem advance_deviceAccesses : (advance s).deviceAccesses = s.deviceAccesses := rfl
@[simp] theorem advance_deviceWrites : (advance s).deviceWrites = s.deviceWrites := rfl
@[simp] theorem advance_paged (q : Fin 4) (k : RegNum) : (advance s).paged q k = s.paged q k := rfl

end

/-! ### A register written by name -/

section
variable (s : State) (r : RegName) (v : Word)

@[simp] theorem State.set_halted : (s.set r v).halted = s.halted := by cases r <;> rfl
@[simp] theorem State.set_mem : (s.set r v).mem = s.mem := by cases r <;> rfl
@[simp] theorem State.set_pending : (s.set r v).pending = s.pending := by cases r <;> rfl
@[simp] theorem State.set_schedule : (s.set r v).schedule = s.schedule := by cases r <;> rfl
@[simp] theorem State.set_map : (s.set r v).map = s.map := by cases r <;> rfl
@[simp] theorem State.set_ifetchCoherent : (s.set r v).ifetchCoherent = s.ifetchCoherent := by cases r <;> rfl
@[simp] theorem State.set_written : (s.set r v).written = s.written := by cases r <;> rfl
@[simp] theorem State.set_deviceAccesses : (s.set r v).deviceAccesses = s.deviceAccesses := by cases r <;> rfl
@[simp] theorem State.set_deviceWrites : (s.set r v).deviceWrites = s.deviceWrites := by cases r <;> rfl
theorem State.set_ip : (s.set r v).ip = if r = .ip then v else s.ip := by cases r <;> simp [State.set]
theorem State.set_sp : (s.set r v).sp = if r = .sp then v else s.sp := by cases r <;> simp [State.set]
theorem State.set_cs : (s.set r v).cs = if r = .cs then csWrite v else s.cs := by cases r <;> simp [State.set]
theorem State.set_gl : (s.set r v).gl = if r = .gl then v else s.gl := by cases r <;> simp [State.set]
theorem State.set_paged (q : Fin 4) (k : RegNum) :
    (s.set r v).paged q k = if r = .paged q k then v else s.paged q k := by
  cases r <;> simp [State.set, State.withPaged_paged]

/-- What a register reads as after a write of it: CS keeps bits 15:0 (R38), every other register all of it. -/
theorem State.get_set_same : (s.set r v).get r = if r = .cs then csRead (csWrite v) else v := by
  cases r <;> simp [State.set, State.get]

/-- A write leaves every other register alone. -/
theorem State.get_set_other (q : RegName) (h : r ≠ q) : (s.set r v).get q = s.get q := by
  cases r <;> cases q <;> simp_all [State.set, State.get, State.withPaged_paged]

end

end Sys2Proof.Machine
end

