-- ==== Sys2Proof/Laws/Status.lean ====
section
/-! SUPPORT. Bit fields, and what each write of CS does to each field of CS. -/

namespace Sys2Proof

/-- A bit of a word in which one field was replaced. -/
theorem getLsbD_setField {n : Nat} (w : Word) (lo : Nat) (x : BitVec n) (i : Nat) (h : i < 32) :
    (setField w lo x).getLsbD i = if lo ≤ i ∧ i < lo + n then x.getLsbD (i - lo) else w.getLsbD i := by
  unfold setField place
  by_cases h1 : i < lo
  · simp [h, h1]
  · by_cases h2 : i - lo < n
    · have h3 : lo ≤ i ∧ i < lo + n := by omega
      simp [h, h1, h2, h3]
    · have h3 : ¬(lo ≤ i ∧ i < lo + n) := by omega
      simp [h, h1, h2, h3, BitVec.getLsbD_of_ge x (i - lo) (by omega)]

/-- A field is decided by its bits. -/
theorem field_eq_of_bits {lo len : Nat} {w : Word} {x : BitVec len}
    (h : ∀ i < len, w.getLsbD (lo + i) = x.getLsbD i) : field w lo len = x := by
  apply BitVec.eq_of_getLsbD_eq
  intro i hi
  simp [field, hi, h i hi]

/-- Two words that agree on the bits of a field agree on the field. -/
theorem field_congr {lo len : Nat} {w u : Word}
    (h : ∀ i < len, w.getLsbD (lo + i) = u.getLsbD (lo + i)) : field w lo len = field u lo len := by
  apply BitVec.eq_of_getLsbD_eq
  intro i hi
  simp only [field, BitVec.getLsbD_extractLsb', hi, decide_true, Bool.true_and, h i hi]

@[simp] theorem getLsbD_field (w : Word) (lo len i : Nat) :
    (field w lo len).getLsbD i = (decide (i < len) && w.getLsbD (lo + i)) := by
  simp [field]

end Sys2Proof

namespace Sys2Proof.Machine

/-! ### CS.i written directly -/

section
variable (cs : Word) (b : Bool)

theorem getLsbD_csSetAllow (i : Nat) (h : i < 32) :
    (csSetAllow cs b).getLsbD i = if i = 6 then b else cs.getLsbD i := by
  rw [csSetAllow, getLsbD_setField _ _ _ _ h]
  by_cases h6 : i = 6
  · subst h6; simp
  · rw [if_neg (by omega), if_neg h6]

@[simp] theorem csAllow_csSetAllow : csAllow (csSetAllow cs b) = b := by
  rw [csAllow, getLsbD_csSetAllow _ _ _ (by omega)]; rfl
@[simp] theorem csHide_csSetAllow : csHide (csSetAllow cs b) = csHide cs := by
  rw [csHide, getLsbD_csSetAllow _ _ _ (by omega)]; rfl
@[simp] theorem csExtend_csSetAllow : csExtend (csSetAllow cs b) = csExtend cs := by
  rw [csExtend, getLsbD_csSetAllow _ _ _ (by omega)]; rfl
@[simp] theorem csInhibit_csSetAllow : csInhibit (csSetAllow cs b) = csInhibit cs := by
  rw [csInhibit, getLsbD_csSetAllow _ _ _ (by omega)]; rfl
@[simp] theorem csC_csSetAllow : csC (csSetAllow cs b) = csC cs := by
  rw [csC, getLsbD_csSetAllow _ _ _ (by omega)]; rfl
@[simp] theorem csZ_csSetAllow : csZ (csSetAllow cs b) = csZ cs := by
  rw [csZ, getLsbD_csSetAllow _ _ _ (by omega)]; rfl
@[simp] theorem csN_csSetAllow : csN (csSetAllow cs b) = csN cs := by
  rw [csN, getLsbD_csSetAllow _ _ _ (by omega)]; rfl
@[simp] theorem csV_csSetAllow : csV (csSetAllow cs b) = csV cs := by
  rw [csV, getLsbD_csSetAllow _ _ _ (by omega)]; rfl

@[simp] theorem csPage_csSetAllow : csPage (csSetAllow cs b) = csPage cs := by
  refine field_congr fun i hi => ?_
  rw [getLsbD_csSetAllow _ _ _ (by omega), if_neg (by omega)]

@[simp] theorem csLink_csSetAllow : csLink (csSetAllow cs b) = csLink cs := by
  refine field_congr fun i hi => ?_
  rw [getLsbD_csSetAllow _ _ _ (by omega), if_neg (by omega)]

@[simp] theorem field_upper_csSetAllow : field (csSetAllow cs b) 16 16 = field cs 16 16 := by
  refine field_congr fun i hi => ?_
  rw [getLsbD_csSetAllow _ _ _ (by omega), if_neg (by omega)]

end

/-! ### The four condition flags -/

section
variable (cs : Word) (c z n v : Bool)

theorem getLsbD_csSetFlags (i : Nat) (h : i < 32) :
    (csSetFlags cs c z n v).getLsbD i =
      if i = 3 then c else if i = 2 then z else if i = 1 then n else if i = 0 then v else cs.getLsbD i := by
  rw [csSetFlags, getLsbD_setField _ _ _ _ h, getLsbD_setField _ _ _ _ h, getLsbD_setField _ _ _ _ h,
    getLsbD_setField _ _ _ _ h]
  by_cases h4 : i < 4
  · interval_cases i <;> simp
  · have above : ∀ k < 4, i ≠ k ∧ ¬(k ≤ i ∧ i < k + 1) := fun k hk => by omega
    simp only [above 0, above 1, above 2, above 3, Nat.reduceLT, if_false]

/-- The flag update leaves every bit above the four flags (R30, R37). -/
theorem getLsbD_csSetFlags_above (i : Nat) (h : i < 32) (hi : 4 ≤ i) :
    (csSetFlags cs c z n v).getLsbD i = cs.getLsbD i := by
  have above : ∀ k < 4, i ≠ k := fun k hk => by omega
  simp only [getLsbD_csSetFlags cs c z n v i h, above 0, above 1, above 2, above 3, Nat.reduceLT, if_false]

@[simp] theorem csC_csSetFlags : csC (csSetFlags cs c z n v) = c := by
  rw [csC, getLsbD_csSetFlags _ _ _ _ _ _ (by omega)]; rfl
@[simp] theorem csZ_csSetFlags : csZ (csSetFlags cs c z n v) = z := by
  rw [csZ, getLsbD_csSetFlags _ _ _ _ _ _ (by omega)]; rfl
@[simp] theorem csN_csSetFlags : csN (csSetFlags cs c z n v) = n := by
  rw [csN, getLsbD_csSetFlags _ _ _ _ _ _ (by omega)]; rfl
@[simp] theorem csV_csSetFlags : csV (csSetFlags cs c z n v) = v := by
  rw [csV, getLsbD_csSetFlags _ _ _ _ _ _ (by omega)]; rfl
@[simp] theorem csAllow_csSetFlags : csAllow (csSetFlags cs c z n v) = csAllow cs := by
  rw [csAllow, getLsbD_csSetFlags _ _ _ _ _ _ (by omega)]; rfl
@[simp] theorem csHide_csSetFlags : csHide (csSetFlags cs c z n v) = csHide cs := by
  rw [csHide, getLsbD_csSetFlags _ _ _ _ _ _ (by omega)]; rfl
@[simp] theorem csExtend_csSetFlags : csExtend (csSetFlags cs c z n v) = csExtend cs := by
  rw [csExtend, getLsbD_csSetFlags _ _ _ _ _ _ (by omega)]; rfl
@[simp] theorem csInhibit_csSetFlags : csInhibit (csSetFlags cs c z n v) = csInhibit cs := by
  rw [csInhibit, getLsbD_csSetFlags _ _ _ _ _ _ (by omega)]; rfl

@[simp] theorem csPage_csSetFlags : csPage (csSetFlags cs c z n v) = csPage cs := by
  refine field_congr fun i hi => ?_
  exact getLsbD_csSetFlags_above _ _ _ _ _ _ (by omega) (by omega)

@[simp] theorem csLink_csSetFlags : csLink (csSetFlags cs c z n v) = csLink cs := by
  refine field_congr fun i hi => ?_
  exact getLsbD_csSetFlags_above _ _ _ _ _ _ (by omega) (by omega)

@[simp] theorem field_upper_csSetFlags : field (csSetFlags cs c z n v) 16 16 = field cs 16 16 := by
  refine field_congr fun i hi => ?_
  exact getLsbD_csSetFlags_above _ _ _ _ _ _ (by omega) (by omega)

end

/-! ### CS.p and CS.s written by srpg -/

section
variable (cs : Word) (p : BitVec 4) (b : Bool)

theorem getLsbD_csSetPage (i : Nat) (h : i < 32) :
    (csSetPage cs p b).getLsbD i =
      if i = 7 then b else if 12 ≤ i ∧ i < 16 then p.getLsbD (i - 12) else cs.getLsbD i := by
  rw [csSetPage, getLsbD_setField _ _ _ _ h, getLsbD_setField _ _ _ _ h]
  by_cases h7 : i = 7
  · subst h7; simp
  · rw [if_neg (by omega), if_neg h7]

@[simp] theorem csHide_csSetPage : csHide (csSetPage cs p b) = b := by
  rw [csHide, getLsbD_csSetPage _ _ _ _ (by omega)]; rfl
@[simp] theorem csAllow_csSetPage : csAllow (csSetPage cs p b) = csAllow cs := by
  rw [csAllow, getLsbD_csSetPage _ _ _ _ (by omega)]; rfl

@[simp] theorem csPage_csSetPage : csPage (csSetPage cs p b) = p := by
  apply field_eq_of_bits
  intro i hi
  rw [getLsbD_csSetPage _ _ _ _ (by omega), if_neg (by omega), if_pos (by omega)]
  congr 1
  omega

@[simp] theorem field_upper_csSetPage : field (csSetPage cs p b) 16 16 = field cs 16 16 := by
  refine field_congr fun i hi => ?_
  rw [getLsbD_csSetPage _ _ _ _ (by omega), if_neg (by omega), if_neg (by omega)]

end

/-! ### CS written as a register -/

@[simp] theorem field_upper_csWrite (v : Word) : field (csWrite v) 16 16 = 0 := by
  apply field_eq_of_bits
  intro i hi
  simp [csWrite]

@[simp] theorem csPage_csWrite (v : Word) : csPage (csWrite v) = csPage v := by
  refine field_congr fun i hi => ?_
  simp only [csWrite, BitVec.getLsbD_setWidth, getLsbD_field, Nat.zero_add]
  simp [show 12 + i < 32 by omega, show 12 + i < 16 by omega]

/-- A CS whose upper half is zero is read as it stands (R38). -/
theorem csRead_of_upper {cs : Word} (h : field cs 16 16 = 0) : csRead cs = cs := by
  apply BitVec.eq_of_getLsbD_eq
  intro i hi
  by_cases h16 : i < 16
  · simp only [csRead, BitVec.getLsbD_setWidth, getLsbD_field, Nat.zero_add, hi, h16, decide_true, Bool.true_and]
  · have hb : (field cs 16 16).getLsbD (i - 16) = false := by rw [h]; simp
    rw [getLsbD_field, show 16 + (i - 16) = i by omega] at hb
    have hz : cs.getLsbD i = false := by
      simpa [show i - 16 < 16 by omega] using hb
    simp [csRead, h16, hz]

/-! ### The flag update of an ALU instruction -/

section
variable (cs : Word) (o : AluOut)

/-- With CS.f = 1 there is none (R36). -/
theorem flagUpdate_inhibited (h : csInhibit cs = true) : flagUpdate cs o = cs := by simp [flagUpdate, h]

@[simp] theorem csPage_flagUpdate : csPage (flagUpdate cs o) = csPage cs := by
  unfold flagUpdate; split
  · rfl
  · split <;> simp

@[simp] theorem csHide_flagUpdate : csHide (flagUpdate cs o) = csHide cs := by
  unfold flagUpdate; split
  · rfl
  · split <;> simp

@[simp] theorem csLink_flagUpdate : csLink (flagUpdate cs o) = csLink cs := by
  unfold flagUpdate; split
  · rfl
  · split <;> simp

@[simp] theorem csAllow_flagUpdate : csAllow (flagUpdate cs o) = csAllow cs := by
  unfold flagUpdate; split
  · rfl
  · split <;> simp

@[simp] theorem field_upper_flagUpdate : field (flagUpdate cs o) 16 16 = field cs 16 16 := by
  unfold flagUpdate; split
  · rfl
  · split <;> simp

end

end Sys2Proof.Machine
end

