-- ==== Sys2Proof/Laws/Ops.lean ====
section
/-! SUPPORT. For each shared operation one lemma that says everything it can do when it gives a next state; the
proofs about instructions cite these and do not unfold the operations. -/

namespace Sys2Proof.Machine

/-! ### The condition check -/

theorem underCond_holds {c : Cond} {s : State} (h : condHolds c s.cs = true) (body : Result) :
    underCond c s body = body := by simp [underCond, h]

theorem underCond_fails {c : Cond} {s : State} (h : condHolds c s.cs = false) (body : Result) :
    underCond c s body = .next (advance s) := by simp [underCond, h]

/-- Under the condition check: the instruction ran, or nothing happened but the advance of IP (R111). -/
theorem underCond_next {c : Cond} {s t : State} {body : Result} (h : underCond c s body = .next t) :
    (condHolds c s.cs = true ∧ body = .next t) ∨ (condHolds c s.cs = false ∧ t = advance s) := by
  cases hc : condHolds c s.cs with
  | true => exact .inl ⟨rfl, by rwa [underCond_holds hc] at h⟩
  | false =>
    rw [underCond_fails hc] at h
    exact .inr ⟨rfl, (Host.Outcome.next.inj h).symm⟩

/-! ### Registers -/

/-- With a legal page every register number names a register (R23). -/
theorem regName_some {cs : Word} (h : pageLegal cs = true) (i : RegNum) : ∃ r, regName cs i = some r := by
  have hp : (csPage cs).toNat < 4 := of_decide_eq_true h
  simp only [regName, dif_pos hp]
  repeat' split
  all_goals exact ⟨_, rfl⟩

/-- The mapping looks at CS.s and CS.p alone (R23). -/
theorem regName_congr {cs cs' : Word} (hh : csHide cs' = csHide cs) (hp : csPage cs' = csPage cs)
    (i : RegNum) : regName cs' i = regName cs i := by
  simp only [regName, hh, hp]

/-- With the special registers hidden every number names a register of the selected page (R23, R33). -/
theorem regName_hidden {cs : Word} {i : RegNum} {r : RegName} (hh : csHide cs = true)
    (h : regName cs i = some r) : ∃ p, r = .paged p i ∧ p.val = (csPage cs).toNat := by
  simp only [regName, hh, Bool.true_eq_false, false_and, if_false] at h
  split at h
  · exact ⟨_, (Option.some.inj h).symm, rfl⟩
  · cases h

/-- A paged register that a number names stands in the selected page (R23, R25). -/
theorem regName_page {cs : Word} {i n : RegNum} {p : Fin 4} (h : regName cs i = some (.paged p n)) :
    p.val = (csPage cs).toNat ∧ n = i := by
  unfold regName at h
  repeat' split at h
  all_goals cases h
  exact ⟨rfl, rfl⟩

theorem withReg_of_name {s : State} {i : RegNum} {r : RegName} (h : regName s.cs i = some r)
    (k : Word → Result) : withReg s i k = k (s.get r) := by simp [withReg, h]

theorem withReg_next {s t : State} {i : RegNum} {k : Word → Result} (h : withReg s i k = .next t) :
    ∃ r, regName s.cs i = some r ∧ k (s.get r) = .next t := by
  unfold withReg at h
  split at h
  · exact ⟨_, ‹_›, h⟩
  · cases h

theorem withDest_of_name {cs : Word} {i : RegNum} {v : Word} {r : RegName} (h : regName cs i = some r)
    (hw : writable r v = true) (k : RegName → Result) : withDest cs i v k = k r := by
  simp [withDest, h, hw]

theorem withDest_next {cs : Word} {t : State} {i : RegNum} {v : Word} {k : RegName → Result}
    (h : withDest cs i v k = .next t) :
    ∃ r, regName cs i = some r ∧ writable r v = true ∧ k r = .next t := by
  unfold withDest at h
  split at h
  · cases h
  · split at h
    · exact ⟨_, ‹_›, ‹_›, h⟩
    · cases h

theorem writeBack_of_name {cs : Word} {s : State} {i : RegNum} {v : Word} {r : RegName}
    (h : regName cs i = some r) (hw : writable r v = true) : writeBack cs s i v = .next (s.set r v) :=
  withDest_of_name h hw _

/-- A write back: one register that can take the value is written, and nothing else (R29). -/
theorem writeBack_next {cs : Word} {s t : State} {i : RegNum} {v : Word} (h : writeBack cs s i v = .next t) :
    ∃ r, regName cs i = some r ∧ writable r v = true ∧ t = s.set r v := by
  obtain ⟨r, hr, hw, ht⟩ := withDest_next h
  exact ⟨r, hr, hw, (Host.Outcome.next.inj ht).symm⟩

/-! ### The frame of the ALU instructions -/

/-- The end of an ALU instruction that stores: CS and IP as the frame says, then one register (R120). -/
theorem aluStore_next {s t : State} {d : RegNum} {o : AluOut} (h : aluStore s d o = .next t) :
    ∃ r, regName s.cs d = some r ∧ writable r o.res = true ∧
      t = ((advance s).withCs (flagUpdate s.cs o)).set r o.res := writeBack_next h

theorem aluDiscard_next {s t : State} {o : AluOut} (h : aluDiscard s o = .next t) :
    t = (advance s).withCs (flagUpdate s.cs o) := (Host.Outcome.next.inj h).symm

theorem aluValue_next {s t : State} {a : RegNum} {sh : BitVec 4} {v : BitVec 8}
    {f : Word → Word → AluOut} {finish : AluOut → Result} (h : aluValue s a sh v f finish = .next t) :
    ∃ ra, regName s.cs a = some ra ∧ finish (f (s.get ra) (valueOperand s.cs sh v)) = .next t :=
  withReg_next h

theorem aluReg_next {s t : State} {a b : RegNum} {f : Word → Word → AluOut} {finish : AluOut → Result}
    (h : aluReg s a b f finish = .next t) :
    ∃ ra rb, regName s.cs a = some ra ∧ regName s.cs b = some rb ∧
      finish (f (s.get ra) (s.get rb)) = .next t := by
  obtain ⟨ra, ha, h⟩ := withReg_next h
  obtain ⟨rb, hb, h⟩ := withReg_next h
  exact ⟨ra, rb, ha, hb, h⟩

theorem maskValue_next {s t : State} {a : RegNum} {sh : BitVec 4} {v : BitVec 8}
    {f : Word → Word → Nat → Word} {finish : AluOut → Result} (h : maskValue s a sh v f finish = .next t) :
    ∃ ra, regName s.cs a = some ra ∧
      finish (plainOut (f (s.get ra) (ext8 s.cs v) (evenShift sh))) = .next t := withReg_next h

theorem maskReg_next {s t : State} {a b : RegNum} {v : BitVec 8} {f : Word → Word → Nat → Word}
    {finish : AluOut → Result} (h : maskReg s a b v f finish = .next t) :
    ∃ ra rb, regName s.cs a = some ra ∧ regName s.cs b = some rb ∧
      finish (plainOut (f (s.get ra) (ext8 s.cs v) (shiftAmount (s.get rb)))) = .next t := by
  obtain ⟨ra, ha, h⟩ := withReg_next h
  obtain ⟨rb, hb, h⟩ := withReg_next h
  exact ⟨ra, rb, ha, hb, h⟩

/-! ### Memory -/

/-- A read: memory gives its word and nothing changes, or a device answers (R63). -/
theorem memRead_ok {s t : State} {a v : Word} (h : memRead s a = .ok (v, t)) :
    ((kindAt s.map a = some .ram ∨ kindAt s.map a = some .rom) ∧ v = s.mem.readWord a ∧ t = s) ∨
    (kindAt s.map a = some .device ∧ v = Config.deviceAnswer s.deviceAccesses ∧
      t = s.withDevice s.deviceWrites s.written) := by
  unfold memRead at h
  split at h
  · cases h; exact .inl ⟨.inl ‹_›, rfl, rfl⟩
  · cases h; exact .inl ⟨.inr ‹_›, rfl, rfl⟩
  · cases h; exact .inr ⟨‹_›, rfl, rfl⟩
  · cases h

/-- A write: RAM takes the word, or a device is sent it (R64). -/
theorem memWrite_ok {s t : State} {a v : Word} (h : memWrite s a v = .ok t) :
    (kindAt s.map a = some .ram ∧ t = s.withMem (s.mem.writeWord a v) (addWritten s.written a.toNat)) ∨
    (kindAt s.map a = some .device ∧
      t = s.withDevice ((a, v) :: s.deviceWrites) (addWritten s.written a.toNat)) := by
  unfold memWrite at h
  split at h
  · cases h; exact .inl ⟨‹_›, rfl⟩
  · cases h; exact .inr ⟨‹_›, rfl⟩
  · cases h
  · cases h

/-- A write of memory changes no register, no CS and nothing of the platform but what it writes (R64). -/
theorem memWrite_frame {s t : State} {a v : Word} (h : memWrite s a v = .ok t) :
    t.regs = s.regs ∧ t.ip = s.ip ∧ t.sp = s.sp ∧ t.cs = s.cs ∧ t.gl = s.gl ∧ t.halted = s.halted ∧
      t.pending = s.pending ∧ t.schedule = s.schedule ∧ t.map = s.map ∧
      t.ifetchCoherent = s.ifetchCoherent := by
  rcases memWrite_ok h with ⟨-, rfl⟩ | ⟨-, rfl⟩ <;> simp

theorem memRead_frame {s t : State} {a v : Word} (h : memRead s a = .ok (v, t)) :
    t.regs = s.regs ∧ t.ip = s.ip ∧ t.sp = s.sp ∧ t.cs = s.cs ∧ t.gl = s.gl ∧ t.halted = s.halted ∧
      t.mem = s.mem ∧ t.written = s.written ∧ t.pending = s.pending ∧ t.schedule = s.schedule ∧
      t.map = s.map ∧ t.ifetchCoherent = s.ifetchCoherent := by
  rcases memRead_ok h with ⟨-, -, rfl⟩ | ⟨-, -, rfl⟩ <;> simp

/-- Outside the word written, every byte reads as before (R64). -/
theorem memWrite_readByte {s t : State} {a v : Word} (h : memWrite s a v = .ok t) (k : Nat)
    (hk : ¬(byteBase a ≤ k ∧ k < byteBase a + 4)) : t.mem.readByte k = s.mem.readByte k := by
  rcases memWrite_ok h with ⟨-, rfl⟩ | ⟨-, rfl⟩
  · simp [Memory.readByte_writeWord, hk]
  · simp

/-! ### The stack and the link register -/

theorem push_ok {s t : State} {v : Word} (h : push s v = .ok t) :
    ∃ u, memWrite s (pushAddress s.sp) v = .ok u ∧ t = u.withSp (pushedSp s.sp) := by
  unfold push at h
  split at h
  · cases h; exact ⟨_, ‹_›, rfl⟩
  · cases h

theorem pop_ok {s t : State} {v : Word} (h : pop s = .ok (v, t)) :
    ∃ u, memRead s (popAddress s.sp) = .ok (v, u) ∧ t = u.withSp (poppedSp s.sp) := by
  unfold pop at h
  split at h
  · cases h; exact ⟨_, ‹_›, rfl⟩
  · cases h

/-- The link register of a save or an interrupt entry is GL or a paged register (R32). -/
theorem withLink_next {cs : Word} {t : State} {reserved : Result} {k : RegName → Result}
    (hr : ∀ u, reserved ≠ .next u) (h : withLink cs reserved k = .next t) :
    ∃ r, regName cs (csLink cs) = some r ∧ r.reservedLink = false ∧ k r = .next t := by
  unfold withLink at h
  split at h
  · cases h
  · split at h
    · exact absurd h (hr t)
    · rename_i hn
      exact ⟨_, ‹_›, by simpa using hn, h⟩

/-! ### Taking an interrupt -/

/-- Taking an interrupt: the return address is pushed or goes to the link register; then IP and CS.i (R195). -/
theorem takeInterrupt_next {k : Priority} {id : IrqId} {ret : Word} {s t : State}
    (h : takeInterrupt k id ret s = .next t) :
    (k.savesToStack = true ∧ ∃ u, push s ret = .ok u ∧
      t = (u.withIp (handler s k id)).withCs (csSetAllow s.cs false)) ∨
    (k.savesToStack = false ∧ ∃ r, regName s.cs (csLink s.cs) = some r ∧ r.reservedLink = false ∧
      t = ((s.set r ret).withIp (handler s k id)).withCs (csSetAllow s.cs false)) := by
  unfold takeInterrupt at h
  split at h
  · rename_i hk
    split at h
    · cases h; exact .inl ⟨hk, _, ‹_›, rfl⟩
    · cases h
  · rename_i hk
    obtain ⟨r, hr, hl, ht⟩ := withLink_next (by intro u; simp) h
    exact .inr ⟨by simpa using hk, r, hr, hl, (Host.Outcome.next.inj ht).symm⟩

end Sys2Proof.Machine
end

