-- ==== Sys2Proof/Laws/PerInstr.lean ====
section
/-! SUPPORT. The statements about every instruction as syntax, one lemma per constructor. -/

namespace Sys2Proof

/-! ### What the masks of the opcode table leave of an encoded word -/

section
variable (c : Cond) (fmt d a x : BitVec 4) (v : BitVec 8) (op : BitVec 4)

theorem wordALU_and_0F00000F : wordALU c fmt d a x v op &&& 0x0F00000F#32 = place fmt 24 ||| place op 0 := by
  apply BitVec.eq_of_getLsbD_eq; intro j hj; unfold wordALU place; interval_cases j <;> simp
theorem wordALU_and_00000FF0 : wordALU c fmt d a x v op &&& 0x00000FF0#32 = place v 4 := by
  apply BitVec.eq_of_getLsbD_eq; intro j hj; unfold wordALU place; interval_cases j <;> simp
theorem wordALU_and_0000FFF0 : wordALU c fmt d a x v op &&& 0x0000FFF0#32 = place x 12 ||| place v 4 := by
  apply BitVec.eq_of_getLsbD_eq; intro j hj; unfold wordALU place; interval_cases j <;> simp
theorem wordALU_and_00F00000 : wordALU c fmt d a x v op &&& 0x00F00000#32 = place d 20 := by
  apply BitVec.eq_of_getLsbD_eq; intro j hj; unfold wordALU place; interval_cases j <;> simp
theorem wordALU_and_00F00FF0 : wordALU c fmt d a x v op &&& 0x00F00FF0#32 = place d 20 ||| place v 4 := by
  apply BitVec.eq_of_getLsbD_eq; intro j hj; unfold wordALU place; interval_cases j <;> simp

end

section
variable (c : Cond) (r s l : Bool) (base : RegNum) (i : Bool) (off : BitVec 19)

theorem wordBR_and_0F000000 : wordBR c r s l base i off &&& 0x0F000000#32 = place 1#1 27 ||| place (BitVec.ofBool r) 26 ||| place (BitVec.ofBool s) 25 |||
    place (BitVec.ofBool l) 24 := by
  apply BitVec.eq_of_getLsbD_eq; intro j hj; unfold wordBR place; interval_cases j <;> simp
theorem wordBR_and_00080000 : wordBR c r s l base i off &&& 0x00080000#32 = place (BitVec.ofBool i) 19 := by
  apply BitVec.eq_of_getLsbD_eq; intro j hj; unfold wordBR place; interval_cases j <;> simp
theorem wordBR_and_00F7FFFF : wordBR c r s l base i off &&& 0x00F7FFFF#32 = place base 20 ||| place off 0 := by
  apply BitVec.eq_of_getLsbD_eq; intro j hj; unfold wordBR place; interval_cases j <;> simp

end

section
variable (c : Cond) (fmt x y : BitVec 4) (low : BitVec 16)

theorem wordWide_and_0F000000 : wordWide c fmt x y low &&& 0x0F000000#32 = place fmt 24 := by
  apply BitVec.eq_of_getLsbD_eq; intro j hj; unfold wordWide place; interval_cases j <;> simp

end

section
variable (c : Cond) (d src : RegNum) (w : Bool)

theorem wordMOV_and_0F008000 : wordMOV c d src w &&& 0x0F008000#32 = place 0x4#4 24 ||| place (BitVec.ofBool w) 15 := by
  apply BitVec.eq_of_getLsbD_eq; intro j hj; unfold wordMOV place; interval_cases j <;> simp
theorem wordMOV_and_00007FFF : wordMOV c d src w &&& 0x00007FFF#32 = 0 := by
  apply BitVec.eq_of_getLsbD_eq; intro j hj; unfold wordMOV place; interval_cases j <;> simp

end

section
variable (c : Cond) (op : BitVec 4) (data : BitVec 20)

theorem wordCORE_and_0FF00000 : wordCORE c op data &&& 0x0FF00000#32 = place 0x1#4 24 ||| place op 20 := by
  apply BitVec.eq_of_getLsbD_eq; intro j hj; unfold wordCORE place; interval_cases j <;> simp
theorem wordCORE_and_000FFFFF : wordCORE c op data &&& 0x000FFFFF#32 = place data 0 := by
  apply BitVec.eq_of_getLsbD_eq; intro j hj; unfold wordCORE place; interval_cases j <;> simp
theorem wordCORE_and_000FFF00 : wordCORE c op data &&& 0x000FFF00#32 = place (data &&& 0xFFF00#20) 0 := by
  apply BitVec.eq_of_getLsbD_eq; intro j hj; unfold wordCORE place; interval_cases j <;> simp
theorem wordCORE_and_000FFFE0 : wordCORE c op data &&& 0x000FFFE0#32 = place (data &&& 0xFFFE0#20) 0 := by
  apply BitVec.eq_of_getLsbD_eq; intro j hj; unfold wordCORE place; interval_cases j <;> simp

end

/-- No value of the two subfields of `srpg` sets a must-be-zero bit (R89, R96). -/
theorem srpgData_canonical (d : Bool) (p : BitVec 4) : srpgData d p &&& 0xFFFE0#20 = 0 := by
  revert d p
  decide

/-- No value of SWIN_V sets a must-be-zero bit (R89, R96). -/
theorem swinData_canonical (v : IrqId) : v.setWidth 20 &&& 0xFFF00#20 = 0 := by
  apply BitVec.eq_of_getLsbD_eq
  intro j hj
  interval_cases j <;> simp

namespace Laws.EncodingMatchesRow

/-- The word of a well-formed instruction belongs to the row of the opcode table that carries its mnemonic, and sets
none of the row's must-be-zero bits (R96, R102). -/
def Statement (i : Instr) : Prop :=
  i.wellFormed = true →
    ∃ r ∈ opcodeTable, r.mnemonic = i.mnemonic ∧ r.selects (encode i) = true ∧ r.isCanonical (encode i) = true

theorem addrV (c : Cond) (d : RegNum) (a : RegNum) (sh : BitVec 4) (v : BitVec 8) : Statement (.addrV c d a sh v) := fun _ =>
  ⟨⟨"addr", 0x0F00000F, 0x07000000, 0x00000000⟩, by decide, rfl,
    by simp [OpcodeRow.selects, encode, wordALU_and_0F00000F, place],
    by simp [OpcodeRow.isCanonical, encode]⟩

theorem addrR (c : Cond) (d : RegNum) (a : RegNum) (b : RegNum) : Statement (.addrR c d a b) := fun _ =>
  ⟨⟨"addr", 0x0F00000F, 0x06000000, 0x00000FF0⟩, by decide, rfl,
    by simp [OpcodeRow.selects, encode, wordALU_and_0F00000F, place],
    by simp [OpcodeRow.isCanonical, encode, wordALU_and_00000FF0, place]⟩

theorem subrV (c : Cond) (d : RegNum) (a : RegNum) (sh : BitVec 4) (v : BitVec 8) : Statement (.subrV c d a sh v) := fun _ =>
  ⟨⟨"subr", 0x0F00000F, 0x07000001, 0x00000000⟩, by decide, rfl,
    by simp [OpcodeRow.selects, encode, wordALU_and_0F00000F, place],
    by simp [OpcodeRow.isCanonical, encode]⟩

theorem subrR (c : Cond) (d : RegNum) (a : RegNum) (b : RegNum) : Statement (.subrR c d a b) := fun _ =>
  ⟨⟨"subr", 0x0F00000F, 0x06000001, 0x00000FF0⟩, by decide, rfl,
    by simp [OpcodeRow.selects, encode, wordALU_and_0F00000F, place],
    by simp [OpcodeRow.isCanonical, encode, wordALU_and_00000FF0, place]⟩

theorem maslV (c : Cond) (d : RegNum) (a : RegNum) (sh : BitVec 4) (v : BitVec 8) : Statement (.maslV c d a sh v) := fun _ =>
  ⟨⟨"masl", 0x0F00000F, 0x07000002, 0x00000000⟩, by decide, rfl,
    by simp [OpcodeRow.selects, encode, wordALU_and_0F00000F, place],
    by simp [OpcodeRow.isCanonical, encode]⟩

theorem maslR (c : Cond) (d : RegNum) (a : RegNum) (b : RegNum) (v : BitVec 8) : Statement (.maslR c d a b v) := fun _ =>
  ⟨⟨"masl", 0x0F00000F, 0x06000002, 0x00000000⟩, by decide, rfl,
    by simp [OpcodeRow.selects, encode, wordALU_and_0F00000F, place],
    by simp [OpcodeRow.isCanonical, encode]⟩

theorem masrV (c : Cond) (d : RegNum) (a : RegNum) (sh : BitVec 4) (v : BitVec 8) : Statement (.masrV c d a sh v) := fun _ =>
  ⟨⟨"masr", 0x0F00000F, 0x07000003, 0x00000000⟩, by decide, rfl,
    by simp [OpcodeRow.selects, encode, wordALU_and_0F00000F, place],
    by simp [OpcodeRow.isCanonical, encode]⟩

theorem masrR (c : Cond) (d : RegNum) (a : RegNum) (b : RegNum) (v : BitVec 8) : Statement (.masrR c d a b v) := fun _ =>
  ⟨⟨"masr", 0x0F00000F, 0x06000003, 0x00000000⟩, by decide, rfl,
    by simp [OpcodeRow.selects, encode, wordALU_and_0F00000F, place],
    by simp [OpcodeRow.isCanonical, encode]⟩

theorem andbV (c : Cond) (d : RegNum) (a : RegNum) (sh : BitVec 4) (v : BitVec 8) : Statement (.andbV c d a sh v) := fun _ =>
  ⟨⟨"andb", 0x0F00000F, 0x07000004, 0x00000000⟩, by decide, rfl,
    by simp [OpcodeRow.selects, encode, wordALU_and_0F00000F, place],
    by simp [OpcodeRow.isCanonical, encode]⟩

theorem andbR (c : Cond) (d : RegNum) (a : RegNum) (b : RegNum) : Statement (.andbR c d a b) := fun _ =>
  ⟨⟨"andb", 0x0F00000F, 0x06000004, 0x00000FF0⟩, by decide, rfl,
    by simp [OpcodeRow.selects, encode, wordALU_and_0F00000F, place],
    by simp [OpcodeRow.isCanonical, encode, wordALU_and_00000FF0, place]⟩

theorem orbtV (c : Cond) (d : RegNum) (a : RegNum) (sh : BitVec 4) (v : BitVec 8) : Statement (.orbtV c d a sh v) := fun _ =>
  ⟨⟨"orbt", 0x0F00000F, 0x07000005, 0x00000000⟩, by decide, rfl,
    by simp [OpcodeRow.selects, encode, wordALU_and_0F00000F, place],
    by simp [OpcodeRow.isCanonical, encode]⟩

theorem orbtR (c : Cond) (d : RegNum) (a : RegNum) (b : RegNum) : Statement (.orbtR c d a b) := fun _ =>
  ⟨⟨"orbt", 0x0F00000F, 0x06000005, 0x00000FF0⟩, by decide, rfl,
    by simp [OpcodeRow.selects, encode, wordALU_and_0F00000F, place],
    by simp [OpcodeRow.isCanonical, encode, wordALU_and_00000FF0, place]⟩

theorem xorbV (c : Cond) (d : RegNum) (a : RegNum) (sh : BitVec 4) (v : BitVec 8) : Statement (.xorbV c d a sh v) := fun _ =>
  ⟨⟨"xorb", 0x0F00000F, 0x07000006, 0x00000000⟩, by decide, rfl,
    by simp [OpcodeRow.selects, encode, wordALU_and_0F00000F, place],
    by simp [OpcodeRow.isCanonical, encode]⟩

theorem xorbR (c : Cond) (d : RegNum) (a : RegNum) (b : RegNum) : Statement (.xorbR c d a b) := fun _ =>
  ⟨⟨"xorb", 0x0F00000F, 0x06000006, 0x00000FF0⟩, by decide, rfl,
    by simp [OpcodeRow.selects, encode, wordALU_and_0F00000F, place],
    by simp [OpcodeRow.isCanonical, encode, wordALU_and_00000FF0, place]⟩

theorem notbV (c : Cond) (d : RegNum) (a : RegNum) : Statement (.notbV c d a) := fun _ =>
  ⟨⟨"notb", 0x0F00000F, 0x07000007, 0x0000FFF0⟩, by decide, rfl,
    by simp [OpcodeRow.selects, encode, wordALU_and_0F00000F, place],
    by simp [OpcodeRow.isCanonical, encode, wordALU_and_0000FFF0, place]⟩

theorem notbR (c : Cond) (d : RegNum) (a : RegNum) : Statement (.notbR c d a) := fun _ =>
  ⟨⟨"notb", 0x0F00000F, 0x06000007, 0x0000FFF0⟩, by decide, rfl,
    by simp [OpcodeRow.selects, encode, wordALU_and_0F00000F, place],
    by simp [OpcodeRow.isCanonical, encode, wordALU_and_0000FFF0, place]⟩

theorem arslV (c : Cond) (d : RegNum) (a : RegNum) (sh : BitVec 4) (v : BitVec 8) : Statement (.arslV c d a sh v) := fun _ =>
  ⟨⟨"arsl", 0x0F00000F, 0x07000008, 0x00000000⟩, by decide, rfl,
    by simp [OpcodeRow.selects, encode, wordALU_and_0F00000F, place],
    by simp [OpcodeRow.isCanonical, encode]⟩

theorem arslR (c : Cond) (d : RegNum) (a : RegNum) (b : RegNum) : Statement (.arslR c d a b) := fun _ =>
  ⟨⟨"arsl", 0x0F00000F, 0x06000008, 0x00000FF0⟩, by decide, rfl,
    by simp [OpcodeRow.selects, encode, wordALU_and_0F00000F, place],
    by simp [OpcodeRow.isCanonical, encode, wordALU_and_00000FF0, place]⟩

theorem arsrV (c : Cond) (d : RegNum) (a : RegNum) (sh : BitVec 4) (v : BitVec 8) : Statement (.arsrV c d a sh v) := fun _ =>
  ⟨⟨"arsr", 0x0F00000F, 0x07000009, 0x00000000⟩, by decide, rfl,
    by simp [OpcodeRow.selects, encode, wordALU_and_0F00000F, place],
    by simp [OpcodeRow.isCanonical, encode]⟩

theorem arsrR (c : Cond) (d : RegNum) (a : RegNum) (b : RegNum) : Statement (.arsrR c d a b) := fun _ =>
  ⟨⟨"arsr", 0x0F00000F, 0x06000009, 0x00000FF0⟩, by decide, rfl,
    by simp [OpcodeRow.selects, encode, wordALU_and_0F00000F, place],
    by simp [OpcodeRow.isCanonical, encode, wordALU_and_00000FF0, place]⟩

theorem losrV (c : Cond) (d : RegNum) (a : RegNum) (sh : BitVec 4) (v : BitVec 8) : Statement (.losrV c d a sh v) := fun _ =>
  ⟨⟨"losr", 0x0F00000F, 0x0700000A, 0x00000000⟩, by decide, rfl,
    by simp [OpcodeRow.selects, encode, wordALU_and_0F00000F, place],
    by simp [OpcodeRow.isCanonical, encode]⟩

theorem losrR (c : Cond) (d : RegNum) (a : RegNum) (b : RegNum) : Statement (.losrR c d a b) := fun _ =>
  ⟨⟨"losr", 0x0F00000F, 0x0600000A, 0x00000FF0⟩, by decide, rfl,
    by simp [OpcodeRow.selects, encode, wordALU_and_0F00000F, place],
    by simp [OpcodeRow.isCanonical, encode, wordALU_and_00000FF0, place]⟩

theorem rotlV (c : Cond) (d : RegNum) (a : RegNum) (sh : BitVec 4) (v : BitVec 8) : Statement (.rotlV c d a sh v) := fun _ =>
  ⟨⟨"rotl", 0x0F00000F, 0x0700000B, 0x00000000⟩, by decide, rfl,
    by simp [OpcodeRow.selects, encode, wordALU_and_0F00000F, place],
    by simp [OpcodeRow.isCanonical, encode]⟩

theorem rotlR (c : Cond) (d : RegNum) (a : RegNum) (b : RegNum) : Statement (.rotlR c d a b) := fun _ =>
  ⟨⟨"rotl", 0x0F00000F, 0x0600000B, 0x00000FF0⟩, by decide, rfl,
    by simp [OpcodeRow.selects, encode, wordALU_and_0F00000F, place],
    by simp [OpcodeRow.isCanonical, encode, wordALU_and_00000FF0, place]⟩

theorem rotrV (c : Cond) (d : RegNum) (a : RegNum) (sh : BitVec 4) (v : BitVec 8) : Statement (.rotrV c d a sh v) := fun _ =>
  ⟨⟨"rotr", 0x0F00000F, 0x0700000C, 0x00000000⟩, by decide, rfl,
    by simp [OpcodeRow.selects, encode, wordALU_and_0F00000F, place],
    by simp [OpcodeRow.isCanonical, encode]⟩

theorem rotrR (c : Cond) (d : RegNum) (a : RegNum) (b : RegNum) : Statement (.rotrR c d a b) := fun _ =>
  ⟨⟨"rotr", 0x0F00000F, 0x0600000C, 0x00000FF0⟩, by decide, rfl,
    by simp [OpcodeRow.selects, encode, wordALU_and_0F00000F, place],
    by simp [OpcodeRow.isCanonical, encode, wordALU_and_00000FF0, place]⟩

theorem cmprV (c : Cond) (a : RegNum) (sh : BitVec 4) (v : BitVec 8) : Statement (.cmprV c a sh v) := fun _ =>
  ⟨⟨"cmpr", 0x0F00000F, 0x0700000D, 0x00F00000⟩, by decide, rfl,
    by simp [OpcodeRow.selects, encode, wordALU_and_0F00000F, place],
    by simp [OpcodeRow.isCanonical, encode, wordALU_and_00F00000, place]⟩

theorem cmprR (c : Cond) (a : RegNum) (b : RegNum) : Statement (.cmprR c a b) := fun _ =>
  ⟨⟨"cmpr", 0x0F00000F, 0x0600000D, 0x00F00FF0⟩, by decide, rfl,
    by simp [OpcodeRow.selects, encode, wordALU_and_0F00000F, place],
    by simp [OpcodeRow.isCanonical, encode, wordALU_and_00F00FF0, place]⟩

theorem testV (c : Cond) (a : RegNum) (sh : BitVec 4) (v : BitVec 8) : Statement (.testV c a sh v) := fun _ =>
  ⟨⟨"test", 0x0F00000F, 0x0700000E, 0x00F00000⟩, by decide, rfl,
    by simp [OpcodeRow.selects, encode, wordALU_and_0F00000F, place],
    by simp [OpcodeRow.isCanonical, encode, wordALU_and_00F00000, place]⟩

theorem testR (c : Cond) (a : RegNum) (b : RegNum) : Statement (.testR c a b) := fun _ =>
  ⟨⟨"test", 0x0F00000F, 0x0600000E, 0x00F00FF0⟩, by decide, rfl,
    by simp [OpcodeRow.selects, encode, wordALU_and_0F00000F, place],
    by simp [OpcodeRow.isCanonical, encode, wordALU_and_00F00FF0, place]⟩

theorem masiV (c : Cond) (d : RegNum) (a : RegNum) (sh : BitVec 4) (v : BitVec 8) : Statement (.masiV c d a sh v) := fun _ =>
  ⟨⟨"masi", 0x0F00000F, 0x0700000F, 0x00000000⟩, by decide, rfl,
    by simp [OpcodeRow.selects, encode, wordALU_and_0F00000F, place],
    by simp [OpcodeRow.isCanonical, encode]⟩

theorem masiR (c : Cond) (d : RegNum) (a : RegNum) (b : RegNum) : Statement (.masiR c d a b) := fun _ =>
  ⟨⟨"masi", 0x0F00000F, 0x0600000F, 0x00000FF0⟩, by decide, rfl,
    by simp [OpcodeRow.selects, encode, wordALU_and_0F00000F, place],
    by simp [OpcodeRow.isCanonical, encode, wordALU_and_00000FF0, place]⟩

theorem brch (c : Cond) (base : RegNum) (off : BitVec 19) : Statement (.brch c base off) := fun _ =>
  ⟨⟨"brch", 0x0F000000, 0x08000000, 0x00080000⟩, by decide, rfl,
    by simp [OpcodeRow.selects, encode, wordBR_and_0F000000, place],
    by simp [OpcodeRow.isCanonical, encode, wordBR_and_00080000, place]⟩

theorem brsl (c : Cond) (base : RegNum) (ib : Bool) (off : BitVec 19) : Statement (.brsl c base ib off) := fun _ =>
  ⟨⟨"brsl", 0x0F000000, 0x0C000000, 0x00000000⟩, by decide, rfl,
    by simp [OpcodeRow.selects, encode, wordBR_and_0F000000, place, Config.brSSave, Config.brLLink],
    by simp [OpcodeRow.isCanonical, encode]⟩

theorem brss (c : Cond) (base : RegNum) (ib : Bool) (off : BitVec 19) : Statement (.brss c base ib off) := fun _ =>
  ⟨⟨"brss", 0x0F000000, 0x0D000000, 0x00000000⟩, by decide, rfl,
    by simp [OpcodeRow.selects, encode, wordBR_and_0F000000, place, Config.brSSave, Config.brLLink],
    by simp [OpcodeRow.isCanonical, encode]⟩

theorem brrl (c : Cond) (ib : Bool) : Statement (.brrl c ib) := fun _ =>
  ⟨⟨"brrl", 0x0F000000, 0x0E000000, 0x00F7FFFF⟩, by decide, rfl,
    by simp [OpcodeRow.selects, encode, wordBR_and_0F000000, place, Config.brSSave, Config.brLLink],
    by simp [OpcodeRow.isCanonical, encode, wordBR_and_00F7FFFF, place]⟩

theorem brrs (c : Cond) (ib : Bool) : Statement (.brrs c ib) := fun _ =>
  ⟨⟨"brrs", 0x0F000000, 0x0F000000, 0x00F7FFFF⟩, by decide, rfl,
    by simp [OpcodeRow.selects, encode, wordBR_and_0F000000, place, Config.brSSave, Config.brLLink],
    by simp [OpcodeRow.isCanonical, encode, wordBR_and_00F7FFFF, place]⟩

theorem movv (c : Cond) (d : RegNum) (sh : BitVec 4) (v : BitVec 16) : Statement (.movv c d sh v) := fun _ =>
  ⟨⟨"movv", 0x0F000000, 0x05000000, 0x00000000⟩, by decide, rfl,
    by simp [OpcodeRow.selects, encode, wordWide_and_0F000000, place],
    by simp [OpcodeRow.isCanonical, encode]⟩

theorem movr (c : Cond) (d : RegNum) (src : RegNum) : Statement (.movr c d src) := fun _ =>
  ⟨⟨"movr", 0x0F008000, 0x04000000, 0x00007FFF⟩, by decide, rfl,
    by simp [OpcodeRow.selects, encode, wordMOV_and_0F008000, place],
    by simp [OpcodeRow.isCanonical, encode, wordMOV_and_00007FFF]⟩

theorem swap (c : Cond) (d : RegNum) (src : RegNum) : Statement (.swap c d src) := fun _ =>
  ⟨⟨"swap", 0x0F008000, 0x04008000, 0x00007FFF⟩, by decide, rfl,
    by simp [OpcodeRow.selects, encode, wordMOV_and_0F008000, place],
    by simp [OpcodeRow.isCanonical, encode, wordMOV_and_00007FFF]⟩

theorem load (c : Cond) (base : RegNum) (sd : RegNum) (off : BitVec 16) : Statement (.load c base sd off) := fun _ =>
  ⟨⟨"load", 0x0F000000, 0x02000000, 0x00000000⟩, by decide, rfl,
    by simp [OpcodeRow.selects, encode, wordWide_and_0F000000, place],
    by simp [OpcodeRow.isCanonical, encode]⟩

theorem stor (c : Cond) (base : RegNum) (sd : RegNum) (off : BitVec 16) : Statement (.stor c base sd off) := fun _ =>
  ⟨⟨"stor", 0x0F000000, 0x03000000, 0x00000000⟩, by decide, rfl,
    by simp [OpcodeRow.selects, encode, wordWide_and_0F000000, place],
    by simp [OpcodeRow.isCanonical, encode]⟩

theorem noop (c : Cond) : Statement (.noop c) := fun _ =>
  ⟨⟨"noop", 0x0FF00000, 0x01000000, 0x000FFFFF⟩, by decide, rfl,
    by simp [OpcodeRow.selects, encode, wordCORE_and_0FF00000, place],
    by simp [OpcodeRow.isCanonical, encode, wordCORE_and_000FFFFF, place]⟩

theorem swin (c : Cond) (v : BitVec 8) : Statement (.swin c v) := fun _ =>
  ⟨⟨"swin", 0x0FF00000, 0x01100000, 0x000FFF00⟩, by decide, rfl,
    by simp [OpcodeRow.selects, encode, wordCORE_and_0FF00000, place],
    by simp [OpcodeRow.isCanonical, encode, wordCORE_and_000FFF00, place, swinData_canonical]⟩

theorem halt (c : Cond) : Statement (.halt c) := fun _ =>
  ⟨⟨"halt", 0x0FF00000, 0x01200000, 0x000FFFFF⟩, by decide, rfl,
    by simp [OpcodeRow.selects, encode, wordCORE_and_0FF00000, place],
    by simp [OpcodeRow.isCanonical, encode, wordCORE_and_000FFFFF, place]⟩

theorem srpg (c : Cond) (d : Bool) (p : BitVec 4) : Statement (.srpg c d p) := fun _ =>
  ⟨⟨"srpg", 0x0FF00000, 0x01300000, 0x000FFFE0⟩, by decide, rfl,
    by simp [OpcodeRow.selects, encode, wordCORE_and_0FF00000, place],
    by simp [OpcodeRow.isCanonical, encode, wordCORE_and_000FFFE0, place, srpgData_canonical]⟩

end Laws.EncodingMatchesRow

end Sys2Proof
end

