-- ==== Sys2Proof/Laws/Step.lean ====
section
/-! SUPPORT. What one step can do, said once, and the induction over runs. -/

namespace Sys2Proof.Machine

@[simp] theorem nextBoundary_eq (s : State) :
    nextBoundary s = s.withRequests (s.schedule.headD []) s.schedule.tail := rfl

/-- A fetch that succeeds is a read of the word at IP (R29, R72). -/
theorem fetch_next {s u : State} {w : Word} (h : fetch s = .next (w, u)) :
    ¬(s.ifetchCoherent = false ∧ s.ip.toNat ∈ s.written) ∧ memRead s s.ip = .ok (w, u) := by
  unfold fetch at h
  split at h
  · cases h
  · split at h
    · cases h; exact ⟨‹_›, ‹_›⟩
    · cases h

/-- One step: the core was not halted, and an interrupt was taken or one instruction was executed (R29). -/
theorem step_next {s t : State} (h : step s = .next t) :
    s.halted = false ∧
    ((∃ r, requestToTake s = some r ∧ takeInterrupt r.priority r.id s.ip (nextBoundary s) = .next t) ∨
     (requestToTake s = none ∧ ∃ w u i, fetch (nextBoundary s) = .next (w, u) ∧ decodeWord w = .ok i ∧
        exec i u = .next t)) := by
  unfold step at h
  split at h
  · cases h
  · rename_i hh
    refine ⟨by simpa using hh, ?_⟩
    split at h
    · exact .inl ⟨_, ‹_›, h⟩
    · rename_i hr
      refine .inr ⟨hr, ?_⟩
      split at h
      · cases h
      · cases h
      · split at h
        · exact ⟨_, _, _, ‹_›, ‹_›, h⟩
        · cases h

/-- What holds of a state and is kept by every step holds of every state a run reaches. -/
theorem reaches_induction {P : State → Prop} (hstep : ∀ s t, P s → step s = .next t → P t) {s t : State}
    (h : Reaches s t) (h0 : P s) : P t := by
  induction h with
  | refl => exact h0
  | step _ hs ih => exact hstep _ _ ih hs

end Sys2Proof.Machine
end

