-- ==== Sys2Proof/Tests/Slice0.lean ====
section
/-! SUPPORT. Tests of the model. Expected words and values are those of spec/95_test_vectors.md (the section is named
above each group); where it has no vector for a form, they are worked out by hand from the rule. The witnesses at
the end show, for each obligation with hypotheses, a state and operands that meet them. -/

namespace Sys2Proof.Tests

open Sys2Proof Sys2Proof.Machine Sys2Proof.Spec

/-! ### Helpers -/

/-- The start of the spec's vectors: an instruction at 0x10, SP = 0x200, GL = 0x55, the given CS and registers of
page 0, and three words of memory. -/
def st (cs : Word) (regs : List (RegNum × Word)) : State :=
  let s := ((State.reset.withIp 0x10).withSp 0x200).withGl 0x55
  let s := s.withMem (((Memory.writeWord [] 0x100 0x7FFFFFFF).writeWord 0x101 1).writeWord 0x1FF 6) []
  regs.foldl (fun s r => s.withPaged 0 r.1 r.2) (s.withCs cs)

/-- The next state of an outcome. -/
def nextOf : Result → Option State
  | .next t => some t
  | .fault _ | .refused _ => none

/-- The fault of an outcome. -/
def faultOf : Result → Option Fault
  | .fault f => some f
  | .next _ | .refused _ => none

/-- The refusal of an outcome. -/
def refusalOf : Result → Option Refusal
  | .refused r => some r
  | .next _ | .fault _ => none

/-- The outcome of the instruction that the word `w` decodes to. -/
def run (w : Word) (s : State) : Option Result :=
  match decodeWord w with
  | .ok i => some (exec i s)
  | .error _ => none

/-- What `f` sees of the next state after the instruction that `w` decodes to. -/
def seen {α : Type} (w : Word) (s : State) (f : State → α) : Option α := ((run w s).bind nextOf).map f

/-! ### Well-formedness: the one check there is -/

theorem test_srpg_page_4_is_ill_formed : (Instr.srpg .alc true 4).wellFormed = false := by decide
theorem test_srpg_page_3_is_well_formed : (Instr.srpg .alc true 3).wellFormed = true := by decide
theorem test_srpg_page_4_is_refused :
    refusalOf (exec (.srpg .alc true 4) State.reset) = some .pageOutOfRange := by decide

/-! ### Decoding: one word for each constructor (spec §2.12) -/

theorem test_decode_addrV : decodeWord 0x27753120 = .ok (.addrV .neq 7 5 3 0x12) := by decide
theorem test_decode_addrR : decodeWord 0x26756000 = .ok (.addrR .neq 7 5 6) := by decide
theorem test_decode_subrV : decodeWord 0x27753121 = .ok (.subrV .neq 7 5 3 0x12) := by decide
theorem test_decode_subrR : decodeWord 0x26756001 = .ok (.subrR .neq 7 5 6) := by decide
theorem test_decode_maslV : decodeWord 0x27753122 = .ok (.maslV .neq 7 5 3 0x12) := by decide
theorem test_decode_maslR : decodeWord 0x26756122 = .ok (.maslR .neq 7 5 6 0x12) := by decide
theorem test_decode_masrV : decodeWord 0x27753123 = .ok (.masrV .neq 7 5 3 0x12) := by decide
theorem test_decode_masrR : decodeWord 0x26756123 = .ok (.masrR .neq 7 5 6 0x12) := by decide
theorem test_decode_andbV : decodeWord 0x27753124 = .ok (.andbV .neq 7 5 3 0x12) := by decide
theorem test_decode_andbR : decodeWord 0x26756004 = .ok (.andbR .neq 7 5 6) := by decide
theorem test_decode_orbtV : decodeWord 0x27753125 = .ok (.orbtV .neq 7 5 3 0x12) := by decide
theorem test_decode_orbtR : decodeWord 0x26756005 = .ok (.orbtR .neq 7 5 6) := by decide
theorem test_decode_xorbV : decodeWord 0x27753126 = .ok (.xorbV .neq 7 5 3 0x12) := by decide
theorem test_decode_xorbR : decodeWord 0x26756006 = .ok (.xorbR .neq 7 5 6) := by decide
theorem test_decode_notbV : decodeWord 0x27750007 = .ok (.notbV .neq 7 5) := by decide
theorem test_decode_notbR : decodeWord 0x26750007 = .ok (.notbR .neq 7 5) := by decide
theorem test_decode_arslV : decodeWord 0x27753128 = .ok (.arslV .neq 7 5 3 0x12) := by decide
theorem test_decode_arslR : decodeWord 0x26756008 = .ok (.arslR .neq 7 5 6) := by decide
theorem test_decode_arsrV : decodeWord 0x27753129 = .ok (.arsrV .neq 7 5 3 0x12) := by decide
theorem test_decode_arsrR : decodeWord 0x26756009 = .ok (.arsrR .neq 7 5 6) := by decide
theorem test_decode_losrV : decodeWord 0x2775312A = .ok (.losrV .neq 7 5 3 0x12) := by decide
theorem test_decode_losrR : decodeWord 0x2675600A = .ok (.losrR .neq 7 5 6) := by decide
theorem test_decode_rotlV : decodeWord 0x2775312B = .ok (.rotlV .neq 7 5 3 0x12) := by decide
theorem test_decode_rotlR : decodeWord 0x2675600B = .ok (.rotlR .neq 7 5 6) := by decide
theorem test_decode_rotrV : decodeWord 0x2775312C = .ok (.rotrV .neq 7 5 3 0x12) := by decide
theorem test_decode_rotrR : decodeWord 0x2675600C = .ok (.rotrR .neq 7 5 6) := by decide
theorem test_decode_cmprV : decodeWord 0x2705312D = .ok (.cmprV .neq 5 3 0x12) := by decide
theorem test_decode_cmprR : decodeWord 0x2605600D = .ok (.cmprR .neq 5 6) := by decide
theorem test_decode_testV : decodeWord 0x2705312E = .ok (.testV .neq 5 3 0x12) := by decide
theorem test_decode_testR : decodeWord 0x2605600E = .ok (.testR .neq 5 6) := by decide
theorem test_decode_masiV : decodeWord 0x2775312F = .ok (.masiV .neq 7 5 3 0x12) := by decide
theorem test_decode_masiR : decodeWord 0x2675600F = .ok (.masiR .neq 7 5 6) := by decide
theorem test_decode_noop : decodeWord 0x21000000 = .ok (.noop .neq) := by decide
theorem test_decode_swin : decodeWord 0x211000AB = .ok (.swin .neq 0xAB) := by decide
theorem test_decode_halt : decodeWord 0x21200000 = .ok (.halt .neq) := by decide
theorem test_decode_srpg : decodeWord 0x21300013 = .ok (.srpg .neq true 3) := by decide
theorem test_decode_brch : decodeWord 0x2887FFFD = .ok (.brch .neq 8 0x7FFFD) := by decide
theorem test_decode_brsl : decodeWord 0x2C800123 = .ok (.brsl .neq 8 false 0x123) := by decide
theorem test_decode_brss : decodeWord 0x2D880123 = .ok (.brss .neq 8 true 0x123) := by decide
theorem test_decode_brrl : decodeWord 0x2E000000 = .ok (.brrl .neq false) := by decide
theorem test_decode_brrs : decodeWord 0x2F080000 = .ok (.brrs .neq true) := by decide
theorem test_decode_movv : decodeWord 0x25F9BEEF = .ok (.movv .neq 15 9 0xBEEF) := by decide
theorem test_decode_movr : decodeWord 0x24F90000 = .ok (.movr .neq 15 9) := by decide
theorem test_decode_swap : decodeWord 0x24F98000 = .ok (.swap .neq 15 9) := by decide
theorem test_decode_load : decodeWord 0x229EFFFE = .ok (.load .neq 9 14 0xFFFE) := by decide
theorem test_decode_stor : decodeWord 0x239E7FFF = .ok (.stor .neq 9 14 0x7FFF) := by decide

/-- The condition codes 0x0 to 0xE, on the word of `noop` (R110). -/
theorem test_decode_conditions :
    [0x01000000, 0x11000000, 0x21000000, 0x31000000, 0x41000000, 0x51000000, 0x61000000, 0x71000000, 0x81000000,
      0x91000000, 0xA1000000, 0xB1000000, 0xC1000000, 0xD1000000, 0xE1000000].map (fun w => (decodeWord w).toOption) =
    [Cond.alc, .eql, .neq, .hos, .low, .neg, .poz, .ovf, .nov, .hig, .los, .get, .let_, .grt, .lst].map
      (fun c => some (.noop c)) := by decide

/-- The word as the host numbers it, through the bytes in memory order. -/
theorem test_decode_table_word : decodeTableWord 32 0x25F9BEEF = some (.movv .neq 15 9 0xBEEF) := by decide
/-- The byte order of the image, log entry 4. -/
theorem test_encode_bytes : encodeBytes (.movv .neq 15 9 0xBEEF) = [0xEF, 0xBE, 0xF9, 0x25] := by decide
theorem test_decode_truncated : decode [0xEF, 0xBE, 0xF9] = .error .truncated := by decide

/-! ### Reserved encodings (R96, R97, R112; spec §2.1, §2.5, §2.6, §2.8, §2.9) -/

theorem test_reserved_condition_F : decodeWord 0xF5400001 = .error .conditionF := by decide
theorem test_reserved_format_0 : decodeWord 0x00FFFFFF = .error .noFormat := by decide
theorem test_reserved_core_4 : decodeWord 0x01400000 = .error .coreOperation := by decide
theorem test_reserved_core_15 : decodeWord 0x01F00000 = .error .coreOperation := by decide
theorem test_reserved_branch_0_s0_l1 : decodeWord 0x09000000 = .error .branchSelectors := by decide
theorem test_reserved_branch_s1_l0 : decodeWord 0x0A000000 = .error .branchSelectors := by decide
theorem test_reserved_branch_s1_l1 : decodeWord 0x0B000000 = .error .branchSelectors := by decide
theorem test_reserved_brch_i : decodeWord 0x08080000 = .error .nonCanonical := by decide
theorem test_reserved_brrl_off : decodeWord 0x0E000001 = .error .nonCanonical := by decide
theorem test_reserved_brrs_base : decodeWord 0x0F100000 = .error .nonCanonical := by decide
theorem test_reserved_mov_bit_0 : decodeWord 0x04568001 = .error .nonCanonical := by decide
theorem test_reserved_noop_data : decodeWord 0x01000001 = .error .nonCanonical := by decide
theorem test_reserved_halt_data : decodeWord 0x01200001 = .error .nonCanonical := by decide
theorem test_reserved_swin_bit_8 : decodeWord 0x01100100 = .error .nonCanonical := by decide
theorem test_reserved_srpg_bit_5 : decodeWord 0x01300020 = .error .nonCanonical := by decide
theorem test_reserved_srpg_page_4 : decodeWord 0x01300004 = .error .pageOutOfRange := by decide
theorem test_reserved_addr_value : decodeWord 0x06756010 = .error .nonCanonical := by decide
theorem test_reserved_cmpr_destination : decodeWord 0x0715005D = .error .nonCanonical := by decide
theorem test_reserved_notb_term_b : decodeWord 0x06756007 = .error .nonCanonical := by decide

/-! ### One step of each instruction

The ALU, register form (spec §2.2, §2.4): Term A is Xx, Term B is Xy, the result Xz; what is seen is Xz and CS. -/

theorem test_addrR : seen 0x06756000 (st 0 [(5, 0x80000000), (6, 0xFFFFFFFF)]) (fun t => (t.paged 0 7, t.cs)) = some (0x7FFFFFFF, 0x9) := by
  decide
theorem test_addrR_inhibited : seen 0x06756000 (st 0x10 [(5, 0xFFFFFFFF), (6, 1)]) (fun t => (t.paged 0 7, t.cs)) = some (0, 0x10) := by
  decide
theorem test_subrR : seen 0x06756001 (st 0 [(5, 0x7FFFFFFF), (6, 0xFFFFFFFF)]) (fun t => (t.paged 0 7, t.cs)) = some (0x80000000, 0x3) := by
  decide
theorem test_subrR_borrow : seen 0x06756001 (st 0 [(5, 3), (6, 5)]) (fun t => (t.paged 0 7, t.cs)) = some (0xFFFFFFFE, 0x2) := by
  decide
theorem test_maslR : seen 0x06756F02 (st 0 [(5, 0xAB), (6, 0x28)]) (fun t => (t.paged 0 7, t.cs)) = some (0xA000, 0) := by
  decide
theorem test_masrR : seen 0x06756803 (st 0x20 [(5, 0xFFFFFFFF), (6, 0x1F)]) (fun t => (t.paged 0 7, t.cs)) = some (1, 0x20) := by
  decide
theorem test_andbR : seen 0x06756004 (st 0x9 [(5, 0xF0F0F0F0), (6, 0xFF00FF00)]) (fun t => (t.paged 0 7, t.cs)) = some (0xF000F000, 0xB) := by
  decide
theorem test_orbtR : seen 0x06756005 (st 0 [(5, 0xF0F0F0F0), (6, 0x0F0F0F0F)]) (fun t => (t.paged 0 7, t.cs)) = some (0xFFFFFFFF, 0x2) := by
  decide
theorem test_xorbR : seen 0x06756006 (st 0 [(5, 0xAAAAAAAA), (6, 0xFFFFFFFF)]) (fun t => (t.paged 0 7, t.cs)) = some (0x55555555, 0) := by
  decide
theorem test_notbR : seen 0x06750007 (st 0 [(5, 0xFFFFFFFF)]) (fun t => (t.paged 0 7, t.cs)) = some (0, 0x4) := by
  decide
theorem test_arslR : seen 0x06756008 (st 0xF [(5, 1), (6, 1)]) (fun t => (t.paged 0 7, t.cs)) = some (2, 0x9) := by
  decide
theorem test_arslR_by_33 : seen 0x06756008 (st 0 [(5, 1), (6, 0x21)]) (fun t => (t.paged 0 7, t.cs)) = some (2, 0) := by
  decide
theorem test_arsrR : seen 0x06756009 (st 0 [(5, 0x80000000), (6, 1)]) (fun t => (t.paged 0 7, t.cs)) = some (0xC0000000, 0x2) := by
  decide
theorem test_losrR : seen 0x0675600A (st 0 [(5, 0x80000000), (6, 0x1F)]) (fun t => (t.paged 0 7, t.cs)) = some (1, 0) := by
  decide
theorem test_losrR_by_32 : seen 0x0675600A (st 0 [(5, 0x80000000), (6, 0x20)]) (fun t => (t.paged 0 7, t.cs)) = some (0x80000000, 0x2) := by
  decide
theorem test_rotlR : seen 0x0675600B (st 0 [(5, 0x12345678), (6, 0x24)]) (fun t => (t.paged 0 7, t.cs)) = some (0x23456781, 0) := by
  decide
theorem test_rotrR : seen 0x0675600C (st 0 [(5, 0x12345678), (6, 0x1C)]) (fun t => (t.paged 0 7, t.cs)) = some (0x23456781, 0) := by
  decide
theorem test_cmprR : seen 0x0605600D (st 0 [(5, 0x80000000), (6, 0x7FFFFFFF)]) (fun t => (t.paged 0 7, t.cs)) = some (0, 0x9) := by
  decide
theorem test_testR : seen 0x0605600E (st 0 [(5, 0xF0), (6, 0x0F)]) (fun t => (t.paged 0 7, t.cs)) = some (0, 0x4) := by
  decide
theorem test_masiR : seen 0x0675600F (st 0 [(5, 0xFFFFFFFF), (6, 0xFFFF)]) (fun t => (t.paged 0 7, t.cs)) = some (0xFFFF0000, 0x2) := by
  decide

/-! The ALU, value form (spec §2.3, §2.4; andb, xorb, arsr and rotl worked out from R126, R128, R131, R133). -/

theorem test_addrV : seen 0x07750FF0 (st 0x20 [(5, 5)]) (fun t => (t.paged 0 7, t.cs)) = some (4, 0x28) := by
  decide
theorem test_addrV_unsigned : seen 0x07750FF0 (st 0 [(5, 5)]) (fun t => (t.paged 0 7, t.cs)) = some (0x104, 0) := by
  decide
theorem test_subrV : seen 0x07750011 (st 0 [(5, 0)]) (fun t => (t.paged 0 7, t.cs)) = some (0xFFFFFFFF, 0x2) := by
  decide
theorem test_maslV : seen 0x07752FF2 (st 0x20 [(5, 0x12345678)]) (fun t => (t.paged 0 7, t.cs)) = some (0x23456780, 0x20) := by
  decide
theorem test_maslV_shift_30 : seen 0x0775F0F2 (st 0 [(5, 3)]) (fun t => (t.paged 0 7, t.cs)) = some (0xC0000000, 0x2) := by
  decide
theorem test_masrV : seen 0x07752F03 (st 0x20 [(5, 0x92345678)]) (fun t => (t.paged 0 7, t.cs)) = some (0x09234567, 0x20) := by
  decide
theorem test_andbV : seen 0x07754FF4 (st 0 [(5, 0x12345678)]) (fun t => (t.paged 0 7, t.cs)) = some (0x5600, 0) := by
  decide
theorem test_orbtV : seen 0x07752815 (st 0x20 [(5, 0)]) (fun t => (t.paged 0 7, t.cs)) = some (0xFFFFF810, 0x22) := by
  decide
theorem test_orbtV_unsigned : seen 0x07752815 (st 0 [(5, 0)]) (fun t => (t.paged 0 7, t.cs)) = some (0x810, 0) := by
  decide
theorem test_xorbV : seen 0x07750FF6 (st 0x8 [(5, 0xFF)]) (fun t => (t.paged 0 7, t.cs)) = some (0, 0xC) := by
  decide
theorem test_notbV : seen 0x07750007 (st 0 [(5, 0xFFFF)]) (fun t => (t.paged 0 7, t.cs)) = some (0xFFFF0000, 0x2) := by
  decide
theorem test_arslV : seen 0x07750018 (st 0 [(5, 0xE)]) (fun t => (t.paged 0 7, t.cs)) = some (0x1C, 0) := by
  decide
theorem test_arsrV : seen 0x07750049 (st 0 [(5, 0xFFFFFFF0)]) (fun t => (t.paged 0 7, t.cs)) = some (0xFFFFFFFF, 0x2) := by
  decide
theorem test_losrV : seen 0x077501FA (st 0 [(5, 0x80000000)]) (fun t => (t.paged 0 7, t.cs)) = some (1, 0) := by
  decide
theorem test_rotlV : seen 0x0775008B (st 0 [(5, 0x12345678)]) (fun t => (t.paged 0 7, t.cs)) = some (0x34567812, 0) := by
  decide
theorem test_rotrV : seen 0x0775004C (st 0 [(5, 0xF)]) (fun t => (t.paged 0 7, t.cs)) = some (0xF0000000, 0x2) := by
  decide
theorem test_cmprV : seen 0x0705005D (st 0 [(5, 5)]) (fun t => (t.paged 0 7, t.cs)) = some (0, 0xC) := by
  decide
theorem test_testV : seen 0x0705C80E (st 0 [(5, 0x80000000)]) (fun t => (t.paged 0 7, t.cs)) = some (0, 0x2) := by
  decide
theorem test_masiV : seen 0x077500FF (st 0 [(5, 0xFF)]) (fun t => (t.paged 0 7, t.cs)) = some (0xF0, 0) := by
  decide

/-! A condition, and the result that wins over the flag update and over the advance (spec §2.1, §2.10). -/

theorem test_condition_fails : seen 0x25400001 (st 4 []) (fun t => (t.paged 0 4, t.ip)) = some (0, 0x11) := by
  decide
theorem test_result_wins_over_flags : seen 0x06222006 (st 0x30A []) (fun t => (t.cs, t.ip)) = some (0, 0x11) := by
  decide
theorem test_result_wins_over_advance : seen 0x07000040 (st 0 []) (fun t => (t.ip, t.cs)) = some (0x14, 0) := by
  decide

/-! Register transfer (spec §2.5, §2.6). -/

theorem test_movv : seen 0x05418001 (st 0x2F []) (fun t => (t.paged 0 4, t.cs)) = some (0xFFFF0002, 0x2F) := by
  decide
theorem test_movv_paged_where_hidden : seen 0x05000040 (st 0x2080 []) (fun t => (t.paged 2 0, t.ip)) = some (0x40, 0x11) := by
  decide
theorem test_movr_reads_own_address : seen 0x04400000 (st 0 []) (fun t => t.paged 0 4) = some (0x10) := by
  decide
theorem test_movr_to_cs : seen 0x04240000 (st 0 [(4, 0xABCD1325)]) (fun t => (t.cs, t.ip)) = some (0x1325, 0x11) := by
  decide
theorem test_swap : seen 0x04568000 (st 0 [(5, 0x7FFFFFFF), (6, 1)]) (fun t => (t.paged 0 5, t.paged 0 6)) = some (1, 0x7FFFFFFF) := by
  decide
theorem test_swap_with_ip : seen 0x04048000 (st 0 [(4, 0x80)]) (fun t => (t.ip, t.paged 0 4)) = some (0x80, 0x10) := by
  decide
theorem test_movv_of_page_4_to_cs_faults : (run 0x05204000 (st 0 [])).bind faultOf = some .pageOutOfRange := by
  decide

/-! Load and store (spec §2.7). -/

theorem test_load_into_its_base : seen 0x02440000 (st 0 [(4, 0x100)]) (fun t => (t.paged 0 4, t.ip)) = some (0x7FFFFFFF, 0x11) := by
  decide
theorem test_load_address_wraps : seen 0x02450102 (st 0 [(4, 0xFFFFFFFF)]) (fun t => t.paged 0 5) = some (1) := by
  decide
theorem test_stor : seen 0x03470002 (st 0 [(4, 0x100), (7, 0x80000000)]) (fun t => (t.mem.readWord 0x102, t.mem.readWord 0x101)) = some (0x80000000, 1) := by
  decide
theorem test_stor_of_cs : seen 0x03420000 (st 0x34A [(4, 0x100)]) (fun t => t.mem.readWord 0x100) = some (0x34A) := by
  decide

/-! Branches (spec §2.8). -/

theorem test_brch_backward : seen 0x08040000 (st 0x300 []) (fun t => t.ip) = some (0xFFFC0010) := by
  decide
theorem test_brch_from_register : seen 0x0847FFFC (st 0x300 [(4, 0x1234)]) (fun t => t.ip) = some (0x1230) := by
  decide
theorem test_brsl_base_is_link : seen 0x0C300000 ((st 0x300 []).withGl 0x500) (fun t => (t.ip, t.gl)) = some (0x500, 0x11) := by
  decide
theorem test_brsl_masks : seen 0x0C080003 (st 0x540 []) (fun t => (t.ip, t.paged 0 5, t.cs)) = some (0x13, 0x11, 0x500) := by
  decide
theorem test_brss_base_is_sp : seen 0x0D100000 (st 0x300 []) (fun t => (t.ip, t.sp, t.mem.readWord 0x1FF)) = some (0x200, 0x1FF, 0x11) := by
  decide
theorem test_brss_hidden : seen 0x0D000004 (st 0x380 [(0, 0x900)]) (fun t => (t.ip, t.sp, t.mem.readWord 0x1FF)) = some (0x904, 0x1FF, 0x11) := by
  decide
theorem test_brrl : seen 0x0E080000 (st 0x300 []) (fun t => (t.ip, t.gl, t.cs)) = some (0x55, 0x55, 0x340) := by
  decide
theorem test_brrs : seen 0x0F080000 ((st 0x300 []).withSp 0x1FF) (fun t => (t.ip, t.sp, t.cs)) = some (6, 0x200, 0x340) := by
  decide
theorem test_brsl_with_link_sp_is_refused : (run 0x0C000003 (st 0x100 [])).bind refusalOf = some .linkRegister := by
  decide
theorem test_brrl_with_link_cs_is_refused : (run 0x0E000000 (st 0x200 [])).bind refusalOf = some .linkRegister := by
  decide

/-! Core instructions (spec §2.9). -/

theorem test_noop : seen 0x01000000 (st 0x34A []) (fun t => (t.ip, t.cs, t.sp)) = some (0x11, 0x34A, 0x200) := by
  decide
theorem test_swin : seen 0x011000FF ((st 0 []).withPaged 2 0 0xFFFFFF80) (fun t => (t.ip, t.sp, t.mem.readWord 0x1FF)) = some (0x7F, 0x1FF, 0x11) := by
  decide
theorem test_swin_masks : seen 0x01100003 ((st 0x40 []).withPaged 2 0 0x40) (fun t => (t.ip, t.cs)) = some (0x43, 0) := by
  decide
theorem test_halt : seen 0x01200000 (st 0 []) (fun t => (t.halted, t.ip)) = some (true, 0x11) := by
  decide
theorem test_halt_condition_fails : seen 0x21200000 (st 4 []) (fun t => (t.halted, t.ip)) = some (false, 0x11) := by
  decide
theorem test_srpg : seen 0x01300012 (st 0 []) (fun t => t.cs) = some (0x2080) := by
  decide
theorem test_srpg_keeps_the_rest : seen 0x01300000 (st 0x23CA []) (fun t => t.cs) = some (0x34A) := by
  decide

/-! ### The step: interrupt entry (spec §2.11), fetch, halt -/

/-- The start of the spec's interrupt vectors, with one request pending. -/
def irq (cs : Word) (k : Priority) (id : IrqId) : State :=
  let s := (((st cs []).withPaged 2 0 0x40).withPaged 2 1 0x140).withPaged 2 2 0x80
  ((s.withPaged 2 3 0x180).withIp 0x20).withRequests [⟨k, id⟩] []

theorem test_entry_low : (nextOf (step (irq 0x134A .low 7))).map (fun t => (t.ip, t.cs, t.sp, t.mem.readWord 0x1FF, t.pending)) = some (0x47, 0x130A, 0x1FF, 0x20, []) := by
  decide
theorem test_entry_medium : (nextOf (step (irq 0x340 .medium 0))).map (fun t => (t.ip, t.cs, t.sp)) = some (0x140, 0x300, 0x1FF) := by
  decide
theorem test_entry_high : (nextOf (step (irq 0x23C0 .high 1))).map (fun t => (t.ip, t.cs, t.paged 2 3, t.sp)) = some (0x81, 0x2380, 0x20, 0x200) := by
  decide
theorem test_entry_extreme : (nextOf (step (irq 0x340 .extreme 255))).map (fun t => (t.ip, t.cs, t.gl, t.sp)) = some (0x27F, 0x300, 0x20, 0x200) := by
  decide
theorem test_highest_priority_first : (nextOf (step ((irq 0x340 .low 0).withRequests [⟨.medium, 4⟩, ⟨.extreme, 2⟩] []))).map (fun t => t.ip) = some (0x182) := by
  decide
theorem test_masked_request_waits : (nextOf (step (((irq 0x300 .extreme 1).withFetchWord 32 0x01000000)))).map (fun t => t.ip) = some (0x21) := by
  decide
theorem test_entry_with_link_cs_faults : faultOf (step (irq 0x240 .high 1)) = some .linkRegister := by decide
theorem test_reset_step_is_refused : refusalOf (step State.reset) = some (.reservedEncoding .noFormat) := by decide
theorem test_halted_step_faults : faultOf (step (State.reset.withHalted true)) = some .halted := by decide
theorem test_placed_word_runs :
    (nextOf (step (State.reset.withFetchWord 32 0x05401234))).map (fun t => (t.paged 0 4, t.ip)) = some (0x1234, 1) := by
  decide

/-! ### Witnesses: for every obligation with hypotheses, a state and operands that meet them -/

/-- `s` on a platform whose map has the one region given: an edge of it is where the statements' clauses meet. -/
def on (base size : Nat) (k : RegionKind) (s : State) : State := { s with map := [⟨base, size, k⟩] }

/-- `s` on a platform with nothing mapped. -/
def onNothing (s : State) : State := { s with map := [] }

/-- The instruction runs with Xx and Xy as given. -/
def runs (x : Instr × Word × Word) : Bool := (nextOf (exec x.1 (st 0 [(5, x.2.1), (6, x.2.2)]))).isSome

/-- The same, and it faults for the page that CS would get. -/
def faultsForPage (x : Instr × Word × Word) : Bool :=
  faultOf (exec x.1 (st 0 [(5, x.2.1), (6, x.2.2)])) = some .pageOutOfRange

theorem witness_DecodingAnEncodedInstructionGivesItBack :
    (Instr.srpg .lst true 3).wellFormed = true ∧ (Instr.brss .alc 15 true 0x7FFFF).wellFormed = true := by decide

theorem witness_EncodingADecodedWordGivesItBack :
    decodeWord 0xE1300013 = .ok (.srpg .lst true 3) ∧ decodeWord 0x0DFFFFFF = .ok (.brss .alc 15 true 0x7FFFF) := by decide

theorem witness_DecodableWordsAreTheCanonicalTableWords :
    decodeWord 0x01300013 = .ok (.srpg .alc true 3) ∧ decodeWord 0x01300014 = .error .pageOutOfRange := by decide

theorem witness_OpcodeTableRowsDoNotOverlap :
    ∃ r ∈ opcodeTable, ∃ q ∈ opcodeTable, r.selects 0x01300013 = true ∧ q.selects 0x01300013 = true := by decide

theorem witness_ConditionFIsReserved :
    field 0xF5400001 28 4 = 0xF#4 ∧ fetches (State.reset.withFetchWord 32 0xF5400001) ∧
    field ((State.reset.withFetchWord 32 0xF5400001).mem.readWord (State.reset.withFetchWord 32 0xF5400001).ip) 28 4 = 0xF#4 := by
  unfold fetches; decide

theorem witness_ReservedEncodingsAreRefused :
    fetches State.reset ∧ decodeWord (State.reset.mem.readWord State.reset.ip) = .error .noFormat := by
  unfold fetches; decide

theorem witness_StepRunsTheDecodedInstruction :
    fetches (State.reset.withFetchWord 32 0x01000000) ∧ decode (bytesAt (State.reset.withFetchWord 32 0x01000000).mem (State.reset.withFetchWord 32 0x01000000).ip) = .ok (.noop .alc, []) := by
  unfold fetches; decide

theorem witness_PlacedInstructionIsTheOneThatRuns :
    decodeTableWord 32 0x01300013 = some (.srpg .alc true 3) := by decide

theorem witness_WrittenWordsAreNotExecutedIncoherently :
    (State.reset.withMem [] [0]).halted = false ∧ requestToTake (State.reset.withMem [] [0]) = none ∧ (State.reset.withMem [] [0]).ifetchCoherent = false ∧
    (State.reset.withMem [] [0]).ip.toNat ∈ (State.reset.withMem [] [0]).written := by decide

theorem witness_IncoherentRunsExecuteTheOriginalCode :
    ∃ t w u, (State.reset.withFetchWord 32 0x01000000).written = [] ∧ (State.reset.withFetchWord 32 0x01000000).ifetchCoherent = false ∧
    Reaches (State.reset.withFetchWord 32 0x01000000) t ∧ kindAt t.map t.ip ≠ some .device ∧
    fetch (nextBoundary t) = .next (w, u) := 
  ⟨_, _, _, rfl, rfl, .step (.refl _) rfl, by decide, rfl⟩

theorem witness_FailedConditionOnlyAdvances :
    condHolds (Instr.cond (.movv .eql 4 0 1)) (st 0 []).cs = false := by decide

theorem witness_ConditionsAfterCompareOrderTheOperands :
    condHolds .alc (st 0 []).cs = true ∧ csInhibit (st 0 []).cs = false ∧
    regName (st 0 []).cs 5 = some (.paged 0 5) ∧ regName (st 0 []).cs 1 = some .sp := by decide

theorem witness_InhibitedAluLeavesTheFlags :
    isAlu (.addrR .alc 7 5 6) ∧ isAlu (.testV .alc 5 0 1) ∧ csInhibit (st 0x10 []).cs = true ∧
    RegName.cs ∉ destinations (.addrR .alc 7 5 6) (st 0x10 []) ∧
    (nextOf (exec (.addrR .alc 7 5 6) (st 0x10 []))).isSome = true ∧
    (nextOf (exec (.cmprV .alc 5 0 1) (st 0x10 []))).isSome = true ∧
    (nextOf (exec (.cmprR .alc 5 6) (st 0x10 []))).isSome = true ∧
    (nextOf (exec (.testV .alc 5 0 1) (st 0x10 []))).isSome = true ∧
    (nextOf (exec (.testR .alc 5 6) (st 0x10 []))).isSome = true := by
  unfold isAlu; decide

theorem witness_RegisterNumbersNameTheMappedRegisters :
    csHide 0x3000 = false ∧ csHide 0x3080 = true ∧ (csPage 0x3080).toNat = (3 : Fin 4).val ∧
    (csPage 0x3000).toNat = (3 : Fin 4).val ∧ 4 ≤ (4 : RegNum).toNat := by decide

theorem witness_MissingPagesFault :
    condHolds .alc 0x4000 = true ∧ 4 ≤ (csPage 0x4000).toNat ∧ 4 ≤ (4 : RegNum).toNat ∧
    4 ≤ (csPage 0xF080).toNat ∧ csHide 0xF080 = true ∧ (4 : RegNum) = csLink 0x4400 ∧
    4 ≤ (csPage 0x4400).toNat ∧ (0 : RegNum) = csLink 0xF080 := by decide

theorem witness_EveryStepKeepsTheInvariant :
    (State.reset.withFetchWord 32 0x01000000).Inv ∧ (nextOf (step (State.reset.withFetchWord 32 0x01000000))).isSome = true := 
  ⟨⟨by decide, by decide, by decide, by decide⟩, by decide⟩

/-! The ALU and the transfers, with the destination a register of a page and CS, at the last page that CS takes and the
first that it does not. -/

/-- The hypotheses that the statements of the ALU operations and of the transfers share. -/
theorem witness_alu_operands :
    condHolds .alc (st 0 []).cs = true ∧ regName (st 0 []).cs 7 = some (.paged 0 7) ∧
    regName (st 0 []).cs 2 = some .cs ∧ regName (st 0 []).cs 5 = some (.paged 0 5) ∧
    regName (st 0 []).cs 6 = some (.paged 0 6) := by decide

theorem witness_AddAndSubtractWriteResultAndFlags :
    ([(.addrR .alc 2 5 6, 0x3FFE, 1),
      (.addrV .alc 2 5 0 1, 0x3FFE, 0),
      (.subrR .alc 2 5 6, 0x4000, 1),
      (.subrV .alc 2 5 0 1, 0x4000, 0)] : List (Instr × Word × Word)).all runs = true ∧
    ([(.addrR .alc 2 5 6, 0x3FFF, 1),
      (.addrV .alc 2 5 0 1, 0x3FFF, 0),
      (.subrR .alc 2 5 6, 0x4001, 1),
      (.subrV .alc 2 5 0 1, 0x4001, 0)] : List (Instr × Word × Word)).all faultsForPage = true := by decide

theorem witness_LogicalOperationsWriteResultAndZN :
    ([(.andbR .alc 2 5 6, 0x3FFF, 0xFFFF),
      (.andbV .alc 2 5 7 1, 0x3FFF, 0),
      (.orbtR .alc 2 5 6, 0x3FFF, 0),
      (.orbtV .alc 2 5 0 1, 0x3FFF, 0),
      (.xorbR .alc 2 5 6, 0x3FFF, 0),
      (.xorbV .alc 2 5 0 1, 0x3FFF, 0),
      (.masiR .alc 2 5 6, 0x3FFF, 0),
      (.masiV .alc 2 5 0 1, 0x3FFF, 0),
      (.notbR .alc 2 5, 0xFFFFC000, 0),
      (.notbV .alc 2 5, 0xFFFFC000, 0)] : List (Instr × Word × Word)).all runs = true ∧
    ([(.andbR .alc 2 5 6, 0x4000, 0xFFFF),
      (.andbV .alc 2 5 7 1, 0x4000, 0),
      (.orbtR .alc 2 5 6, 0x4000, 0),
      (.orbtV .alc 2 5 0 1, 0x4000, 0),
      (.xorbR .alc 2 5 6, 0x4000, 0),
      (.xorbV .alc 2 5 0 1, 0x4000, 0),
      (.masiR .alc 2 5 6, 0x4000, 0),
      (.masiV .alc 2 5 0 1, 0x4000, 0),
      (.notbR .alc 2 5, 0xFFFFBFFF, 0),
      (.notbV .alc 2 5, 0xFFFFBFFF, 0)] : List (Instr × Word × Word)).all faultsForPage = true := by decide

theorem witness_ShiftsWriteResultAndZN :
    ([(.arslR .alc 2 5 6, 0x1FFF, 1),
      (.arslV .alc 2 5 0 1, 0x1FFF, 0),
      (.arsrR .alc 2 5 6, 0x7FFF, 1),
      (.arsrV .alc 2 5 0 1, 0x7FFF, 0),
      (.losrR .alc 2 5 6, 0x7FFF, 1),
      (.losrV .alc 2 5 0 1, 0x7FFF, 0)] : List (Instr × Word × Word)).all runs = true ∧
    ([(.arslR .alc 2 5 6, 0x2000, 1),
      (.arslV .alc 2 5 0 1, 0x2000, 0),
      (.arsrR .alc 2 5 6, 0x8000, 1),
      (.arsrV .alc 2 5 0 1, 0x8000, 0),
      (.losrR .alc 2 5 6, 0x8000, 1),
      (.losrV .alc 2 5 0 1, 0x8000, 0)] : List (Instr × Word × Word)).all faultsForPage = true := by decide

theorem witness_RotatesWriteResultAndZN :
    ([(.rotlR .alc 2 5 6, 0x1FFF, 1),
      (.rotlV .alc 2 5 0 1, 0x1FFF, 0),
      (.rotrR .alc 2 5 6, 0x7FFE, 1),
      (.rotrV .alc 2 5 0 1, 0x7FFE, 0)] : List (Instr × Word × Word)).all runs = true ∧
    ([(.rotlR .alc 2 5 6, 0x2000, 1),
      (.rotlV .alc 2 5 0 1, 0x2000, 0),
      (.rotrR .alc 2 5 6, 0x8000, 1),
      (.rotrV .alc 2 5 0 1, 0x8000, 0)] : List (Instr × Word × Word)).all faultsForPage = true := by decide

theorem witness_MaskAndShiftsWriteResultAndZN :
    ([(.maslR .alc 2 5 6 0xFF, 0x3, 12),
      (.maslV .alc 2 5 6 0xFF, 0x3, 0)] : List (Instr × Word × Word)).all runs = true ∧
    ([(.maslR .alc 2 5 6 0xFF, 0x4, 12),
      (.maslV .alc 2 5 6 0xFF, 0x4, 0)] : List (Instr × Word × Word)).all faultsForPage = true := by decide

/-- `masr` reaches page 4 with CS.x = 1 alone. -/
theorem witness_masr_to_cs :
    (nextOf (exec (.masrV .alc 2 5 0 0xFF) (st 0x20 [(5, 0x3FFF)]))).isSome = true ∧
    faultOf (exec (.masrV .alc 2 5 0 0xFF) (st 0x20 [(5, 0x4000)])) = some .pageOutOfRange ∧
    (nextOf (exec (.masrR .alc 2 5 6 0x80) (st 0x20 [(5, 0x3FFF), (6, 0)]))).isSome = true ∧
    faultOf (exec (.masrR .alc 2 5 6 0x80) (st 0x20 [(5, 0x4000), (6, 0)])) = some .pageOutOfRange := by decide

theorem witness_CompareAndTestWriteFlagsAlone :
    condHolds .grt (st 0 []).cs = true ∧ regName (st 0 []).cs 0 = some .ip ∧ regName (st 0 []).cs 15 = some (.paged 0 15) := by decide

theorem witness_ShiftsAreMultiplicationAndDivision :
    (0 : Nat) < 32 ∧ (31 : Nat) < 32 ∧ ¬(32 : Nat) < 32 := by decide

theorem witness_LoadValueWritesTheShiftedValue :
    runs (.movv .alc 2 0 0x3FFF, 0, 0) = true ∧ faultsForPage (.movv .alc 2 0 0x4000, 0, 0) = true ∧
    runs (.movv .alc 15 15 0xFFFF, 0, 0) = true := by decide

theorem witness_MoveCopiesTheSource :
    ([(.movr .alc 2 5, 0x3FFF, 0)] : List (Instr × Word × Word)).all runs = true ∧
    ([(.movr .alc 2 5, 0x4000, 0)] : List (Instr × Word × Word)).all faultsForPage = true := by decide

theorem witness_SwapExchangesTheRegisters :
    runs (.swap .alc 2 5, 0x3FFF, 0) = true ∧ runs (.swap .alc 5 2, 0x3FFF, 0) = true ∧
    faultsForPage (.swap .alc 2 5, 0x4000, 0) = true ∧ faultsForPage (.swap .alc 5 2, 0x4000, 0) = true ∧
    runs (.swap .alc 5 6, 0x4000, 0) = true := by decide

/-! Branches, load and store, the stack: each kind of memory at the address used, from the edge of a region. -/

theorem witness_BranchGoesToBasePlusOffset :
    condHolds .alc (st 0 []).cs = true ∧ regName (st 0 []).cs 0 = some .ip := by decide

theorem witness_BranchSavesToLink :
    condHolds .alc (st 0x300 []).cs = true ∧ regName (st 0x300 []).cs 0 = some .ip ∧
    regName 0x300 (csLink 0x300) = some .gl ∧ regName 0x500 (csLink 0x500) = some (.paged 0 5) ∧
    regName 0x080 (csLink 0x080) = some (.paged 0 0) ∧ regName 0 (csLink 0) = some .ip ∧
    regName 0x100 (csLink 0x100) = some .sp ∧ regName 0x200 (csLink 0x200) = some .cs := by decide

theorem witness_BranchSavesToStack :
    condHolds .alc (st 0 []).cs = true ∧ regName (st 0 []).cs 0 = some .ip ∧ (st 0 []).sp - 1 = 0x1FF ∧ 
    kindAt (on 0x1FF 1 .ram (st 0 [])).map 0x1FF = some .ram ∧ kindAt (on 0x1FF 1 .device (st 0 [])).map 0x1FF = some .device ∧
    kindAt (on 0x1FF 1 .rom (st 0 [])).map 0x1FF = some .rom ∧ kindAt (onNothing (st 0 [])).map 0x1FF = none := by decide

theorem witness_ReturnFromLink :
    condHolds .alc (st 0x300 []).cs = true ∧ regName (st 0x300 []).cs (csLink 0x300) = some .gl ∧
    regName (st 0x280 []).cs (csLink 0x280) = some (.paged 0 2) ∧ regName (st 0 []).cs (csLink 0) = some .ip ∧
    regName (st 0x100 []).cs (csLink 0x100) = some .sp ∧ regName (st 0x200 []).cs (csLink 0x200) = some .cs := by decide

theorem witness_ReturnFromLinkIsABranchThroughIt :
    condHolds .eql (st 0x200 []).cs = false ∧ csHide (st 0x280 []).cs = true ∧ 3 ≤ (csLink (st 0x300 []).cs).toNat ∧
    condHolds .alc (st 0x200 []).cs = true ∧ csHide (st 0x200 []).cs = false ∧ (csLink (st 0x200 []).cs).toNat < 3 := by decide

theorem witness_ReturnFromStack :
    condHolds .alc (st 0 []).cs = true ∧ (st 0 []).sp = 0x200 ∧
    kindAt (on 0x200 1 .ram (st 0 [])).map 0x200 = some .ram ∧ kindAt (on 0x200 1 .device (st 0 [])).map 0x200 = some .device ∧
    kindAt (on 0x200 1 .rom (st 0 [])).map 0x200 = some .rom ∧ kindAt (onNothing (st 0 [])).map 0x200 = none := by decide

theorem witness_LoadReadsTheWord :
    condHolds .alc (st 0 []).cs = true ∧ regName (st 0 []).cs 1 = some .sp ∧ regName (st 0 []).cs 2 = some .cs ∧
    regName (st 0 []).cs 5 = some (.paged 0 5) ∧ (st 0 []).get .sp + (0xFFFF#16).signExtend 32 = 0x1FF ∧
    kindAt (on 0x1FF 1 .ram (st 0 [])).map 0x1FF = some .ram ∧ kindAt (on 0x1FF 1 .device (st 0 [])).map 0x1FF = some .device ∧
    kindAt (on 0x1FF 1 .rom (st 0 [])).map 0x1FF = some .rom ∧ kindAt (onNothing (st 0 [])).map 0x1FF = none := by decide

theorem witness_StoreWritesTheWord :
    condHolds .alc (st 0 []).cs = true ∧ regName (st 0 []).cs 1 = some .sp ∧ regName (st 0 []).cs 2 = some .cs ∧
    (st 0 []).get .sp + (0xFFFF#16).signExtend 32 = 0x1FF ∧
    kindAt (on 0x1FF 1 .ram (st 0 [])).map 0x1FF = some .ram ∧ kindAt (on 0x1FF 1 .device (st 0 [])).map 0x1FF = some .device ∧
    kindAt (on 0x1FF 1 .rom (st 0 [])).map 0x1FF = some .rom ∧ kindAt (onNothing (st 0 [])).map 0x1FF = none := by decide

theorem witness_ReadsSeeTheLatestWrite :
    ∃ t, kindAt (st 0 []).map 0xFFFFFFFF = some .ram ∧ kindAt (st 0 []).map 0 = some .ram ∧
    memWrite (st 0 []) 0xFFFFFFFF 7 = .ok t := ⟨_, by decide, by decide, rfl⟩

theorem witness_PushAndPopAreAFullDescendingStack :
    kindAt (on 0x1FF 2 .ram (st 0 [])).map ((st 0 []).sp - 1) = some .ram ∧
    kindAt (on 0x1FF 2 .ram (st 0 [])).map (st 0 []).sp = some .ram ∧
    kindAt (on 0x200 1 .rom (st 0 [])).map (st 0 []).sp = some .rom := by decide

/-! Core instructions and interrupts. -/

theorem witness_NoopOnlyAdvances :
    condHolds .neq (st 0 []).cs = true := by decide

theorem witness_SoftwareInterruptEntersThroughH0 :
    condHolds .alc (st 0 []).cs = true ∧ (st 0 []).sp - 1 = 0x1FF ∧ 
    kindAt (on 0x1FF 1 .ram (st 0 [])).map 0x1FF = some .ram ∧ kindAt (on 0x1FF 1 .device (st 0 [])).map 0x1FF = some .device ∧
    kindAt (on 0x1FF 1 .rom (st 0 [])).map 0x1FF = some .rom ∧ kindAt (onNothing (st 0 [])).map 0x1FF = none := by decide

theorem witness_HaltStopsTheCore :
    condHolds .alc (st 0 []).cs = true ∧ (State.reset.withHalted true).halted = true := by decide

theorem witness_SetPageWritesPageAndHide :
    condHolds .alc (st 0 []).cs = true ∧ (3 : BitVec 4).toNat < 4 ∧ 4 ≤ (4 : BitVec 4).toNat := by decide

theorem witness_TakenRequestHasTheHighestPriority :
    csAllow (irq 0x300 .low 1).cs = false ∧ csAllow (irq 0x340 .low 1).cs = true ∧
    (irq 0x340 .low 1).pending ≠ [] ∧ (st 0x340 []).pending = [] ∧ csAllow (st 0x340 []).cs = true := by decide

theorem witness_InterruptEntryThroughTheStack :
    (irq 0x340 .low 1).halted = false ∧ requestToTake (irq 0x340 .low 1) = some ⟨.low, 1⟩ ∧
    requestToTake (irq 0x340 .medium 1) = some ⟨.medium, 1⟩ ∧ (irq 0x340 .low 1).sp - 1 = 0x1FF ∧
    kindAt (on 0x1FF 1 .ram (irq 0x340 .low 1)).map 0x1FF = some .ram ∧ kindAt (on 0x1FF 1 .device (irq 0x340 .low 1)).map 0x1FF = some .device ∧
    kindAt (on 0x1FF 1 .rom (irq 0x340 .low 1)).map 0x1FF = some .rom ∧ kindAt (onNothing (irq 0x340 .low 1)).map 0x1FF = none := by decide

theorem witness_InterruptEntryThroughTheLink :
    (irq 0x340 .high 1).halted = false ∧ requestToTake (irq 0x340 .high 1) = some ⟨.high, 1⟩ ∧
    requestToTake (irq 0x340 .extreme 1) = some ⟨.extreme, 1⟩ ∧ regName 0x340 (csLink 0x340) = some .gl ∧
    regName 0x40 (csLink 0x40) = some .ip ∧ regName 0x140 (csLink 0x140) = some .sp ∧
    regName 0x240 (csLink 0x240) = some .cs := by decide

theorem witness_MaskedRequestsDoNotMatter :
    csAllow (irq 0x300 .low 1).cs = false := by decide

theorem witness_ReturnUndoesTheEntry :
    kindAt (st 0x340 []).map ((st 0x340 []).sp - 1) = some .ram ∧
    regName (st 0x340 []).cs (csLink (st 0x340 []).cs) = some .gl ∧
    RegName.gl ≠ .ip ∧ RegName.gl ≠ .sp ∧ RegName.gl ≠ .cs := by decide

/-! Frames and the rules over the whole machine. -/

theorem witness_InstructionsStoreAtMostOneWord :
    (nextOf (exec (.noop .alc) (st 0 []))).isSome = true ∧ storeAddress (.noop .alc) (st 0 []) = none ∧
    (nextOf (exec (.stor .alc 1 5 0xFFFF) (st 0 []))).isSome = true ∧
    storeAddress (.stor .alc 1 5 0xFFFF) (st 0 []) = some 0x1FF ∧ ¬(4 * 0x1FF ≤ 4 * 0x1FF + 4 ∧ 4 * 0x1FF + 4 < 4 * 0x1FF + 4) := by decide

theorem witness_InstructionsLeaveOtherRegisters :
    (nextOf (exec (.swap .alc 5 6) (st 0 []))).isSome = true ∧
    RegName.paged 0 7 ∉ destinations (.swap .alc 5 6) (st 0 []) ∧ RegName.gl ∉ destinations (.swap .alc 5 6) (st 0 []) := by decide

theorem witness_InstructionsLeaveOtherCsBits :
    (nextOf (exec (.brrs .alc true) (st 0 []))).isSome = true ∧
    RegName.cs ∉ destinations (.brrs .alc true) (st 0 []) := by decide

theorem witness_InstructionsLeaveThePlatform :
    (nextOf (exec (.brrs .alc true) (st 0 []))).isSome = true ∧ storeAddress (.brrs .alc true) (st 0 []) = none ∧
    (nextOf (exec (.noop .alc) ((st 0 []).withHalted true))).isSome = true := by decide

theorem witness_InstructionsIgnoreOtherPages :
    (csPage (st 0x1000 []).cs).toNat ≠ (2 : Fin 4).val ∧ ¬((2 : Fin 4) = 2 ∧ (1 : RegNum) = 0) := by decide

theorem witness_WhileHiddenOnlySrpgChangesThePage :
    csHide ((st 0x80 []).withFetchWord 32 0x01300001).cs = true ∧
    (nextOf (step ((st 0x80 []).withFetchWord 32 0x01300001))).map (fun t => (csHide t.cs, csPage t.cs)) = some (false, 1) := by decide

theorem witness_RunsChangeRamAlone :
    ∃ t, Reaches (on 0x10 1 .rom ((st 0x80 []).withFetchWord 32 0x01300001)) t ∧ kindAt (on 0x10 1 .rom ((st 0x80 []).withFetchWord 32 0x01300001)).map 0x10 ≠ some .ram := 
  ⟨_, .step (.refl _) rfl, by decide⟩


end Sys2Proof.Tests
end

section
/-! PROOFS. The ALU instructions as data: one record per instruction, and the one meaning they share (R120). -/

namespace Sys2Proof.Machine

/-- An ALU instruction taken apart: its condition, the register it stores to (none for `cmpr` and `test`), Term A,
Term B where it is a register, and the result as a function of CS, A and B (R83, R84, R120). -/
structure AluForm where
  cond : Cond
  dest : Option RegNum
  a : RegNum
  b : Option RegNum
  out : Word → Word → Word → AluOut

namespace AluForm

/-- The value form of the operation `f` (R83, R93). -/
def value (c : Cond) (d : Option RegNum) (a : RegNum) (sh : BitVec 4) (v : BitVec 8)
    (f : Word → Word → AluOut) : AluForm := ⟨c, d, a, none, fun cs A _ => f A (valueOperand cs sh v)⟩

/-- The register form of the operation `f` (R84). -/
def reg (c : Cond) (d : Option RegNum) (a b : RegNum) (f : Word → Word → AluOut) : AluForm :=
  ⟨c, d, a, some b, fun _ A B => f A B⟩

/-- The end of the instruction: a store, or the flags alone (R120). -/
def finish (f : AluForm) (s : State) (o : AluOut) : Result :=
  match f.dest with
  | some d => aluStore s d o
  | none => aluDiscard s o

/-- Term B read where it is a register. -/
def withTermB (f : AluForm) (s : State) (k : Word → Result) : Result :=
  match f.b with
  | some b => withReg s b k
  | none => k 0

/-- The meaning of the instruction (R120). -/
def run (f : AluForm) (s : State) : Result :=
  underCond f.cond s (withReg s f.a fun A => f.withTermB s fun B => f.finish s (f.out s.cs A B))

end AluForm

open AluForm in
/-- The record of an ALU instruction; `exec_of_aluForm` ties it to the meaning. -/
def aluForm : Instr → Option AluForm
  | .addrV c d a sh v => some (value c (some d) a sh v addOut)
  | .addrR c d a b => some (reg c (some d) a b addOut)
  | .subrV c d a sh v => some (value c (some d) a sh v subOut)
  | .subrR c d a b => some (reg c (some d) a b subOut)
  | .maslV c d a sh v => some ⟨c, some d, a, none, fun cs A _ => plainOut (maskLeft A (ext8 cs v) (evenShift sh))⟩
  | .maslR c d a b v => some ⟨c, some d, a, some b, fun cs A B => plainOut (maskLeft A (ext8 cs v) (shiftAmount B))⟩
  | .masrV c d a sh v => some ⟨c, some d, a, none, fun cs A _ => plainOut (maskRight A (ext8 cs v) (evenShift sh))⟩
  | .masrR c d a b v => some ⟨c, some d, a, some b, fun cs A B => plainOut (maskRight A (ext8 cs v) (shiftAmount B))⟩
  | .andbV c d a sh v => some (value c (some d) a sh v fun A B => plainOut (A &&& B))
  | .andbR c d a b => some (reg c (some d) a b fun A B => plainOut (A &&& B))
  | .orbtV c d a sh v => some (value c (some d) a sh v fun A B => plainOut (A ||| B))
  | .orbtR c d a b => some (reg c (some d) a b fun A B => plainOut (A ||| B))
  | .xorbV c d a sh v => some (value c (some d) a sh v fun A B => plainOut (A ^^^ B))
  | .xorbR c d a b => some (reg c (some d) a b fun A B => plainOut (A ^^^ B))
  | .notbV c d a | .notbR c d a => some ⟨c, some d, a, none, fun _ A _ => plainOut (~~~A)⟩
  | .arslV c d a sh v => some (value c (some d) a sh v fun A B => plainOut (shiftLeft A (shiftAmount B)))
  | .arslR c d a b => some (reg c (some d) a b fun A B => plainOut (shiftLeft A (shiftAmount B)))
  | .arsrV c d a sh v => some (value c (some d) a sh v fun A B => plainOut (shiftRightArith A (shiftAmount B)))
  | .arsrR c d a b => some (reg c (some d) a b fun A B => plainOut (shiftRightArith A (shiftAmount B)))
  | .losrV c d a sh v => some (value c (some d) a sh v fun A B => plainOut (shiftRightLogic A (shiftAmount B)))
  | .losrR c d a b => some (reg c (some d) a b fun A B => plainOut (shiftRightLogic A (shiftAmount B)))
  | .rotlV c d a sh v => some (value c (some d) a sh v fun A B => plainOut (rotateLeft A (shiftAmount B)))
  | .rotlR c d a b => some (reg c (some d) a b fun A B => plainOut (rotateLeft A (shiftAmount B)))
  | .rotrV c d a sh v => some (value c (some d) a sh v fun A B => plainOut (rotateRight A (shiftAmount B)))
  | .rotrR c d a b => some (reg c (some d) a b fun A B => plainOut (rotateRight A (shiftAmount B)))
  | .cmprV c a sh v => some (value c none a sh v subOut)
  | .cmprR c a b => some (reg c none a b subOut)
  | .testV c a sh v => some (value c none a sh v fun A B => plainOut (A &&& B))
  | .testR c a b => some (reg c none a b fun A B => plainOut (A &&& B))
  | .masiV c d a sh v => some (value c (some d) a sh v fun A B => plainOut (A &&& ~~~B))
  | .masiR c d a b => some (reg c (some d) a b fun A B => plainOut (A &&& ~~~B))
  | .brch .. | .brsl .. | .brss .. | .brrl .. | .brrs .. | .movv .. | .movr .. | .swap .. | .load .. | .stor ..
  | .noop .. | .swin .. | .halt .. | .srpg .. => none

section
variable {i : Instr} {f : AluForm} (hf : aluForm i = some f)
include hf

/-- Every ALU instruction means what its record says (R120). -/
theorem exec_of_aluForm (s : State) : exec i s = f.run s := by
  cases i <;> cases hf <;> rfl

/-- It writes the register of its record and no other. -/
theorem destinations_of_aluForm (s : State) : destinations i s = (f.dest.bind (regName s.cs)).toList := by
  cases i <;> cases hf <;> rfl

/-- Its result writes C and V only where the spec names all four flags for it (R37, R121). -/
theorem csBits_of_aluForm (cs A B : Word) :
    csBits i = 0xF ∨ (csBits i = 0x6 ∧ (f.out cs A B).cv = none) := by
  cases i <;> cases hf <;> simp [csBits, AluForm.value, AluForm.reg, plainOut]

end

/-- The instructions that the statements call ALU instructions have a record. -/
theorem aluForm_of_isAlu {i : Instr} (h : Spec.isAlu i) : ∃ f, aluForm i = some f := by
  unfold Spec.isAlu at h
  cases i with
  | brsl _ _ ib | brss _ _ ib | brrl _ ib | brrs _ ib => cases ib <;> simp [csBits] at h
  | brch | movv | movr | swap | load | stor | noop | swin | halt | srpg => simp [csBits] at h
  | _ => exact ⟨_, rfl⟩

namespace AluForm

variable {f : AluForm} {s t : State}

theorem withTermB_next {k : Word → Result} (h : f.withTermB s k = .next t) : ∃ B, k B = .next t := by
  unfold withTermB at h
  split at h
  · obtain ⟨_, -, h⟩ := withReg_next h
    exact ⟨_, h⟩
  · exact ⟨_, h⟩

/-- What an ALU instruction can do: fail its condition, or compute a result from some operands and end with it. -/
theorem run_next (h : f.run s = .next t) :
    t = advance s ∨ ∃ A B, f.finish s (f.out s.cs A B) = .next t := by
  rcases underCond_next h with ⟨-, h⟩ | ⟨-, rfl⟩
  · obtain ⟨_, -, h⟩ := withReg_next h
    obtain ⟨B, h⟩ := withTermB_next h
    exact .inr ⟨_, B, h⟩
  · exact .inl rfl

/-- What the end of an ALU instruction can do: the flags, and one register where there is a destination. -/
theorem finish_next {o : AluOut} (h : f.finish s o = .next t) :
    (f.dest = none ∧ t = (advance s).withCs (flagUpdate s.cs o)) ∨
    ∃ d r, f.dest = some d ∧ regName s.cs d = some r ∧ writable r o.res = true ∧
      t = ((advance s).withCs (flagUpdate s.cs o)).set r o.res := by
  unfold finish at h
  split at h
  · obtain ⟨r, hr, hw, rfl⟩ := aluStore_next h
    exact .inr ⟨_, r, ‹_›, hr, hw, rfl⟩
  · exact .inl ⟨‹_›, aluDiscard_next h⟩

end AluForm

end Sys2Proof.Machine
end

section
/-! PROOFS. What an instruction that completes can have done, said once for all of them: every frame and the invariant
are read off this. -/

namespace Sys2Proof.Machine

/-! ### The access to memory of an instruction -/

/-- The state `u` after the access to memory of instruction `i` from `s`: none, one read, or one write at the address
the instruction stores to (R61). -/
inductive MemPhase (i : Instr) (s : State) : State → Prop where
  | none : MemPhase i s s
  | read {a v : Word} {u : State} (h : memRead s a = .ok (v, u)) : MemPhase i s u
  | write {a v : Word} {u : State} (ha : storeAddress i s = some a) (h : memWrite s a v = .ok u) : MemPhase i s u

section
variable {i : Instr} {s u : State} (h : MemPhase i s u)
include h

theorem MemPhase.core_frame :
    u.regs = s.regs ∧ u.ip = s.ip ∧ u.sp = s.sp ∧ u.cs = s.cs ∧ u.gl = s.gl ∧ u.halted = s.halted := by
  cases h with
  | none => simp
  | read h =>
    obtain ⟨hregs, hip, hsp, hcs, hgl, hh, -⟩ := memRead_frame h
    exact ⟨hregs, hip, hsp, hcs, hgl, hh⟩
  | write _ h =>
    obtain ⟨hregs, hip, hsp, hcs, hgl, hh, -⟩ := memWrite_frame h
    exact ⟨hregs, hip, hsp, hcs, hgl, hh⟩

theorem MemPhase.cs_eq : u.cs = s.cs := by
  obtain ⟨-, -, -, hcs, -, -⟩ := h.core_frame
  exact hcs

/-- An access to memory leaves every register. -/
theorem MemPhase.get_eq (r : RegName) : u.get r = s.get r := by
  obtain ⟨hregs, hip, hsp, hcs, hgl, -⟩ := h.core_frame
  cases r <;> simp only [State.get, State.paged, hregs, hip, hsp, hcs, hgl]

end

/-! ### The effect of an instruction -/

/-- Instruction `i` may write `v` to register `r`: it is one of its destinations, a number names it, and it can take
the value (R23, R26). -/
structure WritesTo (i : Instr) (s : State) (r : RegName) (v : Word) : Prop where
  mem : r ∈ destinations i s
  named : ∃ d, regName s.cs d = some r
  writable : writable r v = true

/-- The result `o` writes no flag that is not one of the CS bits of `i` (R37, R121). -/
def FlagBits (i : Instr) (o : AluOut) : Prop := csBits i = 0xF ∨ (csBits i = 0x6 ∧ o.cv = none)

/-- `cs'` is `cs`, or differs from it in CS.i where that is one of the CS bits of `i` (R167, R196). -/
def AllowBit (i : Instr) (cs cs' : Word) : Prop := cs' = cs ∨ (csBits i = 0x40 ∧ ∃ b, cs' = csSetAllow cs b)

/-- The states in which instruction `i` can leave the machine from `s`. -/
inductive Effect (i : Instr) (s : State) : State → Prop where
  /-- Nothing but the advance of IP and an access to memory: a failed condition, `noop`, `stor`. -/
  | pass {u : State} (hu : MemPhase i s u) : Effect i s (advance u)
  /-- `cmpr` and `test`. -/
  | compare {o : AluOut} (hb : FlagBits i o) : Effect i s ((advance s).withCs (flagUpdate s.cs o))
  /-- The other ALU instructions. -/
  | alu {r : RegName} {o : AluOut} (hb : FlagBits i o) (hd : WritesTo i s r o.res) :
      Effect i s (((advance s).withCs (flagUpdate s.cs o)).set r o.res)
  /-- `movv`, `movr`, `load`. -/
  | transfer {u : State} {r : RegName} {v : Word} (hu : MemPhase i s u) (hd : WritesTo i s r v) :
      Effect i s ((advance u).set r v)
  /-- `swap`. -/
  | swap {rd rs : RegName} {v w : Word} (hd : WritesTo i s rd v) (hs : WritesTo i s rs w) :
      Effect i s (((advance s).set rd v).set rs w)
  /-- `brch`, `brrl`. -/
  | jump {target cs : Word} (hc : AllowBit i s.cs cs) : Effect i s ((s.withIp target).withCs cs)
  /-- `brsl`. -/
  | link {r : RegName} {v target cs : Word} (hd : WritesTo i s r v) (hr : r ≠ .cs) (hc : AllowBit i s.cs cs) :
      Effect i s (((s.set r v).withIp target).withCs cs)
  /-- `brss`, `brrs`, `swin`. -/
  | stack {u : State} {sp target cs : Word} (hu : MemPhase i s u) (hd : RegName.sp ∈ destinations i s)
      (hc : AllowBit i s.cs cs) : Effect i s (((u.withSp sp).withIp target).withCs cs)
  /-- `halt`. -/
  | halt {c : Cond} (hi : i = .halt c) : Effect i s ((advance s).withHalted true)
  /-- `srpg`. -/
  | page {c : Cond} {d : Bool} {p : BitVec 4} {hide : Bool} (hi : i = .srpg c d p) (hp : p.toNat < Config.npages) :
      Effect i s ((advance s).withCs (csSetPage s.cs p hide))

theorem AllowBit.of_ib {i : Instr} {cs cs' : Word} {ib b : Bool} (hbits : csBits i = if ib then 0x40 else 0)
    (h : cs' = if ib then csSetAllow cs b else cs) : AllowBit i cs cs' := by
  cases ib with
  | true => exact .inr ⟨hbits, b, h⟩
  | false => exact .inl h

theorem writable_of_ne_cs {r : RegName} (h : r ≠ .cs) (v : Word) : writable r v = true := by
  cases r <;> simp_all [writable]

/-- A register that can be the link register is none of IP, SP and CS (R32). -/
theorem reservedLink_eq_false_iff (r : RegName) : r.reservedLink = false ↔ r ≠ .ip ∧ r ≠ .sp ∧ r ≠ .cs := by
  cases r <;> simp [RegName.reservedLink]

/-! ### The effect of each instruction -/

section
variable {s t : State}

theorem effect_of_aluForm {i : Instr} {f : AluForm} (hf : aluForm i = some f) (h : exec i s = .next t) :
    Effect i s t := by
  rw [exec_of_aluForm hf] at h
  rcases AluForm.run_next h with rfl | ⟨A, B, h⟩
  · exact .pass .none
  · have hb : FlagBits i (f.out s.cs A B) := csBits_of_aluForm hf s.cs A B
    rcases AluForm.finish_next h with ⟨-, rfl⟩ | ⟨d, r, hd, hr, hw, rfl⟩
    · exact .compare hb
    · exact .alu hb ⟨by simp [destinations_of_aluForm hf, hd, hr], ⟨d, hr⟩, hw⟩

theorem effect_brch {c : Cond} {base : RegNum} {off : BitVec 19} (h : exec (.brch c base off) s = .next t) :
    Effect (.brch c base off) s t := by
  rcases underCond_next h with ⟨-, h⟩ | ⟨-, rfl⟩
  · obtain ⟨rb, -, h⟩ := withReg_next h
    cases h
    exact .jump (target := branchTarget (s.get rb) off) (cs := s.cs) (.inl rfl)
  · exact .pass .none

theorem effect_brsl {c : Cond} {base : RegNum} {ib : Bool} {off : BitVec 19}
    (h : exec (.brsl c base ib off) s = .next t) : Effect (.brsl c base ib off) s t := by
  rcases underCond_next h with ⟨-, h⟩ | ⟨-, rfl⟩
  · obtain ⟨rb, -, h⟩ := withReg_next h
    obtain ⟨r, hr, hl, h⟩ := withLink_next (by simp) h
    obtain ⟨-, -, hcs⟩ := (reservedLink_eq_false_iff r).mp hl
    cases h
    exact .link ⟨by simp [destinations, hr], ⟨_, hr⟩, writable_of_ne_cs hcs _⟩ hcs (.of_ib rfl rfl)
  · exact .pass .none

theorem effect_brss {c : Cond} {base : RegNum} {ib : Bool} {off : BitVec 19}
    (h : exec (.brss c base ib off) s = .next t) : Effect (.brss c base ib off) s t := by
  rcases underCond_next h with ⟨hc, h⟩ | ⟨-, rfl⟩
  · obtain ⟨rb, -, h⟩ := withReg_next h
    split at h
    · rename_i hp
      obtain ⟨u, hu, rfl⟩ := push_ok hp
      cases h
      exact .stack (.write (by simp [storeAddress, hc]) hu) (by simp [destinations]) (.of_ib rfl rfl)
    · cases h
  · exact .pass .none

theorem effect_brrl {c : Cond} {ib : Bool} (h : exec (.brrl c ib) s = .next t) : Effect (.brrl c ib) s t := by
  rcases underCond_next h with ⟨-, h⟩ | ⟨-, rfl⟩
  · obtain ⟨r, -, -, h⟩ := withLink_next (by simp) h
    cases h
    exact .jump (.of_ib rfl rfl)
  · exact .pass .none

theorem effect_brrs {c : Cond} {ib : Bool} (h : exec (.brrs c ib) s = .next t) : Effect (.brrs c ib) s t := by
  rcases underCond_next h with ⟨-, h⟩ | ⟨-, rfl⟩
  · split at h
    · rename_i hp
      obtain ⟨u, hu, rfl⟩ := pop_ok hp
      cases h
      have hcs : u.cs = s.cs := (MemPhase.read (i := .brrs c ib) hu).cs_eq
      exact .stack (.read hu) (by simp [destinations]) (.of_ib (b := true) rfl (by simp [hcs]))
    · cases h
  · exact .pass .none

theorem effect_movv {c : Cond} {d : RegNum} {sh : BitVec 4} {v : BitVec 16}
    (h : exec (.movv c d sh v) s = .next t) : Effect (.movv c d sh v) s t := by
  rcases underCond_next h with ⟨-, h⟩ | ⟨-, rfl⟩
  · obtain ⟨r, hr, hw, rfl⟩ := writeBack_next h
    exact .transfer .none ⟨by simp [destinations, hr], ⟨d, hr⟩, hw⟩
  · exact .pass .none

theorem effect_movr {c : Cond} {d src : RegNum} (h : exec (.movr c d src) s = .next t) :
    Effect (.movr c d src) s t := by
  rcases underCond_next h with ⟨-, h⟩ | ⟨-, rfl⟩
  · obtain ⟨rs, -, h⟩ := withReg_next h
    obtain ⟨r, hr, hw, rfl⟩ := writeBack_next h
    exact .transfer .none ⟨by simp [destinations, hr], ⟨d, hr⟩, hw⟩
  · exact .pass .none

theorem effect_swap {c : Cond} {d src : RegNum} (h : exec (.swap c d src) s = .next t) :
    Effect (.swap c d src) s t := by
  rcases underCond_next h with ⟨-, h⟩ | ⟨-, rfl⟩
  · obtain ⟨_, -, h⟩ := withReg_next h
    obtain ⟨_, -, h⟩ := withReg_next h
    obtain ⟨rd, hrd, hwd, h⟩ := withDest_next h
    obtain ⟨rs, hrs, hws, h⟩ := withDest_next h
    cases h
    exact .swap ⟨by simp [destinations, hrd], ⟨d, hrd⟩, hwd⟩ ⟨by simp [destinations, hrs], ⟨src, hrs⟩, hws⟩
  · exact .pass .none

theorem effect_load {c : Cond} {base sd : RegNum} {off : BitVec 16}
    (h : exec (.load c base sd off) s = .next t) : Effect (.load c base sd off) s t := by
  rcases underCond_next h with ⟨-, h⟩ | ⟨-, rfl⟩
  · obtain ⟨rb, -, h⟩ := withReg_next h
    split at h
    · rename_i hm
      obtain ⟨r, hr, hw, rfl⟩ := writeBack_next h
      exact .transfer (.read hm) ⟨by simp [destinations, hr], ⟨sd, hr⟩, hw⟩
    · cases h
  · exact .pass .none

theorem effect_stor {c : Cond} {base sd : RegNum} {off : BitVec 16}
    (h : exec (.stor c base sd off) s = .next t) : Effect (.stor c base sd off) s t := by
  rcases underCond_next h with ⟨hc, h⟩ | ⟨-, rfl⟩
  · obtain ⟨rb, hb, h⟩ := withReg_next h
    obtain ⟨rs, -, h⟩ := withReg_next h
    split at h
    · rename_i hm
      cases h
      exact .pass (.write (by simp [storeAddress, hc, hb]) hm)
    · cases h
  · exact .pass .none

theorem effect_noop {c : Cond} (h : exec (.noop c) s = .next t) : Effect (.noop c) s t := by
  rcases underCond_next h with ⟨-, h⟩ | ⟨-, rfl⟩
  · cases h
    exact .pass .none
  · exact .pass .none

theorem effect_swin {c : Cond} {v : IrqId} (h : exec (.swin c v) s = .next t) : Effect (.swin c v) s t := by
  rcases underCond_next h with ⟨hc, h⟩ | ⟨-, rfl⟩
  · rcases takeInterrupt_next h with ⟨-, _, hp, rfl⟩ | ⟨hk, -⟩
    · obtain ⟨u, hu, rfl⟩ := push_ok hp
      exact .stack (.write (by simp [storeAddress, hc]) hu) (by simp [destinations]) (.inr ⟨rfl, _, rfl⟩)
    · cases hk
  · exact .pass .none

theorem effect_halt {c : Cond} (h : exec (.halt c) s = .next t) : Effect (.halt c) s t := by
  rcases underCond_next h with ⟨-, h⟩ | ⟨-, rfl⟩
  · cases h
    exact .halt rfl
  · exact .pass .none

theorem effect_srpg {c : Cond} {d : Bool} {p : BitVec 4} (h : exec (.srpg c d p) s = .next t) :
    Effect (.srpg c d p) s t := by
  rcases underCond_next h with ⟨-, h⟩ | ⟨-, rfl⟩
  · split at h
    · cases h
      exact .page rfl ‹_›
    · cases h
  · exact .pass .none

end

/-- Every instruction that completes has one of the effects. -/
theorem exec_next {i : Instr} {s t : State} (h : exec i s = .next t) : Effect i s t := by
  cases i with
  | brch => exact effect_brch h
  | brsl => exact effect_brsl h
  | brss => exact effect_brss h
  | brrl => exact effect_brrl h
  | brrs => exact effect_brrs h
  | movv => exact effect_movv h
  | movr => exact effect_movr h
  | swap => exact effect_swap h
  | load => exact effect_load h
  | stor => exact effect_stor h
  | noop => exact effect_noop h
  | swin => exact effect_swin h
  | halt => exact effect_halt h
  | srpg => exact effect_srpg h
  | _ => exact effect_of_aluForm rfl h

end Sys2Proof.Machine
end

section
/-! PROOFS. The invariant: each update of the state keeps it, so every effect of an instruction and every interrupt
entry does (R26, R38). -/

namespace Sys2Proof.Machine

theorem pageLegal_congr {cs cs' : Word} (h : csPage cs' = csPage cs) : pageLegal cs' = pageLegal cs := by
  simp only [pageLegal, h]

namespace State.Inv

variable {s t : State}

/-- The invariant looks at memory, the record of written words and CS alone. -/
theorem congr (h : s.Inv) (hm : t.mem = s.mem) (hw : t.written = s.written) (hc : t.cs = s.cs) : t.Inv where
  memWf := hm ▸ h.memWf
  writtenSorted := hw ▸ h.writtenSorted
  csUpper := hc ▸ h.csUpper
  page := hc ▸ h.page

theorem withIp (h : s.Inv) (v : Word) : (s.withIp v).Inv := h.congr rfl rfl rfl
theorem withSp (h : s.Inv) (v : Word) : (s.withSp v).Inv := h.congr rfl rfl rfl
theorem withHalted (h : s.Inv) (b : Bool) : (s.withHalted b).Inv := h.congr rfl rfl rfl
theorem advance (h : s.Inv) : (advance s).Inv := h.congr rfl rfl rfl
theorem nextBoundary (h : s.Inv) : (nextBoundary s).Inv := h.congr rfl rfl rfl

theorem withCs (h : s.Inv) {cs : Word} (hu : field cs 16 16 = 0) (hp : pageLegal cs = true) : (s.withCs cs).Inv where
  memWf := h.memWf
  writtenSorted := h.writtenSorted
  csUpper := hu
  page := hp

/-- A write of a register keeps the invariant: CS takes a legal page alone, and bits 31:16 as zero (R26, R38). -/
theorem set (h : s.Inv) {r : RegName} {v : Word} (hw : writable r v = true) : (s.set r v).Inv := by
  cases r with
  | cs => exact h.withCs (field_upper_csWrite v) ((pageLegal_congr (csPage_csWrite v)).trans hw)
  | ip | sp | gl | paged => exact h.congr rfl rfl rfl

theorem memRead (h : s.Inv) {a v : Word} (hr : memRead s a = .ok (v, t)) : t.Inv := by
  obtain ⟨-, -, -, hc, -, -, hm, hw, -⟩ := memRead_frame hr
  exact h.congr hm hw hc

/-- A write keeps memory and the record of written words canonical (R60, R64). -/
theorem memWrite (h : s.Inv) {a v : Word} (hs : memWrite s a v = .ok t) : t.Inv := by
  obtain ⟨hsorted, hbound⟩ := h.writtenSorted
  have hwritten : (addWritten s.written a.toNat).Pairwise (· < ·) ∧
      ∀ k ∈ addWritten s.written a.toNat, k < 2 ^ 32 := by
    refine ⟨addWritten_sorted _ _ hsorted, fun k hk => ?_⟩
    rcases (mem_addWritten _ _ _).mp hk with rfl | hk
    · exact a.isLt
    · exact hbound k hk
  rcases memWrite_ok hs with ⟨-, rfl⟩ | ⟨-, rfl⟩
  · exact ⟨Memory.writeWord_wf _ _ _ h.memWf, hwritten, h.csUpper, h.page⟩
  · exact ⟨h.memWf, hwritten, h.csUpper, h.page⟩

theorem memPhase (h : s.Inv) {i : Instr} (hu : MemPhase i s t) : t.Inv := by
  cases hu with
  | none => exact h
  | read hr => exact h.memRead hr
  | write _ hs => exact h.memWrite hs

theorem push (h : s.Inv) {v : Word} (hp : push s v = .ok t) : t.Inv := by
  obtain ⟨u, hu, rfl⟩ := push_ok hp
  exact (h.memWrite hu).withSp _

/-- The flag update of an ALU instruction, written to CS (R37). -/
theorem withFlags (h : s.Inv) {cs : Word} (hu : field cs 16 16 = 0) (hp : pageLegal cs = true) (o : AluOut) :
    (s.withCs (flagUpdate cs o)).Inv :=
  h.withCs (by simpa using hu) ((pageLegal_congr (csPage_flagUpdate cs o)).trans hp)

/-- CS.i written to CS (R34). -/
theorem withAllow (h : s.Inv) {cs : Word} (hu : field cs 16 16 = 0) (hp : pageLegal cs = true) (b : Bool) :
    (s.withCs (csSetAllow cs b)).Inv :=
  h.withCs (by simpa using hu) ((pageLegal_congr (csPage_csSetAllow cs b)).trans hp)

theorem withAllowBit (h : s.Inv) {i : Instr} {cs cs' : Word} (hu : field cs 16 16 = 0) (hp : pageLegal cs = true)
    (hc : AllowBit i cs cs') : (s.withCs cs').Inv := by
  rcases hc with rfl | ⟨-, b, rfl⟩
  · exact h.withCs hu hp
  · exact h.withAllow hu hp b

/-- Every effect of an instruction keeps the invariant. -/
theorem effect (h : s.Inv) {i : Instr} (he : Effect i s t) : t.Inv := by
  cases he with
  | pass hu => exact (h.memPhase hu).advance
  | compare => exact h.advance.withFlags h.csUpper h.page _
  | alu _ hd => exact (h.advance.withFlags h.csUpper h.page _).set hd.writable
  | transfer hu hd => exact (h.memPhase hu).advance.set hd.writable
  | swap hd hs => exact (h.advance.set hd.writable).set hs.writable
  | jump hc => exact (h.withIp _).withAllowBit h.csUpper h.page hc
  | link hd _ hc => exact ((h.set hd.writable).withIp _).withAllowBit h.csUpper h.page hc
  | stack hu _ hc => exact (((h.memPhase hu).withSp _).withIp _).withAllowBit h.csUpper h.page hc
  | halt => exact h.advance.withHalted _
  | page _ hp => exact h.advance.withCs (by simpa using h.csUpper) (by simpa [pageLegal] using hp)

/-- Taking an interrupt keeps the invariant (R195). -/
theorem takeInterrupt (h : s.Inv) {k : Priority} {id : IrqId} {ret : Word}
    (ht : takeInterrupt k id ret s = .next t) : t.Inv := by
  rcases takeInterrupt_next ht with ⟨-, u, hu, rfl⟩ | ⟨-, r, -, hl, rfl⟩
  · exact ((h.push hu).withIp _).withAllow h.csUpper h.page _
  · obtain ⟨-, -, hcs⟩ := (reservedLink_eq_false_iff r).mp hl
    exact ((h.set (writable_of_ne_cs hcs _)).withIp _).withAllow h.csUpper h.page _

end State.Inv

/-- Settles O21: an interrupt entry and every effect of an instruction keep the invariant. -/
theorem everyStepKeepsTheInvariant : Obligations.EveryStepKeepsTheInvariant := by
  intro s t h hstep
  obtain ⟨-, ⟨r, -, ht⟩ | ⟨-, w, u, i, hf, -, ht⟩⟩ := step_next hstep
  · exact h.nextBoundary.takeInterrupt ht
  · obtain ⟨-, hr⟩ := fetch_next hf
    exact (h.nextBoundary.memRead hr).effect (exec_next ht)

/-- Settles O20. -/
theorem resetMeetsTheInvariant : Obligations.ResetMeetsTheInvariant where
  memWf := by simp [State.reset, Memory.wf]
  writtenSorted := by simp [State.reset]
  csUpper := by decide
  page := by decide

end Sys2Proof.Machine
end

section
/-! PROOFS. While the special registers are hidden no instruction but `srpg` reaches CS.p or CS.s (R47, R222). -/

namespace Sys2Proof.Machine

/-- CS.p and CS.s are the same in both. -/
def SamePage (cs cs' : Word) : Prop := csHide cs' = csHide cs ∧ csPage cs' = csPage cs

theorem samePage_flagUpdate (cs : Word) (o : AluOut) : SamePage cs (flagUpdate cs o) := by simp [SamePage]

theorem samePage_csSetAllow (cs : Word) (b : Bool) : SamePage cs (csSetAllow cs b) := by simp [SamePage]

theorem AllowBit.samePage {i : Instr} {cs cs' : Word} (h : AllowBit i cs cs') : SamePage cs cs' := by
  rcases h with rfl | ⟨-, b, rfl⟩
  · exact ⟨rfl, rfl⟩
  · exact samePage_csSetAllow cs b

/-- While the special registers are hidden no number names CS (R33). -/
theorem WritesTo.ne_cs_of_hidden {i : Instr} {s : State} {r : RegName} {v : Word} (h : WritesTo i s r v)
    (hh : csHide s.cs = true) : r ≠ .cs := by
  obtain ⟨d, hd⟩ := h.named
  obtain ⟨p, rfl, -⟩ := regName_hidden hh hd
  simp

/-- A write of a register other than CS leaves CS. -/
theorem State.set_cs_of_ne {s : State} {r : RegName} (h : r ≠ .cs) (v : Word) : (s.set r v).cs = s.cs := by
  simp [State.set_cs, h]

/-- With the special registers hidden an instruction other than `srpg` leaves CS.p and CS.s (R47). -/
theorem Effect.samePage_of_hidden {i : Instr} {s t : State} (he : Effect i s t) (hh : csHide s.cs = true)
    (hi : ∀ c d p, i ≠ .srpg c d p) : SamePage s.cs t.cs := by
  cases he with
  | pass hu => simp [SamePage, hu.cs_eq]
  | compare => exact samePage_flagUpdate _ _
  | alu _ hd => rw [State.set_cs_of_ne (hd.ne_cs_of_hidden hh)]; exact samePage_flagUpdate _ _
  | transfer hu hd => simp [SamePage, State.set_cs_of_ne (hd.ne_cs_of_hidden hh), hu.cs_eq]
  | swap hd hs =>
    simp [SamePage, State.set_cs_of_ne (hd.ne_cs_of_hidden hh), State.set_cs_of_ne (hs.ne_cs_of_hidden hh)]
  | jump hc | link _ _ hc | stack _ _ hc => exact hc.samePage
  | halt => exact ⟨rfl, rfl⟩
  | page hp => exact absurd hp (hi _ _ _)

/-- Taking an interrupt writes CS.i and no other bit of CS (R195). -/
theorem takeInterrupt_cs {k : Priority} {id : IrqId} {ret : Word} {s t : State}
    (h : takeInterrupt k id ret s = .next t) : t.cs = csSetAllow s.cs false := by
  rcases takeInterrupt_next h with ⟨-, u, -, rfl⟩ | ⟨-, r, -, -, rfl⟩ <;> rfl

theorem fetch_cs {s u : State} {w : Word} (h : fetch s = .next (w, u)) : u.cs = s.cs := by
  obtain ⟨-, hr⟩ := fetch_next h
  obtain ⟨-, -, -, hcs, -⟩ := memRead_frame hr
  exact hcs

/-- Settles O58: an interrupt entry and every instruction but `srpg` leave CS.p and CS.s of a hidden state. -/
theorem whileHiddenOnlySrpgChangesThePage : Obligations.WhileHiddenOnlySrpgChangesThePage := by
  intro s t hstep hh hchange
  have hsame : ¬SamePage s.cs t.cs := by
    rintro ⟨hhide, hpage⟩
    simp [hhide, hpage, hh] at hchange
  obtain ⟨-, ⟨r, -, ht⟩ | ⟨hnone, w, u, i, hf, hi, ht⟩⟩ := step_next hstep
  · rw [takeInterrupt_cs ht] at hsame
    exact absurd (samePage_csSetAllow s.cs false) hsame
  · have hcs : u.cs = s.cs := (fetch_cs hf).trans rfl
    by_cases hsrpg : ∃ c d p, i = .srpg c d p
    · obtain ⟨c, d, p, rfl⟩ := hsrpg
      exact ⟨w, u, c, d, p, hnone, hf, hi⟩
    · push Not at hsrpg
      exact absurd (hcs ▸ (exec_next ht).samePage_of_hidden (hcs ▸ hh) hsrpg) hsame

end Sys2Proof.Machine
end

section
/-! PROOFS. The frames: what each effect of an instruction leaves. -/

namespace Sys2Proof.Machine

open Sys2Proof.Spec

/-! ### Registers -/

section
variable {s : State} {r : RegName}

theorem State.get_withIp (h : r ≠ .ip) (v : Word) : (s.withIp v).get r = s.get r := by
  cases r <;> simp_all [State.get]
theorem State.get_withSp (h : r ≠ .sp) (v : Word) : (s.withSp v).get r = s.get r := by
  cases r <;> simp_all [State.get]
theorem State.get_withCs (h : r ≠ .cs) (v : Word) : (s.withCs v).get r = s.get r := by
  cases r <;> simp_all [State.get]
theorem get_advance (h : r ≠ .ip) : (advance s).get r = s.get r := State.get_withIp h _
@[simp] theorem State.get_withHalted (b : Bool) : (s.withHalted b).get r = s.get r := by cases r <;> rfl

/-- A write of a destination leaves every register that is none. -/
theorem WritesTo.get_set {i : Instr} {q : RegName} {v : Word} (h : WritesTo i s q v) (hr : r ∉ destinations i s)
    (u : State) : (u.set q v).get r = u.get r :=
  State.get_set_other _ _ _ _ (ne_of_mem_of_not_mem h.mem hr)

end

/-- Settles O54, effect by effect. -/
theorem instructionsLeaveOtherRegisters : Obligations.InstructionsLeaveOtherRegisters := by
  intro i s t r h hr hip hcs
  cases exec_next h with
  | pass hu => rw [get_advance hip, hu.get_eq]
  | compare => rw [State.get_withCs hcs, get_advance hip]
  | alu _ hd => rw [hd.get_set hr, State.get_withCs hcs, get_advance hip]
  | transfer hu hd => rw [hd.get_set hr, get_advance hip, hu.get_eq]
  | swap hd hs => rw [hs.get_set hr, hd.get_set hr, get_advance hip]
  | jump => rw [State.get_withCs hcs, State.get_withIp hip]
  | link hd => rw [State.get_withCs hcs, State.get_withIp hip, hd.get_set hr]
  | stack hu hd =>
    rw [State.get_withCs hcs, State.get_withIp hip, State.get_withSp (ne_of_mem_of_not_mem hd hr).symm, hu.get_eq]
  | halt => rw [State.get_withHalted, get_advance hip]
  | page => rw [State.get_withCs hcs, get_advance hip]

/-! ### CS -/

/-- Two words agree outside a mask if they agree on every bit that the mask leaves out. -/
theorem and_not_congr {m x y : Word} (h : ∀ j < 32, m.getLsbD j = false → x.getLsbD j = y.getLsbD j) :
    x &&& ~~~m = y &&& ~~~m := by
  apply BitVec.eq_of_getLsbD_eq
  intro j hj
  cases hm : m.getLsbD j with
  | true => simp [hm]
  | false => simp only [BitVec.getLsbD_and, BitVec.getLsbD_not, hm, h j hj hm]

theorem csSetAllow_and_not (cs : Word) (b : Bool) : csSetAllow cs b &&& ~~~0x40#32 = cs &&& ~~~0x40#32 := by
  refine and_not_congr fun j hj hm => ?_
  have h6 : j ≠ 6 := by rintro rfl; simp at hm
  rw [getLsbD_csSetAllow _ _ _ hj, if_neg h6]

theorem csSetPage_and_not (cs : Word) (p : BitVec 4) (b : Bool) :
    csSetPage cs p b &&& ~~~0xF080#32 = cs &&& ~~~0xF080#32 := by
  refine and_not_congr fun j hj hm => ?_
  have h7 : j ≠ 7 := by rintro rfl; simp at hm
  have hp : ¬(12 ≤ j ∧ j < 16) := by
    rintro ⟨hlo, hhi⟩
    interval_cases j <;> simp at hm
  rw [getLsbD_csSetPage _ _ _ _ hj, if_neg h7, if_neg hp]

theorem csSetFlags_and_not (cs : Word) (c z n v : Bool) :
    csSetFlags cs c z n v &&& ~~~0xF#32 = cs &&& ~~~0xF#32 := by
  refine and_not_congr fun j hj hm => ?_
  have h4 : 4 ≤ j := by
    by_contra hlt
    interval_cases j <;> simp at hm
  exact getLsbD_csSetFlags_above _ _ _ _ _ _ hj h4

/-- A flag update with C and V as they were changes Z and N alone (R37). -/
theorem csSetFlags_keep_and_not (cs : Word) (z n : Bool) :
    csSetFlags cs (csC cs) z n (csV cs) &&& ~~~0x6#32 = cs &&& ~~~0x6#32 := by
  refine and_not_congr fun j hj hm => ?_
  have h1 : j ≠ 1 := by rintro rfl; simp at hm
  have h2 : j ≠ 2 := by rintro rfl; simp at hm
  rw [getLsbD_csSetFlags _ _ _ _ _ _ hj, if_neg h2, if_neg h1]
  by_cases h3 : j = 3
  · simp [h3, csC]
  · by_cases h0 : j = 0
    · simp [h0, csV]
    · rw [if_neg h3, if_neg h0]

theorem FlagBits.flagUpdate_and_not {i : Instr} {o : AluOut} (h : FlagBits i o) (cs : Word) :
    flagUpdate cs o &&& ~~~csBits i = cs &&& ~~~csBits i := by
  unfold flagUpdate
  split
  · rfl
  · rcases h with hb | ⟨hb, hcv⟩
    · rw [hb]
      split
      · exact csSetFlags_and_not _ _ _ _ _
      · exact csSetFlags_and_not _ _ _ _ _
    · rw [hb, hcv]
      exact csSetFlags_keep_and_not _ _ _

theorem AllowBit.and_not {i : Instr} {cs cs' : Word} (h : AllowBit i cs cs') :
    cs' &&& ~~~csBits i = cs &&& ~~~csBits i := by
  rcases h with rfl | ⟨hb, b, rfl⟩
  · rfl
  · rw [hb]
    exact csSetAllow_and_not cs b

/-- An instruction whose destination is not CS writes some other register. -/
theorem WritesTo.ne_cs {i : Instr} {s : State} {r : RegName} {v : Word} (h : WritesTo i s r v)
    (hcs : RegName.cs ∉ destinations i s) : r ≠ .cs := ne_of_mem_of_not_mem h.mem hcs

/-- Settles O55, effect by effect. -/
theorem instructionsLeaveOtherCsBits : Obligations.InstructionsLeaveOtherCsBits := by
  intro i s t h hcs
  cases exec_next h with
  | pass hu => rw [advance_cs, hu.cs_eq]
  | compare hb => exact hb.flagUpdate_and_not s.cs
  | alu hb hd =>
    rw [State.set_cs_of_ne (hd.ne_cs hcs)]
    exact hb.flagUpdate_and_not s.cs
  | transfer hu hd => rw [State.set_cs_of_ne (hd.ne_cs hcs), advance_cs, hu.cs_eq]
  | swap hd hs => rw [State.set_cs_of_ne (hs.ne_cs hcs), State.set_cs_of_ne (hd.ne_cs hcs), advance_cs]
  | jump hc | link _ _ hc | stack _ _ hc => exact hc.and_not
  | halt => rfl
  | page hi =>
    subst hi
    exact csSetPage_and_not _ _ _

/-! ### The platform -/

/-- `MEM_MAP`, `IFETCH_COHERENT` and the requests are the same in both. -/
def SamePlatform (s t : State) : Prop :=
  t.map = s.map ∧ t.ifetchCoherent = s.ifetchCoherent ∧ t.pending = s.pending ∧ t.schedule = s.schedule

section
variable {i : Instr} {s t u : State}

theorem MemPhase.samePlatform (h : MemPhase i s u) : SamePlatform s u := by
  cases h with
  | none => exact ⟨rfl, rfl, rfl, rfl⟩
  | read h =>
    obtain ⟨-, -, -, -, -, -, -, -, hp, hs, hm, hi⟩ := memRead_frame h
    exact ⟨hm, hi, hp, hs⟩
  | write _ h =>
    obtain ⟨-, -, -, -, -, -, hp, hs, hm, hi⟩ := memWrite_frame h
    exact ⟨hm, hi, hp, hs⟩

theorem MemPhase.halted_eq (h : MemPhase i s u) : u.halted = s.halted := by
  obtain ⟨-, -, -, -, -, hh⟩ := h.core_frame
  exact hh

/-- Without a store nothing is sent to a device and no word is recorded as written (R61). -/
theorem MemPhase.sent_eq (h : MemPhase i s u) (hn : storeAddress i s = Option.none) :
    u.deviceWrites = s.deviceWrites ∧ u.written = s.written := by
  cases h with
  | none => exact ⟨rfl, rfl⟩
  | read h => rcases memRead_ok h with ⟨-, -, rfl⟩ | ⟨-, -, rfl⟩ <;> exact ⟨rfl, rfl⟩
  | write ha => rw [hn] at ha; cases ha

/-- No effect of an instruction changes the platform's settings. -/
theorem Effect.samePlatform (h : Effect i s t) : SamePlatform s t := by
  cases h with
  | pass hu | stack hu => exact hu.samePlatform
  | transfer hu => simpa [SamePlatform] using hu.samePlatform
  | compare | alu | swap | jump | link | halt | page => simp [SamePlatform]

/-- `halt` halts the core; every other instruction leaves `halted` (R42, R153). -/
theorem Effect.halted (h : Effect i s t) :
    t.halted = s.halted ∨ ((∃ c, i = .halt c) ∧ t.halted = true) := by
  cases h with
  | pass hu | stack hu => exact .inl hu.halted_eq
  | transfer hu => exact .inl (by simpa using hu.halted_eq)
  | compare | alu | swap | jump | link | page => exact .inl (by simp)
  | halt hi => exact .inr ⟨⟨_, hi⟩, rfl⟩

theorem Effect.sent_eq (h : Effect i s t) (hn : storeAddress i s = none) :
    t.deviceWrites = s.deviceWrites ∧ t.written = s.written := by
  cases h with
  | pass hu | stack hu => exact hu.sent_eq hn
  | transfer hu => simpa using hu.sent_eq hn
  | compare | alu | swap | jump | link | halt | page => simp

end

/-- Settles O56. -/
theorem instructionsLeaveThePlatform : Obligations.InstructionsLeaveThePlatform := by
  intro i s t h
  have he := exec_next h
  obtain ⟨hmap, hcoherent, hpending, hschedule⟩ := he.samePlatform
  refine ⟨hmap, hcoherent, hpending, hschedule, fun hi => ?_, fun hh => ?_, he.sent_eq⟩
  · rcases he.halted with heq | ⟨⟨c, rfl⟩, -⟩
    · exact heq
    · exact absurd rfl (hi c)
  · rcases he.halted with heq | ⟨-, ht⟩
    · rw [heq, hh]
    · exact ht

/-! ### CS under the inhibit flag -/

/-- With CS.f = 1 an ALU instruction advances, and writes one register where it has a destination (R36, R141). -/
theorem AluForm.run_inhibited {f : AluForm} {s t : State} (hinh : csInhibit s.cs = true) (h : f.run s = .next t) :
    t = advance s ∨ ∃ d r v, f.dest = some d ∧ regName s.cs d = some r ∧ t = (advance s).set r v := by
  rcases AluForm.run_next h with rfl | ⟨A, B, h⟩
  · exact .inl rfl
  · rcases AluForm.finish_next h with ⟨-, rfl⟩ | ⟨d, r, hd, hr, -, rfl⟩
    · rw [flagUpdate_inhibited _ _ hinh]
      exact .inl rfl
    · rw [flagUpdate_inhibited _ _ hinh]
      exact .inr ⟨d, r, _, hd, hr, rfl⟩

/-- With CS.f = 1 an ALU instruction without a destination only advances (R141). -/
theorem advance_of_inhibited {i : Instr} {f : AluForm} {s t : State} (hf : aluForm i = some f) (hd : f.dest = none)
    (hinh : csInhibit s.cs = true) (h : exec i s = .next t) : t = advance s := by
  rw [exec_of_aluForm hf] at h
  rcases AluForm.run_inhibited hinh h with rfl | ⟨d, r, v, hdest, -⟩
  · rfl
  · rw [hd] at hdest
    cases hdest

/-- Settles O15: with CS.f = 1 the flag update of an ALU instruction is none. -/
theorem inhibitedAluLeavesTheFlags : Obligations.InhibitedAluLeavesTheFlags := by
  refine ⟨fun i s t halu hinh hcs h => ?_, fun s t c a b sh v hinh h => ?_⟩
  · obtain ⟨f, hf⟩ := aluForm_of_isAlu halu
    rw [exec_of_aluForm hf] at h
    rcases AluForm.run_inhibited hinh h with rfl | ⟨d, r, v, hd, hr, rfl⟩
    · rfl
    · have hmem : r ∈ destinations i s := by simp [destinations_of_aluForm hf, hd, hr]
      rw [State.set_cs_of_ne (ne_of_mem_of_not_mem hmem hcs), advance_cs]
  · rcases h with h | h | h | h
    all_goals exact advance_of_inhibited rfl rfl hinh h

end Sys2Proof.Machine
end

section
/-! PROOFS. An instruction does not see a register of another page: each shared operation commutes with a write of such
a register, so every meaning does (R25). -/

namespace Sys2Proof.Machine

open Sys2Proof.Spec

/-- Outcome `o'` is `o` with `R[q][n]` changed to `v` in the next state. -/
def Shifted (q : Fin 4) (n : RegNum) (v : Word) (o' o : Result) : Prop := o' = mapNext (fun t => t.withPaged q n v) o

/-- Writes of two registers, neither of them the other, commute. -/
theorem State.set_withPaged {s : State} {r : RegName} {q : Fin 4} {n : RegNum} (h : r ≠ .paged q n) (v w : Word) :
    (s.withPaged q n v).set r w = (s.set r w).withPaged q n v := by
  cases r with
  | paged p k =>
    have hslot : (slot p k).val ≠ (slot q n).val := by
      rw [Ne, slot_eq_iff]
      rintro ⟨rfl, rfl⟩
      exact h rfl
    simp only [State.set, State.withPaged]
    rw [Vector.set_comm _ _ hslot.symm]
  | ip | sp | cs | gl => rfl

/-- A read of another register. -/
theorem State.get_withPaged {s : State} {r : RegName} {q : Fin 4} {n : RegNum} (h : r ≠ .paged q n) (v : Word) :
    (s.withPaged q n v).get r = s.get r := State.get_set_other s (.paged q n) v r h.symm

section
variable {s : State} {q : Fin 4} {n : RegNum} {v : Word}

/-- No number names a register of a page that is not selected (R25). -/
theorem regName_ne_paged {cs : Word} {i : RegNum} {r : RegName} (hq : (csPage cs).toNat ≠ q.val)
    (h : regName cs i = some r) : r ≠ .paged q n := by
  rintro rfl
  obtain ⟨hp, -⟩ := regName_page h
  exact hq hp.symm

theorem Shifted.underCond {c : Cond} {o' o : Result} (h : Shifted q n v o' o) :
    Shifted q n v (underCond c (s.withPaged q n v) o') (underCond c s o) := by
  unfold Machine.underCond
  rw [State.withPaged_cs]
  split
  · exact h
  · rfl

section
variable (hq : (csPage s.cs).toNat ≠ q.val)
include hq

theorem Shifted.withReg {i : RegNum} {k' k : Word → Result} (h : ∀ w, Shifted q n v (k' w) (k w)) :
    Shifted q n v (withReg (s.withPaged q n v) i k') (withReg s i k) := by
  unfold Machine.withReg
  rw [State.withPaged_cs]
  split
  · rename_i hr
    rw [State.get_withPaged (regName_ne_paged hq hr)]
    exact h _
  · rfl

theorem Shifted.withDest {i : RegNum} {w : Word} {k' k : RegName → Result}
    (h : ∀ r, r ≠ .paged q n → Shifted q n v (k' r) (k r)) :
    Shifted q n v (withDest s.cs i w k') (withDest s.cs i w k) := by
  unfold Machine.withDest
  split
  · rfl
  · rename_i hr
    split
    · exact h _ (regName_ne_paged hq hr)
    · rfl

theorem Shifted.writeBack (t : State) (i : RegNum) (w : Word) :
    Shifted q n v (writeBack s.cs (t.withPaged q n v) i w) (writeBack s.cs t i w) :=
  .withDest hq fun r hr => by
    rw [State.set_withPaged hr]
    rfl

theorem Shifted.withLink {why : Refusal} {k' k : RegName → Result}
    (h : ∀ r, r ≠ .paged q n → Shifted q n v (k' r) (k r)) :
    Shifted q n v (withLink s.cs (.refused why) k') (withLink s.cs (.refused why) k) := by
  unfold Machine.withLink
  split
  · rfl
  · rename_i hr
    split
    · rfl
    · exact h _ (regName_ne_paged hq hr)

end

/-- A read of memory does not see the registers, nor change them. -/
theorem memRead_withPaged (a : Word) :
    memRead (s.withPaged q n v) a = (memRead s a).map fun x => (x.1, x.2.withPaged q n v) := by
  unfold memRead
  rw [State.withPaged_map]
  split <;> rfl

theorem memWrite_withPaged (a w : Word) :
    memWrite (s.withPaged q n v) a w = (memWrite s a w).map fun u => u.withPaged q n v := by
  unfold memWrite
  rw [State.withPaged_map]
  split <;> rfl

theorem push_withPaged (w : Word) : push (s.withPaged q n v) w = (push s w).map fun u => u.withPaged q n v := by
  unfold push
  rw [State.withPaged_sp, memWrite_withPaged]
  cases memWrite s (pushAddress s.sp) w <;> rfl

theorem pop_withPaged : pop (s.withPaged q n v) = (pop s).map fun x => (x.1, x.2.withPaged q n v) := by
  unfold pop
  rw [State.withPaged_sp, memRead_withPaged]
  cases memRead s (popAddress s.sp) <;> rfl

/-! ### Each instruction -/

section
variable (hq : (csPage s.cs).toNat ≠ q.val)
include hq

theorem AluForm.finish_withPaged (f : AluForm) (o : AluOut) :
    Shifted q n v (f.finish (s.withPaged q n v) o) (f.finish s o) := by
  unfold AluForm.finish
  split
  · exact .writeBack hq ((advance s).withCs (flagUpdate s.cs o)) _ _
  · rfl

theorem AluForm.withTermB_withPaged (f : AluForm) {k' k : Word → Result} (h : ∀ w, Shifted q n v (k' w) (k w)) :
    Shifted q n v (f.withTermB (s.withPaged q n v) k') (f.withTermB s k) := by
  unfold AluForm.withTermB
  split
  · exact .withReg hq h
  · exact h 0

theorem exec_withPaged_of_aluForm {i : Instr} {f : AluForm} (hf : aluForm i = some f) :
    Shifted q n v (exec i (s.withPaged q n v)) (exec i s) := by
  rw [exec_of_aluForm hf, exec_of_aluForm hf]
  exact .underCond (.withReg hq fun A => f.withTermB_withPaged hq fun B => f.finish_withPaged hq _)

theorem exec_brsl_withPaged (c : Cond) (base : RegNum) (ib : Bool) (off : BitVec 19) :
    Shifted q n v (exec (.brsl c base ib off) (s.withPaged q n v)) (exec (.brsl c base ib off) s) :=
  .underCond <| .withReg hq fun b => .withLink hq fun r hr => by
    rw [State.set_withPaged hr]
    rfl

theorem exec_brss_withPaged (c : Cond) (base : RegNum) (ib : Bool) (off : BitVec 19) :
    Shifted q n v (exec (.brss c base ib off) (s.withPaged q n v)) (exec (.brss c base ib off) s) :=
  .underCond <| .withReg hq fun b => by
    rw [push_withPaged, State.withPaged_ip]
    cases push s (s.ip + 1) <;> rfl

theorem exec_brrl_withPaged (c : Cond) (ib : Bool) :
    Shifted q n v (exec (.brrl c ib) (s.withPaged q n v)) (exec (.brrl c ib) s) :=
  .underCond <| .withLink hq fun r hr => by
    rw [State.get_withPaged hr]
    rfl

theorem exec_swap_withPaged (c : Cond) (d src : RegNum) :
    Shifted q n v (exec (.swap c d src) (s.withPaged q n v)) (exec (.swap c d src) s) :=
  .underCond <| .withReg hq fun t1 => .withReg hq fun t2 =>
    .withDest hq fun rd hrd => .withDest hq fun rs hrs => by
      have hadv : advance (s.withPaged q n v) = (advance s).withPaged q n v := rfl
      rw [hadv, State.set_withPaged hrd, State.set_withPaged hrs]
      rfl

theorem exec_load_withPaged (c : Cond) (base sd : RegNum) (off : BitVec 16) :
    Shifted q n v (exec (.load c base sd off) (s.withPaged q n v)) (exec (.load c base sd off) s) :=
  .underCond <| .withReg hq fun b => by
    rw [memRead_withPaged]
    cases memRead s (effectiveAddress b off) with
    | error => rfl
    | ok x => exact .writeBack hq (advance x.2) sd x.1

theorem exec_stor_withPaged (c : Cond) (base sd : RegNum) (off : BitVec 16) :
    Shifted q n v (exec (.stor c base sd off) (s.withPaged q n v)) (exec (.stor c base sd off) s) :=
  .underCond <| .withReg hq fun b => .withReg hq fun w => by
    rw [memWrite_withPaged]
    cases memWrite s (effectiveAddress b off) w <;> rfl

end

theorem exec_brrs_withPaged (c : Cond) (ib : Bool) :
    Shifted q n v (exec (.brrs c ib) (s.withPaged q n v)) (exec (.brrs c ib) s) :=
  .underCond <| by
    rw [pop_withPaged]
    cases pop s <;> rfl

/-- `swin` reads H0 and no other vector (R152, R194, R196). -/
theorem handler_swin_withPaged (h : ¬(q = 2 ∧ n = 0)) (id : IrqId) :
    handler (s.withPaged q n v) swinPriority id = handler s swinPriority id := by
  have hne : ¬(q = Config.hPage ∧ n = BitVec.ofNat 4 swinPriority.number.val) := h
  simp only [handler, vectorBase, State.withPaged_paged, if_neg hne]

theorem exec_swin_withPaged (h : ¬(q = 2 ∧ n = 0)) (c : Cond) (id : IrqId) :
    Shifted q n v (exec (.swin c id) (s.withPaged q n v)) (exec (.swin c id) s) :=
  .underCond <| by
    simp only [takeInterrupt, handler_swin_withPaged h, push_withPaged, State.withPaged_ip]
    cases push s (s.ip + 1) <;> rfl

theorem exec_srpg_withPaged (c : Cond) (d : Bool) (p : BitVec 4) :
    Shifted q n v (exec (.srpg c d p) (s.withPaged q n v)) (exec (.srpg c d p) s) :=
  .underCond <| by
    split <;> rfl

/-- No instruction sees a register of a page that is not selected, but for H0 (R25, R194). -/
theorem exec_withPaged (i : Instr) (hq : (csPage s.cs).toNat ≠ q.val)
    (hswin : (∃ c id, i = .swin c id) → ¬(q = 2 ∧ n = 0)) :
    Shifted q n v (exec i (s.withPaged q n v)) (exec i s) := by
  cases i with
  | brch => exact .underCond (.withReg hq fun b => rfl)
  | brsl => exact exec_brsl_withPaged hq _ _ _ _
  | brss => exact exec_brss_withPaged hq _ _ _ _
  | brrl => exact exec_brrl_withPaged hq _ _
  | brrs => exact exec_brrs_withPaged _ _
  | movv => exact .underCond (.writeBack hq (advance s) _ _)
  | movr => exact .underCond (.withReg hq fun w => .writeBack hq (advance s) _ w)
  | swap => exact exec_swap_withPaged hq _ _ _
  | load => exact exec_load_withPaged hq _ _ _ _
  | stor => exact exec_stor_withPaged hq _ _ _ _
  | noop | halt => exact .underCond rfl
  | swin c id => exact exec_swin_withPaged (hswin ⟨c, id, rfl⟩) c id
  | srpg => exact exec_srpg_withPaged _ _ _
  | _ => exact exec_withPaged_of_aluForm hq rfl

end

/-- Settles O57. -/
theorem instructionsIgnoreOtherPages : Obligations.InstructionsIgnoreOtherPages :=
  fun i _ _ _ _ hq hswin => exec_withPaged i hq hswin

end Sys2Proof.Machine
end

section
/-! PROOFS. The instruction cycle: what a step that fetches from memory runs, and the word a loader places (R29). -/

namespace Sys2Proof.Machine

open Sys2Proof.Spec

theorem memRead_of_memory {s : State} {a : Word} (h : kindAt s.map a = some .ram ∨ kindAt s.map a = some .rom) :
    memRead s a = .ok (s.mem.readWord a, s) := by
  rcases h with h | h <;> simp [memRead, h]

/-- A fetch from RAM or ROM of a word that may be executed (R29, R63, R72). -/
theorem fetch_of_memory {s : State} (hkind : kindAt s.map s.ip = some .ram ∨ kindAt s.map s.ip = some .rom)
    (hcoherent : s.ifetchCoherent = true ∨ s.ip.toNat ∉ s.written) :
    fetch s = .next (s.mem.readWord s.ip, s) := by
  have hnot : ¬(s.ifetchCoherent = false ∧ s.ip.toNat ∈ s.written) := by
    rintro ⟨hf, hw⟩
    rcases hcoherent with hc | hc
    · simp [hf] at hc
    · exact hc hw
  simp only [fetch, if_neg hnot, memRead_of_memory hkind]

/-- The instruction cycle where the step fetches from memory (R29). -/
theorem step_of_fetches {s : State} {i : Instr} (h : fetches s) (hi : decodeWord (s.mem.readWord s.ip) = .ok i) :
    step s = exec i (nextBoundary s) := by
  obtain ⟨hrun, hnone, hkind, hcoherent⟩ := h
  have hf : fetch (nextBoundary s) = .next (s.mem.readWord s.ip, nextBoundary s) :=
    fetch_of_memory (s := nextBoundary s) hkind hcoherent
  simp only [step, hrun, hnone, hf, hi, Bool.false_eq_true, if_false]

/-- The decoder on four bytes is the decoder on their word (R80). -/
theorem decodeWord_of_decode {b0 b1 b2 b3 : BitVec 8} {i : Instr} {rest rest' : List (BitVec 8)}
    (h : decode (b0 :: b1 :: b2 :: b3 :: rest) = .ok (i, rest')) : decodeWord (wordOfBytes b0 b1 b2 b3) = .ok i := by
  unfold decode at h
  cases hw : decodeWord (wordOfBytes b0 b1 b2 b3) with
  | error => simp [hw, Except.map] at h
  | ok j =>
    simp only [hw, Except.map, Except.ok.injEq, Prod.mk.injEq] at h
    obtain ⟨rfl, -⟩ := h
    rfl

/-- Settles O8. -/
theorem stepRunsTheDecodedInstruction : Obligations.StepRunsTheDecodedInstruction :=
  fun _ _ h hi => step_of_fetches h (decodeWord_of_decode hi)

/-- With no request pending none is taken. -/
theorem requestToTake_of_pending_nil {s : State} (h : s.pending = []) : requestToTake s = none := by
  unfold requestToTake
  rw [h]
  split <;> rfl

theorem requestToTake_placeWord (s : State) (w : Word) : requestToTake (placeWord s w) = none := by
  by_cases h : requestToTake s = none
  · have hp : (placeWord s w).pending = s.pending := if_pos h
    unfold requestToTake
    rw [hp]
    exact h
  · exact requestToTake_of_pending_nil (if_neg h)

theorem kindAt_placeWord (s : State) (w : Word) : kindAt (placeWord s w).map s.ip = some .ram := by
  by_cases h : kindAt s.map s.ip = some .ram
  · have hm : (placeWord s w).map = s.map := if_pos h
    rw [hm, h]
  · have hm : (placeWord s w).map = ⟨s.ip.toNat, 1, .ram⟩ :: s.map := if_neg h
    simp [hm, kindAt]

/-- A placed word is fetched by the very next step, from every state. -/
theorem fetches_placeWord (s : State) (w : Word) : fetches (placeWord s w) :=
  ⟨rfl, requestToTake_placeWord s w, .inl (kindAt_placeWord s w), .inr (by simp [placeWord])⟩

theorem decodeWord_of_decodeTableWord {nbits w : Nat} {i : Instr} (h : decodeTableWord nbits w = some i) :
    decodeWord (tableWord nbits w) = .ok i := by
  simp only [decodeTableWord] at h
  split at h
  · rename_i hd
    cases h
    rw [← wordOfBytes_byteOfWord (tableWord nbits w)]
    exact decodeWord_of_decode hd
  · cases h

/-- Settles O9. -/
theorem placedInstructionIsTheOneThatRuns : Obligations.PlacedInstructionIsTheOneThatRuns := by
  intro s w i hi
  have hread : (placeWord s (tableWord 32 w)).mem.readWord s.ip = tableWord 32 w :=
    Memory.readWord_writeWord_same _ _ _
  exact step_of_fetches (fetches_placeWord s _) (hread ▸ decodeWord_of_decodeTableWord hi)

end Sys2Proof.Machine
end

section
/-! PROOFS. The register mapping, CS as a register, reset, and the call through the link register (R23, R38, R45,
R163). -/

namespace Sys2Proof.Machine

open Sys2Proof.Spec

/-! ### The register mapping -/

/-- A number that the special registers do not cover names a register of the selected page, where the base system has
that page (R23, R26). -/
theorem regName_of_not_special {cs : Word} {i : RegNum} (h : csHide cs = true ∨ 4 ≤ i.toNat) :
    regName cs i =
      if hp : (csPage cs).toNat < 4 then some (.paged ⟨(csPage cs).toNat, hp⟩ i) else none := by
  have hnot : ∀ n : RegNum, n.toNat < 4 → ¬(csHide cs = false ∧ i = n) := by
    rintro n hn ⟨hhide, rfl⟩
    rcases h with h | h
    · simp [hhide] at h
    · omega
  unfold regName
  rw [if_neg (hnot 0 (by decide)), if_neg (hnot 1 (by decide)), if_neg (hnot 2 (by decide)),
    if_neg (hnot 3 (by decide))]

/-- Settles O16. -/
theorem registerNumbersNameTheMappedRegisters : Obligations.RegisterNumbersNameTheMappedRegisters := by
  intro cs i
  refine ⟨fun hh hi => by simp [regName, hh, hi], fun hh hi => by simp [regName, hh, hi],
    fun hh hi => by simp [regName, hh, hi], fun hh hi => by simp [regName, hh, hi], fun p h hp => ?_⟩
  rw [regName_of_not_special h, dif_pos (by omega)]
  simp only [hp]

/-- Settles O17. -/
theorem missingPagesFault : Obligations.MissingPagesFault := by
  intro s i hpage hnot
  have hnone : regName s.cs i = none := by rw [regName_of_not_special hnot, dif_neg (by omega)]
  have hreg : ∀ k, withReg s i k = .fault .noSuchPage := fun k => by simp [withReg, hnone]
  have hdest : ∀ w k, withDest s.cs i w k = .fault .noSuchPage := fun w k => by simp [withDest, hnone]
  refine ⟨hreg, hdest, ?_, fun c d sh v hc => ⟨?_, ?_⟩⟩
  · rintro rfl o k
    simp [withLink, hnone]
  · exact (underCond_holds hc _).trans (hreg _)
  · exact (underCond_holds hc _).trans (hdest _ _)

/-! ### CS as a register -/

theorem field_upper_csRead (cs : Word) : field (csRead cs) 16 16 = 0 := field_upper_csWrite cs

theorem field_lower_csWrite (v : Word) : field (csWrite v) 0 16 = field v 0 16 := by
  refine field_congr fun j hj => ?_
  simp only [csWrite, BitVec.getLsbD_setWidth, getLsbD_field, Nat.zero_add]
  simp [hj, show j < 32 by omega]

/-- Settles O18. -/
theorem csKeepsItsLowHalfAlone : Obligations.CsKeepsItsLowHalfAlone := fun s v =>
  ⟨field_upper_csRead s.cs, field_lower_csWrite s.cs, field_upper_csWrite v, field_lower_csWrite v,
    csRead_of_upper (field_upper_csWrite v)⟩

/-! ### Reset -/

/-- Settles O19, by evaluation of the one state after reset. -/
theorem resetLeavesWhatTheSpecGives : Obligations.ResetLeavesWhatTheSpecGives := by
  unfold Obligations.ResetLeavesWhatTheSpecGives
  decide

/-! ### The call through the link register -/

/-- CS.i written is bit 6 of CS written (R34). -/
theorem csSetAllow_eq_allow (cs : Word) (b : Bool) : csSetAllow cs b = allow cs b := by
  apply BitVec.eq_of_getLsbD_eq
  intro j hj
  rw [getLsbD_csSetAllow _ _ _ hj]
  cases b <;> interval_cases j <;> simp [allow]

theorem withLink_of_name {cs : Word} {r : RegName} (h : regName cs (csLink cs) = some r) (reserved : Result)
    (k : RegName → Result) : withLink cs reserved k = if r.reservedLink then reserved else k r := by
  simp [withLink, h]

/-- Settles O31. -/
theorem branchSavesToLink : Obligations.BranchSavesToLink := by
  intro s c base i off rb rl hc hb hl
  have hexec : exec (.brsl c base i off) s =
      if rl.reservedLink then .refused .linkRegister
      else .next (((s.set rl (s.ip + 1)).withIp (branchTarget (s.get rb) off)).withCs (maskedCs s.cs i)) :=
    calc exec (.brsl c base i off) s
      _ = withReg s base _ := underCond_holds hc _
      _ = withLink s.cs _ _ := withReg_of_name hb _
      _ = _ := withLink_of_name hl _ _
  refine ⟨fun hne => ?_, fun hres => ?_⟩
  · rw [hexec, (reservedLink_eq_false_iff rl).mpr hne, ← csSetAllow_eq_allow]
    rfl
  · have hr : rl.reservedLink = true := by rcases hres with rfl | rfl | rfl <;> rfl
    rw [hexec, hr]
    rfl

end Sys2Proof.Machine
end

section
/-! PROOFS. Memory: a read after a write, what one instruction stores, and what a run of any length leaves of memory and
of the words it fetches (R61 to R64, R70, R72). -/

namespace Sys2Proof.Machine

open Sys2Proof.Spec

/-! ### A read after a write -/

/-- Settles O41. -/
theorem readsSeeTheLatestWrite : Obligations.ReadsSeeTheLatestWrite := by
  intro s t a b v ha hb hw
  rcases memWrite_ok hw with ⟨-, rfl⟩ | ⟨hdev, -⟩
  · rw [memRead_of_memory (by simpa using hb)]
    simp [Memory.readWord_writeWord]
  · simp [ha] at hdev

/-! ### The fetch of a written word -/

/-- Settles O10: the boundary before the fetch leaves IP, `IFETCH_COHERENT` and the record of written words. -/
theorem writtenWordsAreNotExecutedIncoherently : Obligations.WrittenWordsAreNotExecutedIncoherently := by
  intro s hrun hnone hcoherent hwritten
  have hfetch : fetch (nextBoundary s) = .refused (.fetchFromWrittenWord s.ip) := if_pos ⟨hcoherent, hwritten⟩
  simp only [step, hrun, hnone, hfetch, Bool.false_eq_true, if_false]

/-! ### What one instruction stores -/

/-- Memory, the record of written words, `MEM_MAP` and `IFETCH_COHERENT` are the same in both. -/
def SameMemory (s t : State) : Prop :=
  t.mem = s.mem ∧ t.written = s.written ∧ t.map = s.map ∧ t.ifetchCoherent = s.ifetchCoherent

theorem SameMemory.of_memRead {s t : State} {a v : Word} (h : memRead s a = .ok (v, t)) : SameMemory s t := by
  obtain ⟨-, -, -, -, -, -, hmem, hwritten, -, -, hmap, hcoherent⟩ := memRead_frame h
  exact ⟨hmem, hwritten, hmap, hcoherent⟩

/-- The access to memory of an instruction is all that it does to memory (R61). -/
theorem Effect.memPhase {i : Instr} {s t : State} (h : Effect i s t) : ∃ u, MemPhase i s u ∧ SameMemory u t := by
  cases h with
  | pass hu | transfer hu | stack hu => exact ⟨_, hu, by simp [SameMemory]⟩
  | compare | alu | swap | jump | link | halt | page => exact ⟨s, .none, by simp [SameMemory]⟩

/-- Settles O53: an access to memory that is no store leaves memory, and a store is at the address the meaning
computes. -/
theorem instructionsStoreAtMostOneWord : Obligations.InstructionsStoreAtMostOneWord := by
  intro i s t h
  obtain ⟨u, hu, hmem, -⟩ := (exec_next h).memPhase
  rw [hmem]
  cases hu with
  | none => simp
  | read hr =>
    obtain ⟨hread, -⟩ := SameMemory.of_memRead hr
    simp [hread]
  | write ha hw =>
    refine ⟨fun hn => ?_, fun a ha' n hn => memWrite_readByte hw n ?_⟩
    · simp [ha] at hn
    · obtain rfl := Option.some.inj (ha.symm.trans ha')
      exact hn

/-! ### What a run leaves of memory -/

/-- How memory goes on from `s` to `t`: `MEM_MAP` and `IFETCH_COHERENT` stay, a recorded word stays recorded, and a word
that differs is in RAM and recorded as written (R63, R64, R72). -/
structure MemoryGoesOn (s t : State) : Prop where
  map : t.map = s.map
  coherent : t.ifetchCoherent = s.ifetchCoherent
  written : ∀ n ∈ s.written, n ∈ t.written
  word : ∀ a, t.mem.readWord a = s.mem.readWord a ∨ (kindAt s.map a = some .ram ∧ a.toNat ∈ t.written)

namespace MemoryGoesOn

variable {s t u : State}

theorem of_same (h : SameMemory s t) : MemoryGoesOn s t := by
  obtain ⟨hmem, hwritten, hmap, hcoherent⟩ := h
  exact ⟨hmap, hcoherent, fun _ hn => hwritten ▸ hn, fun _ => .inl (by rw [hmem])⟩

theorem trans (h : MemoryGoesOn s t) (h' : MemoryGoesOn t u) : MemoryGoesOn s u where
  map := h'.map.trans h.map
  coherent := h'.coherent.trans h.coherent
  written n hn := h'.written n (h.written n hn)
  word a := by
    rcases h'.word a with hsame | ⟨hram, hin⟩
    · rcases h.word a with hsame' | ⟨hram, hin⟩
      · exact .inl (hsame.trans hsame')
      · exact .inr ⟨hram, h'.written _ hin⟩
    · exact .inr ⟨h.map ▸ hram, hin⟩

/-- One write: RAM alone changes, at the one word that the record gains (R64, R72). -/
theorem of_memWrite {a v : Word} (h : memWrite s a v = .ok t) : MemoryGoesOn s t := by
  rcases memWrite_ok h with ⟨hram, rfl⟩ | ⟨-, rfl⟩
  · refine ⟨rfl, rfl, fun n hn => (mem_addWritten _ _ _).mpr (.inr hn), fun b => ?_⟩
    by_cases hb : b = a
    · exact .inr ⟨hb ▸ hram, (mem_addWritten _ _ _).mpr (.inl (congrArg BitVec.toNat hb))⟩
    · exact .inl (Memory.readWord_writeWord_other _ _ _ _ hb)
  · exact ⟨rfl, rfl, fun n hn => (mem_addWritten _ _ _).mpr (.inr hn), fun _ => .inl rfl⟩

theorem of_memPhase {i : Instr} (h : MemPhase i s t) : MemoryGoesOn s t := by
  cases h with
  | none => exact of_same ⟨rfl, rfl, rfl, rfl⟩
  | read hr => exact of_same (.of_memRead hr)
  | write _ hw => exact of_memWrite hw

theorem of_exec {i : Instr} (h : exec i s = .next t) : MemoryGoesOn s t := by
  obtain ⟨u, hu, hsame⟩ := (exec_next h).memPhase
  exact (of_memPhase hu).trans (of_same hsame)

/-- An interrupt entry writes memory by its push alone (R195). -/
theorem of_takeInterrupt {k : Priority} {id : IrqId} {ret : Word} (h : takeInterrupt k id ret s = .next t) :
    MemoryGoesOn s t := by
  rcases takeInterrupt_next h with ⟨-, u, hp, rfl⟩ | ⟨-, r, -, -, rfl⟩
  · obtain ⟨w, hw, rfl⟩ := push_ok hp
    exact (of_memWrite hw).trans (of_same ⟨rfl, rfl, rfl, rfl⟩)
  · exact of_same (by simp [SameMemory])

theorem of_step (h : step s = .next t) : MemoryGoesOn s t := by
  have hboundary : MemoryGoesOn s (nextBoundary s) := of_same ⟨rfl, rfl, rfl, rfl⟩
  obtain ⟨-, ⟨r, -, ht⟩ | ⟨-, w, u, i, hf, -, ht⟩⟩ := step_next h
  · exact hboundary.trans (of_takeInterrupt ht)
  · obtain ⟨-, hr⟩ := fetch_next hf
    exact (hboundary.trans (of_same (.of_memRead hr))).trans (of_exec ht)

theorem of_reaches (h : Reaches s t) : MemoryGoesOn s t :=
  reaches_induction (P := MemoryGoesOn s) (fun _ _ ih hstep => ih.trans (of_step hstep)) h
    (of_same ⟨rfl, rfl, rfl, rfl⟩)

end MemoryGoesOn

/-- Settles O59: a word that differs is in RAM. -/
theorem runsChangeRamAlone : Obligations.RunsChangeRamAlone := by
  intro s t h
  have hgo := MemoryGoesOn.of_reaches h
  exact ⟨hgo.map, fun a ha => (hgo.word a).resolve_right fun ⟨hram, _⟩ => ha hram⟩

/-- Settles O11: a word that differs is recorded as written, and the fetch of a recorded word has no next state. -/
theorem incoherentRunsExecuteTheOriginalCode : Obligations.IncoherentRunsExecuteTheOriginalCode := by
  intro s t u w _ hcoherent h hkind hf
  have hgo := MemoryGoesOn.of_reaches h
  obtain ⟨hnot, hr⟩ := fetch_next hf
  have hfresh : t.ip.toNat ∉ t.written := fun hin => hnot ⟨hgo.coherent.trans hcoherent, hin⟩
  have hsame : t.mem.readWord t.ip = s.mem.readWord t.ip :=
    (hgo.word t.ip).resolve_right fun ⟨_, hin⟩ => hfresh hin
  rcases memRead_ok hr with ⟨-, rfl, -⟩ | ⟨hdev, -, -⟩
  · exact hsame
  · exact absurd (hgo.map ▸ hdev) hkind

end Sys2Proof.Machine
end

section
/-! PROOFS. The round trip of the encoding, both ways: the word of an instruction decodes to it, and a word that decodes
is the word of its instruction (R96, R97, R103). -/

namespace Sys2Proof

/-! ### The decoder, format by format (R81, R90) -/

@[simp] theorem getElem_field (w : Word) (lo len i : Nat) (h : i < len) : (field w lo len)[i] = w.getLsbD (lo + i) := by
  simp [field]

theorem canonical_eq_ok {p : Prop} [Decidable p] {i j : Instr} : canonical p i = .ok j ↔ p ∧ i = j := by
  unfold canonical
  split <;> simp_all

/-- The code of a condition is the only code that decodes to it (R110). -/
theorem code_of_decodeCond {x : BitVec 4} {c : Cond} (h : decodeCond x = some c) : x = c.code := by
  revert x c
  decide

/-- A word that decodes carries the code of a condition (R112). -/
theorem cond_of_decodeWord {w : Word} {i : Instr} (h : decodeWord w = .ok i) : ∃ c : Cond, field w 28 4 = c.code := by
  unfold decodeWord at h
  split at h
  · cases h
  · exact ⟨_, code_of_decodeCond ‹_›⟩

/-- The leaves of the decode tree: bits 27:24, or bit 27 alone (R81). -/
theorem format_cases (w : Word) :
    field w 24 4 = 0x0#4 ∨ field w 24 4 = 0x1#4 ∨ field w 24 4 = 0x2#4 ∨ field w 24 4 = 0x3#4 ∨ field w 24 4 = 0x4#4 ∨
      field w 24 4 = 0x5#4 ∨ field w 24 4 = 0x6#4 ∨ field w 24 4 = 0x7#4 ∨ w.getLsbD 27 = true := by
  have h : ∀ x : BitVec 4, x = 0x0#4 ∨ x = 0x1#4 ∨ x = 0x2#4 ∨ x = 0x3#4 ∨ x = 0x4#4 ∨ x = 0x5#4 ∨ x = 0x6#4 ∨
      x = 0x7#4 ∨ x.getLsbD 3 = true := by decide
  simpa using h (field w 24 4)

section
variable {w : Word} {c : Cond} (hc : field w 28 4 = c.code)
include hc

theorem decodeWord_noFormat (hf : field w 24 4 = 0x0#4) : decodeWord w = .error .noFormat := by
  simp [decodeWord, hc, hf]

theorem decodeWord_core (hf : field w 24 4 = 0x1#4) : decodeWord w = decodeCORE c w := by simp [decodeWord, hc, hf]

theorem decodeWord_load (hf : field w 24 4 = 0x2#4) :
    decodeWord w = .ok (.load c (field w 20 4) (field w 16 4) (field w 0 16)) := by simp [decodeWord, hc, hf]

theorem decodeWord_stor (hf : field w 24 4 = 0x3#4) :
    decodeWord w = .ok (.stor c (field w 20 4) (field w 16 4) (field w 0 16)) := by simp [decodeWord, hc, hf]

theorem decodeWord_mov (hf : field w 24 4 = 0x4#4) : decodeWord w = decodeMOV c w := by simp [decodeWord, hc, hf]

theorem decodeWord_val (hf : field w 24 4 = 0x5#4) :
    decodeWord w = .ok (.movv c (field w 20 4) (field w 16 4) (field w 0 16)) := by simp [decodeWord, hc, hf]

theorem decodeWord_aluR (hf : field w 24 4 = 0x6#4) : decodeWord w = decodeALUR c w := by simp [decodeWord, hc, hf]

theorem decodeWord_aluV (hf : field w 24 4 = 0x7#4) : decodeWord w = decodeALUV c w := by simp [decodeWord, hc, hf]

theorem decodeWord_branch (hb : w.getLsbD 27 = true) : decodeWord w = decodeBR c w := by
  have hbit : (field w 24 4).getLsbD 3 = true := by simp [hb]
  simp only [decodeWord, hc, decodeCond_code]
  split
  case h_9 => rfl
  all_goals
    rename_i hf
    simp [hf] at hbit

end

/-! ### Decoding an encoded instruction -/

theorem wordBR_bit27 (c : Cond) (r s l : Bool) (base : RegNum) (i : Bool) (off : BitVec 19) :
    (wordBR c r s l base i off).getLsbD 27 = true := by simp [wordBR, place]

/-- Format by format: the word carries the format's selectors, and the format's decoder reads its fields back (R103). -/
theorem decodeWord_encode (i : Instr) (h : i.wellFormed = true) : decodeWord (encode i) = .ok i := by
  cases i with
  | addrV | subrV | maslV | masrV | andbV | orbtV | xorbV | notbV | arslV | arsrV | losrV | rotlV | rotrV | cmprV
  | testV | masiV =>
    rw [encode, decodeWord_aluV (wordALU_cond ..) (wordALU_fmt ..)]
    simp [decodeALUV, canonical]
  | addrR | subrR | maslR | masrR | andbR | orbtR | xorbR | notbR | arslR | arsrR | losrR | rotlR | rotrR | cmprR
  | testR | masiR =>
    rw [encode, decodeWord_aluR (wordALU_cond ..) (wordALU_fmt ..)]
    simp [decodeALUR, canonical]
  | brch | brsl | brss | brrl | brrs =>
    rw [encode, decodeWord_branch (wordBR_cond ..) (wordBR_bit27 ..)]
    simp [-BitVec.getLsbD_eq_getElem, decodeBR, canonical, Config.brSSave, Config.brLLink]
  | movv =>
    rw [encode, decodeWord_val (wordWide_cond ..) (wordWide_fmt ..)]
    simp
  | load =>
    rw [encode, decodeWord_load (wordWide_cond ..) (wordWide_fmt ..)]
    simp
  | stor =>
    rw [encode, decodeWord_stor (wordWide_cond ..) (wordWide_fmt ..)]
    simp
  | movr | swap =>
    rw [encode, decodeWord_mov (wordMOV_cond ..) (wordMOV_fmt ..)]
    simp [-BitVec.getLsbD_eq_getElem, decodeMOV, canonical]
  | noop | halt =>
    rw [encode, decodeWord_core (wordCORE_cond ..) (wordCORE_fmt ..)]
    simp [decodeCORE, canonical]
  | swin c v =>
    have hcanonical : (v.setWidth 20).extractLsb' 8 12 = 0#12 := by ext j hj; interval_cases j <;> simp
    have hv : (v.setWidth 20).extractLsb' 0 8 = v := by ext j hj; interval_cases j <;> simp
    rw [encode, decodeWord_core (wordCORE_cond ..) (wordCORE_fmt ..)]
    simp [decodeCORE, canonical, hcanonical, hv]
  | srpg c d p =>
    obtain ⟨hd, hp⟩ := srpgData_fields d p
    have hpage : p.toNat < Config.npages := of_decide_eq_true h
    rw [encode, decodeWord_core (wordCORE_cond ..) (wordCORE_fmt ..)]
    simp [decodeCORE, hd, hp, hpage]

/-- The bytes of an instruction decode to it and leave what follows them (R80, R103). -/
theorem decode_encodeBytes_append {i : Instr} (h : i.wellFormed = true) (rest : List (BitVec 8)) :
    decode (encodeBytes i ++ rest) = .ok (i, rest) := by
  simp [encodeBytes, decode, Machine.wordOfBytes_byteOfWord, decodeWord_encode i h, Except.map]

/-- Settles O1: as a word and as bytes. -/
theorem decodingAnEncodedInstructionGivesItBack : Obligations.DecodingAnEncodedInstructionGivesItBack :=
  fun i h => ⟨decodeWord_encode i h, decode_encodeBytes_append h⟩

/-- Settles O5: each word is the encoding of its instruction. -/
theorem sampleWordsDecodeAsListed : Obligations.SampleWordsDecodeAsListed :=
  ⟨decodeWord_encode (.addrV .neq 7 5 3 0x12) rfl, decodeWord_encode (.maslR .neq 7 5 6 0x12) rfl,
    decodeWord_encode (.brss .neq 8 true 0x123) rfl, decodeWord_encode (.movv .neq 15 9 0xBEEF) rfl,
    decodeWord_encode (.swap .neq 15 9) rfl, decodeWord_encode (.stor .neq 9 14 0x7FFF) rfl,
    decodeWord_encode (.srpg .neq true 3) rfl⟩

/-! ### A word is made again from its fields (R82 to R88) -/

section
variable {w : Word} {c : Cond} (hc : field w 28 4 = c.code)
include hc

theorem wordALU_of_fields {fmt d a x op : BitVec 4} {v : BitVec 8} (hf : field w 24 4 = fmt) (hd : field w 20 4 = d)
    (ha : field w 16 4 = a) (hx : field w 12 4 = x) (hv : field w 4 8 = v) (hop : field w 0 4 = op) :
    wordALU c fmt d a x v op = w := by
  subst hf hd ha hx hv hop
  apply BitVec.eq_of_getLsbD_eq; intro j hj; unfold wordALU place; rw [← hc]; interval_cases j <;> simp

theorem wordBR_of_fields {r s l i : Bool} {base : RegNum} {off : BitVec 19} (hb : w.getLsbD 27 = true)
    (hr : w.getLsbD 26 = r) (hs : w.getLsbD 25 = s) (hl : w.getLsbD 24 = l) (hbase : field w 20 4 = base)
    (hi : w.getLsbD 19 = i) (hoff : field w 0 19 = off) : wordBR c r s l base i off = w := by
  subst hr hs hl hbase hi hoff
  apply BitVec.eq_of_getLsbD_eq; intro j hj; unfold wordBR place; rw [← hc]
  interval_cases j <;> simp [hb]

theorem wordWide_of_fields {fmt x y : BitVec 4} {low : BitVec 16} (hf : field w 24 4 = fmt) (hx : field w 20 4 = x)
    (hy : field w 16 4 = y) (hlow : field w 0 16 = low) : wordWide c fmt x y low = w := by
  subst hf hx hy hlow
  apply BitVec.eq_of_getLsbD_eq; intro j hj; unfold wordWide place; rw [← hc]; interval_cases j <;> simp

theorem wordMOV_of_fields {d src : RegNum} {b : Bool} (hf : field w 24 4 = 0x4#4) (hd : field w 20 4 = d)
    (hsrc : field w 16 4 = src) (hb : w.getLsbD 15 = b) (hlow : field w 0 15 = 0#15) : wordMOV c d src b = w := by
  subst hd hsrc hb
  have hzero : ∀ j (h : j < 15), w[j] = false := fun j h => by
    have hbit : (field w 0 15)[j] = false := by simp [hlow]
    simpa [show j < 32 by omega] using hbit
  apply BitVec.eq_of_getLsbD_eq; intro j hj; unfold wordMOV place; rw [← hc, ← hf]
  interval_cases j <;> simp [hzero]

theorem wordCORE_of_fields {op : BitVec 4} {data : BitVec 20} (hf : field w 24 4 = 0x1#4) (hop : field w 20 4 = op)
    (hdata : field w 0 20 = data) : wordCORE c op data = w := by
  subst hop hdata
  apply BitVec.eq_of_getLsbD_eq; intro j hj; unfold wordCORE place; rw [← hc, ← hf]; interval_cases j <;> simp

end


/-! ### Encoding a decoded word -/

/-- The Data field of `swin` with its must-be-zero bits clear is SWIN_V widened (R89, R96). -/
theorem swinData_of_canonical {data : BitVec 20} (h : data.extractLsb' 8 12 = 0#12) :
    data = (data.extractLsb' 0 8).setWidth 20 := by
  have hnat := congrArg BitVec.toNat h
  apply BitVec.eq_of_toNat_eq
  simp [Nat.shiftRight_eq_div_pow] at hnat ⊢
  omega

/-- The word `w` is the encoding of `i`, and `i` is well-formed (R96). -/
def IsEncodingOf (w : Word) (i : Instr) : Prop := encode i = w ∧ i.wellFormed = true

section
variable {w : Word} {c : Cond} {i : Instr} (hc : field w 28 4 = c.code)
include hc

/-- Each arm fixes the operation field; `canonical` fixes the fields that the instruction does not hold (R83, R96). -/
theorem isEncodingOf_of_decodeALUV (hf : field w 24 4 = 0x7#4) (h : decodeALUV c w = .ok i) : IsEncodingOf w i := by
  simp only [decodeALUV] at h
  split at h
  case h_8 =>
    obtain ⟨⟨hsh, hv⟩, rfl⟩ := canonical_eq_ok.mp h
    exact ⟨wordALU_of_fields hc hf rfl rfl hsh hv ‹_›, rfl⟩
  case h_14 | h_15 =>
    obtain ⟨hd, rfl⟩ := canonical_eq_ok.mp h
    exact ⟨wordALU_of_fields hc hf hd rfl rfl rfl ‹_›, rfl⟩
  case h_16 =>
    cases h
    exact ⟨wordALU_of_fields hc hf rfl rfl rfl rfl (by simp only [imp_false] at *; bv_omega), rfl⟩
  all_goals
    cases h
    exact ⟨wordALU_of_fields hc hf rfl rfl rfl rfl ‹_›, rfl⟩

theorem isEncodingOf_of_decodeALUR (hf : field w 24 4 = 0x6#4) (h : decodeALUR c w = .ok i) : IsEncodingOf w i := by
  simp only [decodeALUR] at h
  split at h
  case h_3 | h_4 =>
    cases h
    exact ⟨wordALU_of_fields hc hf rfl rfl rfl rfl ‹_›, rfl⟩
  case h_8 =>
    obtain ⟨⟨hb, hv⟩, rfl⟩ := canonical_eq_ok.mp h
    exact ⟨wordALU_of_fields hc hf rfl rfl hb hv ‹_›, rfl⟩
  case h_14 | h_15 =>
    obtain ⟨⟨hd, hv⟩, rfl⟩ := canonical_eq_ok.mp h
    exact ⟨wordALU_of_fields hc hf hd rfl rfl hv ‹_›, rfl⟩
  case h_16 =>
    obtain ⟨hv, rfl⟩ := canonical_eq_ok.mp h
    exact ⟨wordALU_of_fields hc hf rfl rfl rfl hv (by simp only [imp_false] at *; bv_omega), rfl⟩
  all_goals
    obtain ⟨hv, rfl⟩ := canonical_eq_ok.mp h
    exact ⟨wordALU_of_fields hc hf rfl rfl rfl hv ‹_›, rfl⟩

theorem isEncodingOf_of_decodeBR (hb : w.getLsbD 27 = true) (h : decodeBR c w = .ok i) : IsEncodingOf w i := by
  simp only [decodeBR] at h
  split at h
  case isTrue hr =>
    split at h
    case isTrue hs =>
      split at h
      case isTrue hl =>
        cases h
        exact ⟨wordBR_of_fields hc hb hr hs hl rfl rfl rfl, rfl⟩
      case isFalse hl =>
        cases h
        exact ⟨wordBR_of_fields hc hb hr hs (Bool.eq_not_of_ne hl) rfl rfl rfl, rfl⟩
    case isFalse hs =>
      split at h
      case isTrue hl =>
        obtain ⟨⟨hbase, hoff⟩, rfl⟩ := canonical_eq_ok.mp h
        exact ⟨wordBR_of_fields hc hb hr (Bool.eq_not_of_ne hs) hl hbase rfl hoff, rfl⟩
      case isFalse hl =>
        obtain ⟨⟨hbase, hoff⟩, rfl⟩ := canonical_eq_ok.mp h
        exact ⟨wordBR_of_fields hc hb hr (Bool.eq_not_of_ne hs) (Bool.eq_not_of_ne hl) hbase rfl hoff, rfl⟩
  case isFalse hr =>
    split at h
    case isTrue => cases h
    case isFalse hsl =>
      obtain ⟨hs, hl⟩ := not_or.mp hsl
      obtain ⟨hi, rfl⟩ := canonical_eq_ok.mp h
      exact ⟨wordBR_of_fields hc hb (Bool.eq_false_of_not_eq_true hr) (Bool.eq_false_of_not_eq_true hs)
        (Bool.eq_false_of_not_eq_true hl) rfl hi rfl, rfl⟩

theorem isEncodingOf_of_decodeMOV (hf : field w 24 4 = 0x4#4) (h : decodeMOV c w = .ok i) : IsEncodingOf w i := by
  simp only [decodeMOV] at h
  split at h
  case isTrue hw =>
    obtain ⟨hlow, rfl⟩ := canonical_eq_ok.mp h
    exact ⟨wordMOV_of_fields hc hf rfl rfl hw hlow, rfl⟩
  case isFalse hw =>
    obtain ⟨hlow, rfl⟩ := canonical_eq_ok.mp h
    exact ⟨wordMOV_of_fields hc hf rfl rfl (Bool.eq_false_of_not_eq_true hw) hlow, rfl⟩

theorem isEncodingOf_of_decodeCORE (hf : field w 24 4 = 0x1#4) (h : decodeCORE c w = .ok i) : IsEncodingOf w i := by
  simp only [decodeCORE] at h
  split at h
  case h_1 | h_3 =>
    obtain ⟨hdata, rfl⟩ := canonical_eq_ok.mp h
    exact ⟨wordCORE_of_fields hc hf ‹_› hdata, rfl⟩
  case h_2 =>
    obtain ⟨hdata, rfl⟩ := canonical_eq_ok.mp h
    exact ⟨wordCORE_of_fields hc hf ‹_› (swinData_of_canonical hdata), rfl⟩
  case h_4 =>
    split at h
    case isFalse => cases h
    split at h
    case isFalse => cases h
    case isTrue hdata hpage =>
      cases h
      exact ⟨wordCORE_of_fields hc hf ‹_› hdata, decide_eq_true hpage⟩
  case h_5 => cases h

end

/-- A word that decodes is the encoding of its instruction, along the decode tree (R81, R96). -/
theorem isEncodingOf_of_decodeWord {w : Word} {i : Instr} (h : decodeWord w = .ok i) : IsEncodingOf w i := by
  obtain ⟨c, hc⟩ := cond_of_decodeWord h
  rcases format_cases w with hf | hf | hf | hf | hf | hf | hf | hf | hb
  · cases (decodeWord_noFormat hc hf).symm.trans h
  · exact isEncodingOf_of_decodeCORE hc hf ((decodeWord_core hc hf).symm.trans h)
  · cases (decodeWord_load hc hf).symm.trans h
    exact ⟨wordWide_of_fields hc hf rfl rfl rfl, rfl⟩
  · cases (decodeWord_stor hc hf).symm.trans h
    exact ⟨wordWide_of_fields hc hf rfl rfl rfl, rfl⟩
  · exact isEncodingOf_of_decodeMOV hc hf ((decodeWord_mov hc hf).symm.trans h)
  · cases (decodeWord_val hc hf).symm.trans h
    exact ⟨wordWide_of_fields hc hf rfl rfl rfl, rfl⟩
  · exact isEncodingOf_of_decodeALUR hc hf ((decodeWord_aluR hc hf).symm.trans h)
  · exact isEncodingOf_of_decodeALUV hc hf ((decodeWord_aluV hc hf).symm.trans h)
  · exact isEncodingOf_of_decodeBR hc hb ((decodeWord_branch hc hb).symm.trans h)

/-- Settles O2. -/
theorem encodingADecodedWordGivesItBack : Obligations.EncodingADecodedWordGivesItBack :=
  fun _ _ h => isEncodingOf_of_decodeWord h

end Sys2Proof
end

section
/-! PROOFS. The opcode table against the decoder: its rows do not overlap, and the words that decode are its canonical
words that are not reserved (R97, R102). -/

namespace Sys2Proof

/-! ### A row and the fields of its words -/

theorem field_and (w u : Word) (lo len : Nat) : field (w &&& u) lo len = field w lo len &&& field u lo len := by
  ext j hj
  simp

@[simp] theorem field_zero (lo len : Nat) : field 0 lo len = 0 := by simp [field]

namespace OpcodeRow

variable {r q : OpcodeRow} {w : Word}

theorem selects_iff : r.selects w = true ↔ w &&& r.mask = r.pattern := decide_eq_true_iff

theorem isCanonical_iff : r.isCanonical w = true ↔ w &&& r.mbz = 0 := decide_eq_true_iff

/-- A field that the row's mask covers is that of its pattern (R102). -/
theorem field_of_selects (h : r.selects w = true) {lo len : Nat} (hm : field r.mask lo len = BitVec.allOnes len) :
    field w lo len = field r.pattern lo len := by
  rw [← selects_iff.mp h, field_and, hm, BitVec.and_allOnes]

/-- A field that the row requires zero is zero in a canonical word (R96, R102). -/
theorem field_of_isCanonical (h : r.isCanonical w = true) {lo len : Nat}
    (hm : field r.mbz lo len = BitVec.allOnes len) : field w lo len = 0 := by
  have hand := congrArg (field · lo len) (isCanonical_iff.mp h)
  simpa only [field_and, hm, BitVec.and_allOnes, field_zero] using hand

/-- A bit that the row's mask covers is that of its pattern. -/
theorem getLsbD_of_selects (h : r.selects w = true) {j : Nat} (hm : r.mask.getLsbD j = true) :
    w.getLsbD j = r.pattern.getLsbD j := by
  rw [← selects_iff.mp h, BitVec.getLsbD_and, hm, Bool.and_true]

/-- A bit that the row requires zero is zero in a canonical word. -/
theorem getLsbD_of_isCanonical (h : r.isCanonical w = true) {j : Nat} (hm : r.mbz.getLsbD j = true) :
    w.getLsbD j = false := by
  have hand := congrArg (BitVec.getLsbD · j) (isCanonical_iff.mp h)
  simpa only [BitVec.getLsbD_and, hm, Bool.and_true, BitVec.ofNat_eq_ofNat, BitVec.getLsbD_zero] using hand

/-- Two rows that share a word agree where both masks reach. -/
theorem and_mask_comm_of_selects (hr : r.selects w = true) (hq : q.selects w = true) :
    r.pattern &&& q.mask = q.pattern &&& r.mask := by
  rw [← selects_iff.mp hr, ← selects_iff.mp hq, BitVec.and_assoc, BitVec.and_assoc, BitVec.and_comm r.mask]

end OpcodeRow

/-- Any two rows of the table differ on a bit that both masks reach. -/
theorem opcodeTable_eq_of_and_mask_comm :
    ∀ r ∈ opcodeTable, ∀ q ∈ opcodeTable, r.pattern &&& q.mask = q.pattern &&& r.mask → r = q := by
  decide

/-- Settles O4: the word itself shows the two rows to agree where both masks reach. -/
theorem opcodeTableRowsDoNotOverlap : Obligations.OpcodeTableRowsDoNotOverlap :=
  fun _ r hr q hq hrw hqw =>
    opcodeTable_eq_of_and_mask_comm r hr q hq (OpcodeRow.and_mask_comm_of_selects hrw hqw)

/-! ### A canonical word of a row decodes -/

theorem extractLsb'_field (w : Word) (lo len a n : Nat) (h : a + n ≤ len) :
    (field w lo len).extractLsb' a n = field w (lo + a) n := by
  ext j hj
  simp [show a + j < len by omega, Nat.add_assoc]

/-- The Data field of `srpg` with its must-be-zero bits clear is made of its two subfields (R89, R96). -/
theorem srpgData_of_canonical {data : BitVec 20} (h : data.extractLsb' 5 15 = 0#15) :
    data = srpgData (data.getLsbD Config.srpgDBit) (data.extractLsb' 0 4) := by
  have hzero : ∀ j (hj : j < 15), data[5 + j] = false := fun j hj => by
    have hbit : (data.extractLsb' 5 15)[j] = false := by simp [h]
    simpa [show 5 + j < 20 by omega] using hbit
  ext j hj
  unfold srpgData Config.srpgDBit
  by_cases hlow : j < 5
  · interval_cases j <;> simp
  · obtain ⟨k, rfl⟩ : ∃ k, j = 5 + k := ⟨j - 5, by omega⟩
    rw [hzero k (by omega)]
    simp
    omega

/-- Every code but 0xF is the code of a condition (R110). -/
theorem exists_cond_of_ne {x : BitVec 4} (h : x ≠ 0xF#4) : ∃ c : Cond, x = c.code := by
  have hsome : ∀ x : BitVec 4, x ≠ 0xF#4 → (decodeCond x).isSome = true := by decide
  obtain ⟨c, hc⟩ := Option.isSome_iff_exists.mp (hsome x h)
  exact ⟨c, code_of_decodeCond hc⟩

theorem code_ne_F (c : Cond) : c.code ≠ 0xF#4 := by cases c <;> decide

theorem canonical_of {p : Prop} [Decidable p] (h : p) (j : Instr) : ∃ i, canonical p j = .ok i := ⟨j, if_pos h⟩

section
variable {w : Word} (c : Cond)

theorem decodeALUV_isOk (h7 : field w 0 4 = 0x7#4 → field w 12 4 = 0#4 ∧ field w 4 8 = 0#8)
    (hDE : field w 0 4 = 0xD#4 ∨ field w 0 4 = 0xE#4 → field w 20 4 = 0#4) : ∃ i, decodeALUV c w = .ok i := by
  simp only [decodeALUV]
  split
  case h_8 hop => exact canonical_of (h7 hop) _
  case h_14 hop => exact canonical_of (hDE (.inl hop)) _
  case h_15 hop => exact canonical_of (hDE (.inr hop)) _
  all_goals exact ⟨_, rfl⟩

theorem decodeALUR_isOk (hv : field w 0 4 ≠ 0x2#4 → field w 0 4 ≠ 0x3#4 → field w 4 8 = 0#8)
    (h7 : field w 0 4 = 0x7#4 → field w 12 4 = 0#4)
    (hDE : field w 0 4 = 0xD#4 ∨ field w 0 4 = 0xE#4 → field w 20 4 = 0#4) : ∃ i, decodeALUR c w = .ok i := by
  simp only [decodeALUR]
  split
  case h_3 | h_4 => exact ⟨_, rfl⟩
  case h_8 hop => exact canonical_of ⟨h7 hop, hv (by simp [hop]) (by simp [hop])⟩ _
  case h_14 hop => exact canonical_of ⟨hDE (.inl hop), hv (by simp [hop]) (by simp [hop])⟩ _
  case h_15 hop => exact canonical_of ⟨hDE (.inr hop), hv (by simp [hop]) (by simp [hop])⟩ _
  case h_16 => exact canonical_of (hv ‹_› ‹_›) _
  all_goals
    rename_i hop
    exact canonical_of (hv (by simp [hop]) (by simp [hop])) _

theorem decodeMOV_isOk (hlow : field w 0 15 = 0#15) : ∃ i, decodeMOV c w = .ok i := by
  unfold decodeMOV
  split <;> exact canonical_of hlow _

theorem decodeBR_isOk_of_branch (hr : w.getLsbD 26 = false) (hs : w.getLsbD 25 = false) (hl : w.getLsbD 24 = false)
    (hi : w.getLsbD 19 = false) : ∃ i, decodeBR c w = .ok i := by
  simp only [decodeBR, hr, hs, hl]
  exact canonical_of hi _

theorem decodeBR_isOk_of_save (hr : w.getLsbD 26 = true) (hs : w.getLsbD 25 = Config.brSSave) :
    ∃ i, decodeBR c w = .ok i := by
  simp only [decodeBR, hr, hs, if_true]
  split <;> exact ⟨_, rfl⟩

theorem decodeBR_isOk_of_restore (hr : w.getLsbD 26 = true) (hs : w.getLsbD 25 = !Config.brSSave)
    (hbase : field w 20 4 = 0#4) (hoff : field w 0 19 = 0#19) : ∃ i, decodeBR c w = .ok i := by
  simp only [decodeBR, hr, hs, if_true, Bool.not_eq_self, if_false]
  split <;> exact canonical_of ⟨hbase, hoff⟩ _

theorem decodeCORE_isOk_of_noop_or_halt (hop : field w 20 4 = 0x0#4 ∨ field w 20 4 = 0x2#4)
    (hdata : field w 0 20 = 0#20) : ∃ i, decodeCORE c w = .ok i := by
  rcases hop with hop | hop
  · simp only [decodeCORE, hop]
    exact canonical_of hdata _
  · simp only [decodeCORE, hop]
    exact canonical_of hdata _

theorem decodeCORE_isOk_of_swin (hop : field w 20 4 = 0x1#4) (hdata : field w 8 12 = 0#12) :
    ∃ i, decodeCORE c w = .ok i := by
  simp only [decodeCORE, hop]
  exact canonical_of ((extractLsb'_field w 0 20 8 12 (by decide)).trans hdata) _

theorem decodeCORE_isOk_of_srpg (hop : field w 20 4 = 0x3#4) (hdata : field w 5 15 = 0#15)
    (hpage : (field w 0 4).toNat < Config.npages) : ∃ i, decodeCORE c w = .ok i := by
  have hcanonical := srpgData_of_canonical ((extractLsb'_field w 0 20 5 15 (by decide)).trans hdata)
  rw [← extractLsb'_field w 0 20 0 4 (by decide)] at hpage
  simp only [decodeCORE, hop]
  rw [if_pos hcanonical, if_pos hpage]
  exact ⟨_, rfl⟩

end

/-- The words of the row that carry a condition and are canonical and not reserved decode (R97, R102). -/
def OpcodeRow.Decodes (r : OpcodeRow) : Prop :=
  ∀ (w : Word) (c : Cond), field w 28 4 = c.code → r.selects w = true → r.isCanonical w = true →
    (r.mnemonic = "srpg" → (field w 0 4).toNat < 4) → ∃ i, decodeWord w = .ok i

/-- The must-be-zero masks of the value form cover what its decoder requires zero (R96). -/
def OpcodeRow.CoversALUV (r : OpcodeRow) : Prop :=
  field r.pattern 24 4 = 0x7#4 ∧
  (field r.pattern 0 4 = 0x7#4 → field r.mbz 12 4 = BitVec.allOnes 4 ∧ field r.mbz 4 8 = BitVec.allOnes 8) ∧
  (field r.pattern 0 4 = 0xD#4 ∨ field r.pattern 0 4 = 0xE#4 → field r.mbz 20 4 = BitVec.allOnes 4)

/-- The same for the register form. -/
def OpcodeRow.CoversALUR (r : OpcodeRow) : Prop :=
  field r.pattern 24 4 = 0x6#4 ∧
  (field r.pattern 0 4 ≠ 0x2#4 → field r.pattern 0 4 ≠ 0x3#4 → field r.mbz 4 8 = BitVec.allOnes 8) ∧
  (field r.pattern 0 4 = 0x7#4 → field r.mbz 12 4 = BitVec.allOnes 4) ∧
  (field r.pattern 0 4 = 0xD#4 ∨ field r.pattern 0 4 = 0xE#4 → field r.mbz 20 4 = BitVec.allOnes 4)

theorem opcodeTableALU_covers :
    ∀ r ∈ opcodeTableALU, r.mask = 0x0F00000F#32 ∧ (r.CoversALUV ∨ r.CoversALUR) := by
  unfold OpcodeRow.CoversALUV OpcodeRow.CoversALUR
  decide

/-- The 32 ALU rows share one mask, so that format and operation of a word are those of the row's pattern. -/
theorem decodes_of_mem_opcodeTableALU {r : OpcodeRow} (hr : r ∈ opcodeTableALU) : r.Decodes := by
  intro w c hc hs hz _
  obtain ⟨hmask, hcovers⟩ := opcodeTableALU_covers r hr
  have hfmt : field w 24 4 = field r.pattern 24 4 := r.field_of_selects hs (by rw [hmask]; decide)
  have hop : field w 0 4 = field r.pattern 0 4 := r.field_of_selects hs (by rw [hmask]; decide)
  rcases hcovers with ⟨hpat, h7, hDE⟩ | ⟨hpat, hv, h7, hDE⟩
  · rw [decodeWord_aluV hc (hfmt.trans hpat)]
    rw [← hop] at h7 hDE
    refine decodeALUV_isOk c (fun h => ?_) fun h => r.field_of_isCanonical hz (hDE h)
    obtain ⟨hx, hv⟩ := h7 h
    exact ⟨r.field_of_isCanonical hz hx, r.field_of_isCanonical hz hv⟩
  · rw [decodeWord_aluR hc (hfmt.trans hpat)]
    rw [← hop] at hv h7 hDE
    exact decodeALUR_isOk c (fun h2 h3 => r.field_of_isCanonical hz (hv h2 h3))
      (fun h => r.field_of_isCanonical hz (h7 h)) fun h => r.field_of_isCanonical hz (hDE h)

theorem decodes_of_mem_opcodeTableOther : ∀ r ∈ opcodeTableOther, r.Decodes := by
  simp only [opcodeTableOther, List.forall_mem_cons]
  refine ⟨?brch, ?brsl, ?brss, ?brrl, ?brrs, ?movv, ?movr, ?swap, ?load, ?stor, ?noop, ?swin, ?halt, ?srpg, by simp⟩
  all_goals intro w c hc hs hz hpage
  case movv => exact ⟨_, decodeWord_val hc (OpcodeRow.field_of_selects hs (by decide))⟩
  case load => exact ⟨_, decodeWord_load hc (OpcodeRow.field_of_selects hs (by decide))⟩
  case stor => exact ⟨_, decodeWord_stor hc (OpcodeRow.field_of_selects hs (by decide))⟩
  case movr | swap =>
    rw [decodeWord_mov hc (OpcodeRow.field_of_selects hs (by decide))]
    exact decodeMOV_isOk c (OpcodeRow.field_of_isCanonical hz (by decide))
  case brch =>
    rw [decodeWord_branch hc (OpcodeRow.getLsbD_of_selects hs (by decide))]
    exact decodeBR_isOk_of_branch c (OpcodeRow.getLsbD_of_selects hs (by decide))
      (OpcodeRow.getLsbD_of_selects hs (by decide)) (OpcodeRow.getLsbD_of_selects hs (by decide))
      (OpcodeRow.getLsbD_of_isCanonical hz (by decide))
  case brsl | brss =>
    rw [decodeWord_branch hc (OpcodeRow.getLsbD_of_selects hs (by decide))]
    exact decodeBR_isOk_of_save c (OpcodeRow.getLsbD_of_selects hs (by decide))
      (OpcodeRow.getLsbD_of_selects hs (by decide))
  case brrl | brrs =>
    rw [decodeWord_branch hc (OpcodeRow.getLsbD_of_selects hs (by decide))]
    exact decodeBR_isOk_of_restore c (OpcodeRow.getLsbD_of_selects hs (by decide))
      (OpcodeRow.getLsbD_of_selects hs (by decide)) (OpcodeRow.field_of_isCanonical hz (by decide))
      (OpcodeRow.field_of_isCanonical hz (by decide))
  case noop =>
    rw [decodeWord_core hc (OpcodeRow.field_of_selects hs (by decide))]
    exact decodeCORE_isOk_of_noop_or_halt c (.inl (OpcodeRow.field_of_selects hs (by decide)))
      (OpcodeRow.field_of_isCanonical hz (by decide))
  case swin =>
    rw [decodeWord_core hc (OpcodeRow.field_of_selects hs (by decide))]
    exact decodeCORE_isOk_of_swin c (OpcodeRow.field_of_selects hs (by decide))
      (OpcodeRow.field_of_isCanonical hz (by decide))
  case halt =>
    rw [decodeWord_core hc (OpcodeRow.field_of_selects hs (by decide))]
    exact decodeCORE_isOk_of_noop_or_halt c (.inr (OpcodeRow.field_of_selects hs (by decide)))
      (OpcodeRow.field_of_isCanonical hz (by decide))
  case srpg =>
    rw [decodeWord_core hc (OpcodeRow.field_of_selects hs (by decide))]
    exact decodeCORE_isOk_of_srpg c (OpcodeRow.field_of_selects hs (by decide))
      (OpcodeRow.field_of_isCanonical hz (by decide)) (hpage rfl)

/-! ### The encoding of an instruction is a canonical word of a row -/

/-- The statement of `Laws.EncodingMatchesRow`, for all constructors (R102). -/
theorem encode_matches_row (i : Instr) : Laws.EncodingMatchesRow.Statement i := by
  open Laws.EncodingMatchesRow in
  cases i
  exacts [addrV _ _ _ _ _, addrR _ _ _ _, subrV _ _ _ _ _, subrR _ _ _ _, maslV _ _ _ _ _, maslR _ _ _ _ _,
    masrV _ _ _ _ _, masrR _ _ _ _ _, andbV _ _ _ _ _, andbR _ _ _ _, orbtV _ _ _ _ _, orbtR _ _ _ _, xorbV _ _ _ _ _,
    xorbR _ _ _ _, notbV _ _ _, notbR _ _ _, arslV _ _ _ _ _, arslR _ _ _ _, arsrV _ _ _ _ _, arsrR _ _ _ _,
    losrV _ _ _ _ _, losrR _ _ _ _, rotlV _ _ _ _ _, rotlR _ _ _ _, rotrV _ _ _ _ _, rotrR _ _ _ _, cmprV _ _ _ _,
    cmprR _ _ _, testV _ _ _ _, testR _ _ _, masiV _ _ _ _ _, masiR _ _ _ _, brch _ _ _, brsl _ _ _ _, brss _ _ _ _,
    brrl _ _, brrs _ _, movv _ _ _ _, movr _ _ _, swap _ _ _, load _ _ _ _, stor _ _ _ _, noop _, swin _ _, halt _,
    srpg _ _ _]

theorem cond_encode (i : Instr) : field (encode i) 28 4 = i.cond.code := by
  cases i <;> simp [encode, Instr.cond]

/-- The one instruction listed as `srpg` has its page in bits 3:0 (R89). -/
theorem page_encode_of_mnemonic {i : Instr} (h : i.wellFormed = true) (hm : i.mnemonic = "srpg") :
    (field (encode i) 0 4).toNat < 4 := by
  cases i with
  | srpg c d p =>
    have hp : field (encode (.srpg c d p)) 0 4 = p := by
      obtain ⟨-, hpage⟩ := srpgData_fields d p
      rw [← extractLsb'_field _ 0 20 0 4 (by decide), encode, wordCORE_data, hpage]
    rw [hp]
    exact of_decide_eq_true h
  | _ => simp [Instr.mnemonic] at hm

/-- Settles O3: a word that decodes is the encoding of its instruction, and each row is decoded. -/
theorem decodableWordsAreTheCanonicalTableWords : Obligations.DecodableWordsAreTheCanonicalTableWords := by
  refine fun w => ⟨fun ⟨i, hi⟩ => ?_, fun ⟨hcond, r, hr, hs, hz, hpage⟩ => ?_⟩
  · obtain ⟨rfl, hwf⟩ := isEncodingOf_of_decodeWord hi
    obtain ⟨r, hr, hm, hs, hz⟩ := encode_matches_row i hwf
    exact ⟨cond_encode i ▸ code_ne_F _, r, hr, hs, hz, fun h => page_encode_of_mnemonic hwf (hm.symm.trans h)⟩
  · obtain ⟨c, hc⟩ := exists_cond_of_ne hcond
    rcases List.mem_append.mp hr with hr | hr
    · exact decodes_of_mem_opcodeTableALU hr w c hc hs hz hpage
    · exact decodes_of_mem_opcodeTableOther r hr w c hc hs hz hpage

end Sys2Proof
end

section
/-! PROOFS. The write of a register as an instruction ends with it, the value load, and the step that fetches a reserved
encoding (R26, R29, R94, R97, R171). -/

namespace Sys2Proof.Machine

open Sys2Proof.Spec

/-! ### The write of a register -/

/-- A register can take a value unless it is CS and the value names a page of 4 or more (R26). -/
theorem writable_eq_true_iff (r : RegName) (v : Word) : writable r v = true ↔ r ≠ .cs ∨ (field v 12 4).toNat < 4 := by
  cases r with
  | cs =>
    rw [or_iff_right fun hne => hne rfl]
    exact decide_eq_true_iff
  | _ => simp [writable]

/-- The write back to a named register, with the page rule of CS (R26, R29). -/
theorem writes_writeBack {cs : Word} {d : RegNum} {rd : RegName} (h : regName cs d = some rd) (s : State) (v : Word) :
    Writes (writeBack cs s d v) s rd v := by
  refine ⟨fun hw => writeBack_of_name h ((writable_eq_true_iff rd v).mpr hw), fun ⟨hcs, hpage⟩ => ?_⟩
  have hno : ¬writable rd v = true := by
    rw [writable_eq_true_iff]
    rintro (hne | hlt)
    · exact hne hcs
    · omega
  simp only [writeBack, withDest, h, if_neg hno]

/-! ### The value load -/

/-- Settles O36. -/
theorem loadValueWritesTheShiftedValue : Obligations.LoadValueWritesTheShiftedValue := by
  intro s c d sh v rd hc hd
  have hexec : exec (.movv c d sh v) s = writeBack s.cs (fallThrough s) d (value16 s.cs v <<< sh.toNat) :=
    underCond_holds hc _
  rw [hexec]
  exact writes_writeBack hd _ _

/-! ### A reserved encoding -/

/-- Settles O7: the fetch succeeds, and the step stops at the decoder. -/
theorem reservedEncodingsAreRefused : Obligations.ReservedEncodingsAreRefused := by
  intro s why ⟨hrun, hnone, hkind, hcoherent⟩ hwhy
  have hfetch : fetch (nextBoundary s) = .next (s.mem.readWord s.ip, nextBoundary s) :=
    fetch_of_memory (s := nextBoundary s) hkind hcoherent
  simp only [step, hrun, hnone, hfetch, hwhy, Bool.false_eq_true, if_false]

end Sys2Proof.Machine

end

section
/-! PROOFS. Conditional execution: the reserved condition, a condition that fails, the table of the conditions, and how
they order the operands after a compare (R110 to R113, R121). -/

namespace Sys2Proof.Machine

/-! ### The reserved condition -/

/-- The decoder reads the condition first, and nothing else of a word whose condition is 0xF (R90, R112). -/
theorem decodeWord_of_conditionF {w : Word} (h : field w 28 4 = 0xF#4) : decodeWord w = .error .conditionF := by
  have hnone : decodeCond 0xF#4 = none := rfl
  simp only [decodeWord, h, hnone]

/-- Settles O6: a word with condition 0xF is one of the reserved encodings that a step refuses. -/
theorem conditionFIsReserved : Obligations.ConditionFIsReserved :=
  ⟨fun _ => decodeWord_of_conditionF,
    fun s hfetches hF => reservedEncodingsAreRefused s .conditionF hfetches (decodeWord_of_conditionF hF)⟩

/-! ### A condition that fails -/

/-- Every meaning stands under the check of the instruction's own condition (R29 step 4, R111). -/
theorem exec_eq_underCond (i : Instr) (s : State) : ∃ body, exec i s = underCond i.cond s body := by
  cases i <;> exact ⟨_, rfl⟩

/-- Settles O12. -/
theorem failedConditionOnlyAdvances : Obligations.FailedConditionOnlyAdvances := by
  intro i s hfails
  obtain ⟨body, hexec⟩ := exec_eq_underCond i s
  rw [hexec]
  exact underCond_fails hfails body

/-! ### The table of the conditions -/

/-- Settles O13: the sixteen codes one by one, then the formula of each condition over the flag bits. -/
theorem conditionsTestTheFlagsOfTheTable : Obligations.ConditionsTestTheFlagsOfTheTable := by
  refine ⟨by decide, fun cs => ⟨rfl, ?_⟩⟩
  simp [condHolds, csC, csZ, csN, csV]

/-! ### The flags of a compare -/

section
variable (A B : Word)

/-- The overflow of `subOut` is the library's signed overflow of a subtraction (R121). -/
theorem overflow_subOut : (A.msb != B.msb && (A - B).msb != A.msb) = A.ssubOverflow B := by
  rw [BitVec.ssubOverflow_eq]
  cases A.msb <;> cases B.msb <;> simp

/-- Signed overflow: the true difference is no 32-bit signed value (R121). -/
theorem ssubOverflow_iff :
    A.ssubOverflow B = true ↔ ¬(-2 ^ 31 ≤ A.toInt - B.toInt ∧ A.toInt - B.toInt < 2 ^ 31) := by
  simp only [BitVec.ssubOverflow, Bool.or_eq_true, decide_eq_true_eq]
  omega

/-- The sign of the difference, corrected by the overflow, orders the operands as signed values: without overflow it is
the sign of the true difference; with overflow the operands' own signs differ, and it is the sign of `B` (R113, R121). -/
theorem msb_sub_eq_ssubOverflow_iff : (A - B).msb = A.ssubOverflow B ↔ B.toInt ≤ A.toInt := by
  cases hov : A.ssubOverflow B with
  | false =>
    have hsub : (A - B).toInt = A.toInt - B.toInt := BitVec.toInt_sub_of_not_ssubOverflow (by simp [hov])
    rw [BitVec.msb_eq_toInt, hsub, decide_eq_false_iff_not]
    omega
  | true =>
    have hsigns : A.msb = !B.msb ∧ (A - B).msb = B.msb := by
      rw [BitVec.ssubOverflow_eq] at hov
      revert hov
      cases A.msb <;> cases B.msb <;> simp
    obtain ⟨hA, hsub⟩ := hsigns
    rw [hsub]
    simp only [BitVec.msb_eq_toInt, ← decide_not, decide_eq_decide] at hA
    rw [BitVec.msb_eq_toInt, decide_eq_true_iff]
    omega

end

/-- The flags of CS are those of a compare of `A` with `B`, each by what it says of the operands (R113, R121). -/
structure FlagsOfCompare (cs A B : Word) : Prop where
  carry : csC cs = true ↔ B.toNat ≤ A.toNat
  zero : csZ cs = true ↔ A = B
  negative : csN cs = true ↔ (A - B).toInt < 0
  overflow : csV cs = true ↔ ¬(-2 ^ 31 ≤ A.toInt - B.toInt ∧ A.toInt - B.toInt < 2 ^ 31)
  signed : csN cs = csV cs ↔ B.toInt ≤ A.toInt

theorem flagsOfCompare_flagUpdate {cs : Word} (h : csInhibit cs = false) (A B : Word) :
    FlagsOfCompare (flagUpdate cs (subOut A B)) A B := by
  have hcs : flagUpdate cs (subOut A B) =
      csSetFlags cs (decide (B.toNat ≤ A.toNat)) (decide (A - B = 0)) (A - B).msb (A.ssubOverflow B) := by
    simp [flagUpdate, h, subOut, overflow_subOut]
  rw [hcs]
  exact {
    carry := by simp
    zero := by rw [csZ_csSetFlags, decide_eq_true_iff]; exact sub_eq_zero
    negative := by simp [BitVec.msb_eq_toInt]
    overflow := by rw [csV_csSetFlags, ssubOverflow_iff]
    signed := by rw [csN_csSetFlags, csV_csSetFlags, msb_sub_eq_ssubOverflow_iff] }

/-! ### The conditions after a compare -/

/-- `cmpr` of two registers, where its condition holds: the flags of their difference, and the advance (R135). -/
theorem exec_cmprR {s : State} {c : Cond} {a b : RegNum} {ra rb : RegName} (hc : condHolds c s.cs = true)
    (ha : regName s.cs a = some ra) (hb : regName s.cs b = some rb) :
    exec (.cmprR c a b) s = .next ((advance s).withCs (flagUpdate s.cs (subOut (s.get ra) (s.get rb)))) := by
  calc exec (.cmprR c a b) s
    _ = aluReg s a b subOut (aluDiscard s) := underCond_holds hc _
    _ = withReg s b fun B => aluDiscard s (subOut (s.get ra) B) := withReg_of_name ha _
    _ = aluDiscard s (subOut (s.get ra) (s.get rb)) := withReg_of_name hb _

/-- Settles O14: each condition is a formula over the flags, and `FlagsOfCompare` says what each flag means. -/
theorem conditionsAfterCompareOrderTheOperands : Obligations.ConditionsAfterCompareOrderTheOperands := by
  intro s c a b ra rb k hc hf ha hb A B
  refine ⟨(advance s).withCs (flagUpdate s.cs (subOut A B)), exec_cmprR hc ha hb, ?_⟩
  obtain ⟨hC, hZ, hN, hV, hNV⟩ := flagsOfCompare_flagUpdate hf A B
  have hunsigned : A = B ↔ A.toNat = B.toNat := BitVec.toNat_inj.symm
  have hsigned : A = B ↔ A.toInt = B.toInt := BitVec.toInt_inj.symm
  rw [State.withCs_cs]
  generalize flagUpdate s.cs (subOut A B) = cs at *
  cases k with
  | alc => exact iff_of_true rfl trivial
  | eql => exact hZ
  | hos => exact hC
  | neg => exact hN
  | ovf => exact hV
  | neq => simp only [condHolds, Bool.not_eq_true', ← Bool.not_eq_true, hZ, ne_eq]
  | low => simp only [condHolds, Bool.not_eq_true', ← Bool.not_eq_true, hC, not_le]
  | poz => simp only [condHolds, Bool.not_eq_true', ← Bool.not_eq_true, hN, not_lt]
  | nov => simp only [condHolds, Bool.not_eq_true', ← Bool.not_eq_true, hV, not_not]
  | hig =>
    simp only [condHolds, Bool.and_eq_true, Bool.not_eq_true', ← Bool.not_eq_true, hC, hZ, hunsigned]
    omega
  | los =>
    simp only [condHolds, Bool.or_eq_true, Bool.not_eq_true', ← Bool.not_eq_true, hC, hZ, hunsigned]
    omega
  | get => simp only [condHolds, beq_iff_eq, hNV]
  | let_ => simp only [condHolds, bne_iff_ne, ne_eq, hNV, not_le]
  | grt =>
    simp only [condHolds, Bool.and_eq_true, Bool.not_eq_true', ← Bool.not_eq_true, beq_iff_eq, hZ, hNV, hsigned]
    omega
  | lst =>
    simp only [condHolds, Bool.or_eq_true, bne_iff_ne, ne_eq, hZ, hNV, hsigned]
    omega

end Sys2Proof.Machine

end

section
/-! PROOFS. The ALU operations: what overflow and carry mean, the shifts as arithmetic, the flags each result writes,
and the exact outcome of every ALU instruction, read off its record (R92, R93, R120 to R138). -/

namespace Sys2Proof.Machine

open Sys2Proof.Spec

/-! ### Overflow and carry -/

section
variable (A B : Word)

/-- The overflow of `addOut` is the library's signed overflow of an addition (R121). -/
theorem overflow_addOut : (A.msb == B.msb && (A + B).msb != A.msb) = A.saddOverflow B := by
  rw [BitVec.saddOverflow_eq]
  cases A.msb <;> cases B.msb <;> simp

/-- Signed overflow: the true sum is no 32-bit signed value (R121). -/
theorem saddOverflow_iff :
    A.saddOverflow B = true ↔ ¬(-2 ^ 31 ≤ A.toInt + B.toInt ∧ A.toInt + B.toInt < 2 ^ 31) := by
  simp only [BitVec.saddOverflow, Bool.or_eq_true, decide_eq_true_eq]
  omega

end

/-- Settles O28: the overflow bits are the library's signed overflows. -/
theorem overflowMeansTheSignedResultDoesNotFit : Obligations.OverflowMeansTheSignedResultDoesNotFit := by
  intro A B
  refine ⟨⟨_, _, rfl, decide_eq_true_iff, ?_⟩, ⟨_, _, rfl, decide_eq_true_iff, ?_⟩⟩
  · rw [overflow_addOut, saddOverflow_iff]
  · rw [overflow_subOut, ssubOverflow_iff]

/-! ### Shifts and rotates -/

/-- Settles O29. -/
theorem shiftsAreMultiplicationAndDivision : Obligations.ShiftsAreMultiplicationAndDivision := by
  intro A n _
  refine ⟨?_, ?_, ?_⟩
  · rw [shiftLeft, BitVec.toNat_shiftLeft, Nat.shiftLeft_eq]
  · rw [shiftRightLogic, BitVec.toNat_ushiftRight, Nat.shiftRight_eq_div_pow]
  · rw [shiftRightArith, BitVec.toInt_sshiftRight, Int.shiftRight_eq_div_pow,
      Int.fdiv_eq_ediv_of_nonneg _ (by positivity)]
    norm_cast

/-- An amount modulo 32 is the low five bits of the operand (R138). -/
theorem shiftAmount_eq_field (B : Word) : shiftAmount B = (field B 0 5).toNat := by
  simp [shiftAmount, field, Config.shiftModulus]

theorem toNat_field_five_lt (B : Word) : (field B 0 5).toNat < 32 := (field B 0 5).isLt

/-- The model's rotation is the library's; for an amount of 0 the part that wraps around is empty (R133). -/
theorem rotateLeft_eq (A : Word) {n : Nat} (h : n < 32) : rotateLeft A n = A.rotateLeft n := by
  rw [rotateLeft, BitVec.rotateLeft_def, Nat.mod_eq_of_lt h]
  split
  · subst n
    simp [BitVec.ushiftRight_eq_zero]
  · rfl

/-- To the right as well (R134). -/
theorem rotateRight_eq (A : Word) {n : Nat} (h : n < 32) : rotateRight A n = A.rotateRight n := by
  rw [rotateRight, BitVec.rotateRight_def, Nat.mod_eq_of_lt h]
  split
  · subst n
    simp [BitVec.shiftLeft_eq_zero]
  · rfl

/-! ### Result and flags of an operation -/

/-- Under `cs`, the outcome `o` of an operation is the result `res` and leaves `cs'` in CS (R36, R37). -/
structure Yields (cs : Word) (o : AluOut) (res cs' : Word) : Prop where
  res_eq : o.res = res
  flags_eq : flagUpdate cs o = cs'

section
variable (cs A B : Word)

theorem getLsbD_31_eq_msb (x : Word) : x.getLsbD 31 = x.msb := (BitVec.msb_eq_getLsbD_last x).symm

theorem overflowAdd_eq : overflowAdd A B = (A.msb == B.msb && (A + B).msb != A.msb) := by
  simp only [overflowAdd, getLsbD_31_eq_msb, Bool.decide_and, ne_eq, decide_not]
  rfl

theorem overflowSub_eq : overflowSub A B = (A.msb != B.msb && (A - B).msb != A.msb) := by
  simp only [overflowSub, getLsbD_31_eq_msb, Bool.decide_and, ne_eq, decide_not]
  rfl

/-- An operation that writes the result and all four flags as given (R37). -/
theorem yields_of_cv (res : Word) (c v : Bool) : Yields cs ⟨res, some (c, v)⟩ res (flagsCZNV cs c v res) :=
  ⟨rfl, by rw [flagsCZNV, getLsbD_31_eq_msb]; rfl⟩

theorem yields_addOut : Yields cs (addOut A B) (A + B) (flagsCZNV cs (carryAdd A B) (overflowAdd A B) (A + B)) := by
  rw [overflowAdd_eq]
  exact yields_of_cv ..

theorem yields_subOut : Yields cs (subOut A B) (A - B) (flagsCZNV cs (carrySub A B) (overflowSub A B) (A - B)) := by
  rw [overflowSub_eq]
  exact yields_of_cv ..

/-- Thirteen operations write Z and N alone (R37, R121). -/
theorem yields_plainOut (res : Word) : Yields cs (plainOut res) res (flagsZN cs res) :=
  ⟨rfl, by rw [flagsZN, flagsCZNV, getLsbD_31_eq_msb]; rfl⟩

/-- A shift or rotate `g` takes the low five bits of its operand as the amount (R138). -/
theorem yields_shift (g : Nat → Word) :
    Yields cs (plainOut (g (shiftAmount B))) (g (field B 0 5).toNat) (flagsZN cs (g (field B 0 5).toNat)) := by
  rw [shiftAmount_eq_field]
  exact yields_plainOut ..

theorem yields_rotateLeft :
    Yields cs (plainOut (rotateLeft A (shiftAmount B))) (A.rotateLeft (field B 0 5).toNat)
      (flagsZN cs (A.rotateLeft (field B 0 5).toNat)) := by
  rw [← rotateLeft_eq A (toNat_field_five_lt B)]
  exact yields_shift cs B (rotateLeft A)

theorem yields_rotateRight :
    Yields cs (plainOut (rotateRight A (shiftAmount B))) (A.rotateRight (field B 0 5).toNat)
      (flagsZN cs (A.rotateRight (field B 0 5).toNat)) := by
  rw [← rotateRight_eq A (toNat_field_five_lt B)]
  exact yields_shift cs B (rotateRight A)

end

/-! ### The outcome of an ALU instruction -/

/-- The widened Value of the model is that of the rules (R92). -/
theorem ext8_eq_value8 (cs : Word) (v : BitVec 8) : ext8 cs v = value8 cs v := rfl

/-- The value operand of the model is that of the rules (R93). -/
theorem valueOperand_eq_operand (cs : Word) (sh : BitVec 4) (v : BitVec 8) :
    valueOperand cs sh v = operand cs sh v := by
  rw [valueOperand, ext8_eq_value8, evenShift, operand]

/-- Where its condition holds and its terms name registers, an ALU instruction ends with its result (R120). -/
theorem exec_of_terms {i : Instr} {f : AluForm} {s : State} {ra : RegName} {B : Word} (hf : aluForm i = some f)
    (hc : condHolds f.cond s.cs = true) (ha : regName s.cs f.a = some ra) (hB : ∀ k, f.withTermB s k = k B) :
    exec i s = f.finish s (f.out s.cs (s.get ra) B) := by
  calc exec i s
    _ = f.run s := exec_of_aluForm hf s
    _ = withReg s f.a fun A => f.withTermB s fun B => f.finish s (f.out s.cs A B) := underCond_holds hc _
    _ = f.withTermB s fun B => f.finish s (f.out s.cs (s.get ra) B) := withReg_of_name ha _
    _ = f.finish s (f.out s.cs (s.get ra) B) := hB _

/-- The end of an ALU instruction that stores (R120). -/
theorem stores_aluStore {s : State} {d : RegNum} {rd : RegName} {o : AluOut} {res cs' : Word}
    (hd : regName s.cs d = some rd) (hy : Yields s.cs o res cs') : Stores (aluStore s d o) s rd res cs' := by
  obtain ⟨rfl, rfl⟩ := hy
  exact writes_writeBack hd _ _

/-- The end of `cmpr` and `test` (R120, R135, R136). -/
theorem aluDiscard_of_yields {s : State} {o : AluOut} {res cs' : Word} (hy : Yields s.cs o res cs') :
    aluDiscard s o = .next ((fallThrough s).withCs cs') := by
  obtain ⟨-, rfl⟩ := hy
  rfl

section
variable {i : Instr} {s : State} {c : Cond} {d a b : RegNum} {sh : BitVec 4} {v : BitVec 8} {rd ra rb : RegName}
  {out : Word → Word → Word → AluOut} {res cs' : Word}

/-- An instruction that stores, with a register for Term B. -/
theorem stores_of_regTerm (hi : aluForm i = some ⟨c, some d, a, some b, out⟩) (hc : condHolds c s.cs = true)
    (hd : regName s.cs d = some rd) (ha : regName s.cs a = some ra) (hb : regName s.cs b = some rb)
    (hy : Yields s.cs (out s.cs (s.get ra) (s.get rb)) res cs') : Stores (exec i s) s rd res cs' := by
  rw [exec_of_terms hi hc ha (withReg_of_name hb)]
  exact stores_aluStore hd hy

/-- An instruction that stores, with no register for Term B. -/
theorem stores_of_noTerm (hi : aluForm i = some ⟨c, some d, a, none, out⟩) (hc : condHolds c s.cs = true)
    (hd : regName s.cs d = some rd) (ha : regName s.cs a = some ra)
    (hy : Yields s.cs (out s.cs (s.get ra) 0) res cs') : Stores (exec i s) s rd res cs' := by
  rw [exec_of_terms hi hc ha fun _ => rfl]
  exact stores_aluStore hd hy

variable {g : Word → Word → AluOut}

/-- The value form of an operation that stores (R93). -/
theorem stores_of_value (hi : aluForm i = some (.value c (some d) a sh v g)) (hc : condHolds c s.cs = true)
    (hd : regName s.cs d = some rd) (ha : regName s.cs a = some ra)
    (hy : Yields s.cs (g (s.get ra) (operand s.cs sh v)) res cs') : Stores (exec i s) s rd res cs' := by
  rw [← valueOperand_eq_operand] at hy
  exact stores_of_noTerm hi hc hd ha hy

/-- The register form of an operation that stores no result. -/
theorem discards_of_reg (hi : aluForm i = some (.reg c none a b g)) (hc : condHolds c s.cs = true)
    (ha : regName s.cs a = some ra) (hb : regName s.cs b = some rb)
    (hy : Yields s.cs (g (s.get ra) (s.get rb)) res cs') : exec i s = .next ((fallThrough s).withCs cs') := by
  rw [exec_of_terms hi hc ha (withReg_of_name hb)]
  exact aluDiscard_of_yields hy

/-- The value form of an operation that stores no result (R93). -/
theorem discards_of_value (hi : aluForm i = some (.value c none a sh v g)) (hc : condHolds c s.cs = true)
    (ha : regName s.cs a = some ra) (hy : Yields s.cs (g (s.get ra) (operand s.cs sh v)) res cs') :
    exec i s = .next ((fallThrough s).withCs cs') := by
  rw [← valueOperand_eq_operand] at hy
  rw [exec_of_terms hi hc ha fun _ => rfl]
  exact aluDiscard_of_yields hy

end

/-! ### The instructions, operation by operation -/

/-- Settles O22. -/
theorem addAndSubtractWriteResultAndFlags : Obligations.AddAndSubtractWriteResultAndFlags := by
  intro s c d a b sh v rd ra rb hc hd ha hb A B V
  exact ⟨stores_of_regTerm rfl hc hd ha hb (yields_addOut s.cs A B),
    stores_of_value rfl hc hd ha (yields_addOut s.cs A V),
    stores_of_regTerm rfl hc hd ha hb (yields_subOut s.cs A B),
    stores_of_value rfl hc hd ha (yields_subOut s.cs A V)⟩

/-- Settles O23; `notb` has no Term B in either form (R129). -/
theorem logicalOperationsWriteResultAndZN : Obligations.LogicalOperationsWriteResultAndZN := by
  intro s c d a b sh v rd ra rb hc hd ha hb A B V
  exact ⟨stores_of_regTerm rfl hc hd ha hb (yields_plainOut s.cs (A &&& B)),
    stores_of_value rfl hc hd ha (yields_plainOut s.cs (A &&& V)),
    stores_of_regTerm rfl hc hd ha hb (yields_plainOut s.cs (A ||| B)),
    stores_of_value rfl hc hd ha (yields_plainOut s.cs (A ||| V)),
    stores_of_regTerm rfl hc hd ha hb (yields_plainOut s.cs (A ^^^ B)),
    stores_of_value rfl hc hd ha (yields_plainOut s.cs (A ^^^ V)),
    stores_of_regTerm rfl hc hd ha hb (yields_plainOut s.cs (A &&& ~~~B)),
    stores_of_value rfl hc hd ha (yields_plainOut s.cs (A &&& ~~~V)),
    stores_of_noTerm rfl hc hd ha (yields_plainOut s.cs (~~~A)),
    stores_of_noTerm rfl hc hd ha (yields_plainOut s.cs (~~~A))⟩

/-- Settles O24. -/
theorem shiftsWriteResultAndZN : Obligations.ShiftsWriteResultAndZN := by
  intro s c d a b sh v rd ra rb hc hd ha hb A n m
  exact ⟨stores_of_regTerm rfl hc hd ha hb (yields_shift s.cs (s.get rb) (shiftLeft A)),
    stores_of_value rfl hc hd ha (yields_shift s.cs (operand s.cs sh v) (shiftLeft A)),
    stores_of_regTerm rfl hc hd ha hb (yields_shift s.cs (s.get rb) (shiftRightArith A)),
    stores_of_value rfl hc hd ha (yields_shift s.cs (operand s.cs sh v) (shiftRightArith A)),
    stores_of_regTerm rfl hc hd ha hb (yields_shift s.cs (s.get rb) (shiftRightLogic A)),
    stores_of_value rfl hc hd ha (yields_shift s.cs (operand s.cs sh v) (shiftRightLogic A))⟩

/-- Settles O25. -/
theorem rotatesWriteResultAndZN : Obligations.RotatesWriteResultAndZN := by
  intro s c d a b sh v rd ra rb hc hd ha hb A n m
  exact ⟨stores_of_regTerm rfl hc hd ha hb (yields_rotateLeft s.cs A (s.get rb)),
    stores_of_value rfl hc hd ha (yields_rotateLeft s.cs A (operand s.cs sh v)),
    stores_of_regTerm rfl hc hd ha hb (yields_rotateRight s.cs A (s.get rb)),
    stores_of_value rfl hc hd ha (yields_rotateRight s.cs A (operand s.cs sh v))⟩

/-- Settles O26; the Value is the mask, so the value form has no second operand of its own (R124, R125). -/
theorem maskAndShiftsWriteResultAndZN : Obligations.MaskAndShiftsWriteResultAndZN := by
  intro s c d a b sh v rd ra rb hc hd ha hb M n e
  exact ⟨stores_of_regTerm rfl hc hd ha hb (yields_shift s.cs (s.get rb) (maskLeft (s.get ra) (value8 s.cs v))),
    stores_of_noTerm rfl hc hd ha (yields_plainOut s.cs (M <<< e)),
    stores_of_regTerm rfl hc hd ha hb (yields_shift s.cs (s.get rb) (maskRight (s.get ra) (value8 s.cs v))),
    stores_of_noTerm rfl hc hd ha (yields_plainOut s.cs (M >>> e))⟩

/-- Settles O27. -/
theorem compareAndTestWriteFlagsAlone : Obligations.CompareAndTestWriteFlagsAlone := by
  intro s c a b sh v ra rb hc ha hb A B V
  exact ⟨discards_of_reg rfl hc ha hb (yields_subOut s.cs A B),
    discards_of_value rfl hc ha (yields_subOut s.cs A V),
    discards_of_reg rfl hc ha hb (yields_plainOut s.cs (A &&& B)),
    discards_of_value rfl hc ha (yields_plainOut s.cs (A &&& V))⟩

end Sys2Proof.Machine

end

section
/-! PROOFS. The core instructions: a write of memory by what `MEM_MAP` has at the address, the interrupt entry through the
stack that `swin` is, and `noop`, `halt` and `srpg` (R64, R150 to R154, R161, R196). -/

namespace Sys2Proof.Machine

open Sys2Proof.Spec

/-! ### A write of memory, by what `MEM_MAP` has at the address -/

section
variable {s : State} {a : Word}

theorem memWrite_of_ram (h : kindAt s.map a = some .ram) (v : Word) : memWrite s a v = .ok (storedRam s a v) := by
  simp only [memWrite, h, storedRam]

theorem memWrite_of_device (h : kindAt s.map a = some .device) (v : Word) :
    memWrite s a v = .ok (storedDevice s a v) := by
  simp only [memWrite, h, storedDevice]

theorem memWrite_of_rom (h : kindAt s.map a = some .rom) (v : Word) : memWrite s a v = .error (.writeToRom a) := by
  simp only [memWrite, h]

theorem memWrite_of_unmapped (h : kindAt s.map a = none) (v : Word) :
    memWrite s a v = .error (.unmappedAddress a) := by
  simp only [memWrite, h]

/-- An outcome that goes on from a write of memory as `k` says, and stops with the fault of the write (R64). -/
theorem writesMemory_of_memWrite {o : Result} {v : Word} {k : State → State}
    (hok : ∀ u, memWrite s a v = .ok u → o = .next (k u)) (herr : ∀ f, memWrite s a v = .error f → o = .fault f) :
    WritesMemory o s a v k :=
  ⟨fun h => hok _ (memWrite_of_ram h v), fun h => hok _ (memWrite_of_device h v),
    fun h => herr _ (memWrite_of_rom h v), fun h => herr _ (memWrite_of_unmapped h v)⟩

end

/-! ### The entry through the stack -/

section
variable {s : State} {v : Word}

/-- A push writes below SP, and then moves SP there (R161). -/
theorem push_of_memWrite_ok {u : State} (h : memWrite s (s.sp - 1) v = .ok u) :
    push s v = .ok (u.withSp (s.sp - 1)) := by
  have hw : memWrite s (pushAddress s.sp) v = .ok u := h
  simp only [push, hw, pushedSp, Config.stackDir]

theorem push_of_memWrite_error {f : Fault} (h : memWrite s (s.sp - 1) v = .error f) : push s v = .error f := by
  have hw : memWrite s (pushAddress s.sp) v = .error f := h
  simp only [push, hw]

end

/-- The entry at a priority that saves on the stack: the return address is pushed, IP goes to the handler and CS.i is
cleared (R195, R196). -/
theorem writesMemory_takeInterrupt {k : Priority} (hk : k.savesToStack = true) (id : IrqId) (ret : Word) (s : State) :
    WritesMemory (takeInterrupt k id ret s) s (s.sp - 1) ret fun t =>
      ((t.withSp (s.sp - 1)).withIp (handler s k id)).withCs (allow s.cs false) := by
  refine writesMemory_of_memWrite (fun u hu => ?_) fun f hf => ?_
  · simp only [takeInterrupt, hk, if_true, push_of_memWrite_ok hu, csSetAllow_eq_allow]
  · simp only [takeInterrupt, hk, if_true, push_of_memWrite_error hf]

/-- Settles O44: `swin` is the entry at priority 0, whose vector is H0, whatever CS.i is. -/
theorem softwareInterruptEntersThroughH0 : Obligations.SoftwareInterruptEntersThroughH0 := by
  intro s c v hc
  have hexec : exec (.swin c v) s = takeInterrupt .low v (s.ip + 1) s := underCond_holds hc _
  rw [hexec]
  exact writesMemory_takeInterrupt rfl v (s.ip + 1) s

/-! ### The page and the hide flag -/

/-- `srpg` copies its data bit to CS.s (R154), and stops on a page the base system does not have (R26). -/
theorem exec_srpg_of_cond {s : State} {c : Cond} (hc : condHolds c s.cs = true) (d : Bool) (p : BitVec 4) :
    exec (.srpg c d p) s =
      if p.toNat < 4 then .next ((s.withIp (s.ip + 1)).withCs (csSetPage s.cs p d)) else .refused .pageOutOfRange :=
  underCond_holds hc _

/-- Settles O46. -/
theorem setPageWritesPageAndHide : Obligations.SetPageWritesPageAndHide := by
  intro s c d p hc
  rw [exec_srpg_of_cond hc]
  refine ⟨fun hp => ⟨csSetPage s.cs p d, if_pos hp, csPage_csSetPage s.cs p d, csHide_csSetPage s.cs p d,
    fun k hk hhide hpage => ?_⟩, fun hp => if_neg (by omega)⟩
  rw [getLsbD_csSetPage _ _ _ _ hk, if_neg hhide, if_neg hpage]

/-! ### No operation, and the end of the run -/

/-- Settles O43. -/
theorem noopOnlyAdvances : Obligations.NoopOnlyAdvances :=
  ⟨by decide, fun _ _ hc => underCond_holds hc _⟩

/-- A halted core takes neither an interrupt nor an instruction (R153, R205). -/
theorem step_of_halted {s : State} (h : s.halted = true) : step s = .fault .halted := if_pos h

/-- Settles O45. -/
theorem haltStopsTheCore : Obligations.HaltStopsTheCore :=
  ⟨by decide, fun _ _ hc => underCond_holds hc _, fun _ => step_of_halted⟩

end Sys2Proof.Machine

end

section
/-! PROOFS. The branches, the call through the stack, the two returns, and the stack they use (R160 to R168). -/

namespace Sys2Proof.Machine

open Sys2Proof.Spec

/-! ### The branch -/

theorem exec_brch_of_cond {s : State} {c : Cond} (hc : condHolds c s.cs = true) (base : RegNum) (off : BitVec 19) :
    exec (.brch c base off) s = withReg s base fun b => .next (s.withIp (b + off.signExtend 32)) :=
  underCond_holds hc _

/-- Settles O30. -/
theorem branchGoesToBasePlusOffset : Obligations.BranchGoesToBasePlusOffset := by
  intro s c base off rb hc hb
  rw [exec_brch_of_cond hc, withReg_of_name hb]

/-! ### The stack -/

section
variable {s : State} {a : Word}

theorem memRead_of_device (h : kindAt s.map a = some .device) :
    memRead s a = .ok (Config.deviceAnswer s.deviceAccesses, s.withDevice s.deviceWrites s.written) := by
  simp only [memRead, h]

theorem memRead_of_unmapped (h : kindAt s.map a = none) : memRead s a = .error (.unmappedAddress a) := by
  simp only [memRead, h]

/-- A pop reads at SP, and then moves SP up (R161). -/
theorem pop_of_memRead_ok {v : Word} {u : State} (h : memRead s s.sp = .ok (v, u)) :
    pop s = .ok (v, u.withSp (s.sp + 1)) := by
  have hr : memRead s (popAddress s.sp) = .ok (v, u) := h
  simp only [pop, hr, poppedSp, Config.stackDir]

theorem pop_of_memRead_error {f : Fault} (h : memRead s s.sp = .error f) : pop s = .error f := by
  have hr : memRead s (popAddress s.sp) = .error f := h
  simp only [pop, hr]

theorem pop_of_memory (h : kindAt s.map s.sp = some .ram ∨ kindAt s.map s.sp = some .rom) :
    pop s = .ok (s.mem.readWord s.sp, s.withSp (s.sp + 1)) := pop_of_memRead_ok (memRead_of_memory h)

theorem push_of_ram (h : kindAt s.map (s.sp - 1) = some .ram) (v : Word) :
    push s v = .ok ((storedRam s (s.sp - 1) v).withSp (s.sp - 1)) := push_of_memWrite_ok (memWrite_of_ram h v)

/-- A pop gives back what a push to RAM left (R161). -/
theorem pop_pushed (h : kindAt s.map (s.sp - 1) = some .ram) (v : Word) :
    pop ((storedRam s (s.sp - 1) v).withSp (s.sp - 1)) =
      .ok (v, ((storedRam s (s.sp - 1) v).withSp (s.sp - 1)).withSp (s.sp - 1 + 1)) := by
  rw [pop_of_memory (.inl h)]
  simp [storedRam]

end

/-- Settles O42. -/
theorem pushAndPopAreAFullDescendingStack : Obligations.PushAndPopAreAFullDescendingStack := fun s v =>
  ⟨fun h => ⟨push_of_ram h v, _, _, push_of_ram h v, pop_pushed h v, BitVec.sub_add_cancel s.sp 1⟩, pop_of_memory⟩

/-! ### The call through the stack -/

theorem maskedCs_eq_allow (cs : Word) (i : Bool) : maskedCs cs i = if i then allow cs false else cs := by
  rw [maskedCs, csSetAllow_eq_allow]

section
variable {s : State} {c : Cond} {base : RegNum} {rb : RegName}

/-- The target is formed from the base as it was before the push (R164). -/
theorem exec_brss_of_push_ok (hc : condHolds c s.cs = true) (hb : regName s.cs base = some rb) {u : State}
    (hp : push s (s.ip + 1) = .ok u) (i : Bool) (off : BitVec 19) :
    exec (.brss c base i off) s =
      .next ((u.withIp (s.get rb + off.signExtend 32)).withCs (if i then allow s.cs false else s.cs)) :=
  calc exec (.brss c base i off) s
    _ = withReg s base _ := underCond_holds hc _
    _ = _ := by rw [withReg_of_name hb, hp, maskedCs_eq_allow]; rfl

theorem exec_brss_of_push_error (hc : condHolds c s.cs = true) (hb : regName s.cs base = some rb) {f : Fault}
    (hp : push s (s.ip + 1) = .error f) (i : Bool) (off : BitVec 19) : exec (.brss c base i off) s = .fault f :=
  calc exec (.brss c base i off) s
    _ = withReg s base _ := underCond_holds hc _
    _ = _ := by rw [withReg_of_name hb, hp]

end

/-- Settles O32. -/
theorem branchSavesToStack : Obligations.BranchSavesToStack := by
  intro s c base i off rb hc hb
  exact writesMemory_of_memWrite
    (fun u hu => exec_brss_of_push_ok hc hb (push_of_memWrite_ok hu) i off)
    fun f hf => exec_brss_of_push_error hc hb (push_of_memWrite_error hf) i off

/-! ### The return through the stack -/

theorem resume_eq_allow (s : State) (target : Word) (i : Bool) :
    resume s target i = (s.withIp target).withCs (if i then allow s.cs true else s.cs) := by
  rw [resume, csSetAllow_eq_allow]

section
variable {s : State} {c : Cond}

theorem exec_brrs_of_pop_ok (hc : condHolds c s.cs = true) {v : Word} {u : State} (hp : pop s = .ok (v, u))
    (i : Bool) : exec (.brrs c i) s = .next ((u.withIp v).withCs (if i then allow u.cs true else u.cs)) :=
  (underCond_holds hc _).trans (by rw [hp, ← resume_eq_allow])

theorem exec_brrs_of_pop_error (hc : condHolds c s.cs = true) {f : Fault} (hp : pop s = .error f) (i : Bool) :
    exec (.brrs c i) s = .fault f :=
  (underCond_holds hc _).trans (by rw [hp])

end

/-- Settles O34. -/
theorem returnFromStack : Obligations.ReturnFromStack := by
  intro s c i hc
  refine ⟨fun h => ?memory, fun h => ?device, fun h => ?unmapped⟩
  case memory => exact exec_brrs_of_pop_ok hc (pop_of_memory h) i
  case device => exact exec_brrs_of_pop_ok hc (pop_of_memRead_ok (memRead_of_device h)) i
  case unmapped => exact exec_brrs_of_pop_error hc (pop_of_memRead_error (memRead_of_unmapped h)) i

/-! ### The return through the link register -/

theorem reservedLink_eq_true_iff (r : RegName) : r.reservedLink = true ↔ r = .ip ∨ r = .sp ∨ r = .cs := by
  cases r <;> simp [RegName.reservedLink]

/-- With the special registers in sight the numbers 0, 1 and 2 name registers that cannot be the link register (R22,
R32). -/
theorem regName_reservedLink {cs : Word} {n : RegNum} (hh : csHide cs = false) (hn : n.toNat < 3) :
    ∃ r, regName cs n = some r ∧ r.reservedLink = true := by
  obtain ⟨hip, hsp, hcs, -, -⟩ := registerNumbersNameTheMappedRegisters cs n
  obtain h0 | h1 | h2 : n = 0 ∨ n = 1 ∨ n = 2 := by bv_omega
  · exact ⟨.ip, hip hh h0, rfl⟩
  · exact ⟨.sp, hsp hh h1, rfl⟩
  · exact ⟨.cs, hcs hh h2, rfl⟩

/-- Every other number names GL or a paged register (R22, R23). -/
theorem regName_not_reservedLink {cs : Word} {n : RegNum} {r : RegName} (h : csHide cs = true ∨ 3 ≤ n.toNat)
    (hr : regName cs n = some r) : r.reservedLink = false := by
  by_cases hspecial : csHide cs = true ∨ 4 ≤ n.toNat
  · rw [regName_of_not_special hspecial] at hr
    split at hr <;> cases hr
    rfl
  · obtain ⟨-, -, -, hgl, -⟩ := registerNumbersNameTheMappedRegisters cs n
    have hh : csHide cs = false := by simpa using fun hh => hspecial (.inl hh)
    have hn : n = 3 := by
      have : 3 ≤ n.toNat := h.resolve_left (by simp [hh])
      bv_omega
    cases (hgl hh hn).symm.trans hr
    rfl

section
variable {s : State} {c : Cond}

theorem exec_brrl_of_cond (hc : condHolds c s.cs = true) (i : Bool) :
    exec (.brrl c i) s = withLink s.cs (.refused .linkRegister) fun r => .next (resume s (s.get r) i) :=
  underCond_holds hc _

theorem exec_brrl_of_name (hc : condHolds c s.cs = true) {rl : RegName}
    (hl : regName s.cs (csLink s.cs) = some rl) (hok : rl.reservedLink = false) (i : Bool) :
    exec (.brrl c i) s = .next ((s.withIp (s.get rl)).withCs (if i then allow s.cs true else s.cs)) := by
  rw [exec_brrl_of_cond hc, withLink_of_name hl, hok, resume_eq_allow]
  rfl

theorem exec_brrl_of_reservedLink (hc : condHolds c s.cs = true) {rl : RegName}
    (hl : regName s.cs (csLink s.cs) = some rl) (hres : rl.reservedLink = true) (i : Bool) :
    exec (.brrl c i) s = .refused .linkRegister := by
  rw [exec_brrl_of_cond hc, withLink_of_name hl, if_pos hres]

end

/-- Settles O33. -/
theorem returnFromLink : Obligations.ReturnFromLink := fun _ _ i rl hc hl =>
  ⟨fun hne => exec_brrl_of_name hc hl ((reservedLink_eq_false_iff rl).mpr hne) i,
    fun hres => exec_brrl_of_reservedLink hc hl ((reservedLink_eq_true_iff rl).mpr hres) i⟩

/-! ### The return through the link register as a branch -/

/-- Where the link register may be read, `brrl` is `brch` through it; on a missing page both stop (R26, R165). -/
theorem exec_brrl_eq_exec_brch {s : State} {c : Cond} (hc : condHolds c s.cs = true)
    (h : csHide s.cs = true ∨ 3 ≤ (csLink s.cs).toNat) :
    exec (.brrl c false) s = exec (.brch c (csLink s.cs) 0) s := by
  cases hl : regName s.cs (csLink s.cs) with
  | none =>
    rw [exec_brrl_of_cond hc, exec_brch_of_cond hc]
    simp only [withLink, withReg, hl]
  | some rl =>
    calc exec (.brrl c false) s
      _ = .next (s.withIp (s.get rl)) := exec_brrl_of_name hc hl (regName_not_reservedLink h hl) false
      _ = .next (s.withIp (s.get rl + (0 : BitVec 19).signExtend 32)) := by simp
      _ = exec (.brch c (csLink s.cs) 0) s := (branchGoesToBasePlusOffset s c _ 0 rl hc hl).symm

/-- Settles O35: a condition that fails leaves both with the advance of IP alone. -/
theorem returnFromLinkIsABranchThroughIt : Obligations.ReturnFromLinkIsABranchThroughIt := by
  intro s c
  refine ⟨fun h => ?same, ?refused⟩
  case same =>
    cases hc : condHolds c s.cs with
    | false => exact (underCond_fails hc _).trans (underCond_fails hc _).symm
    | true => exact exec_brrl_eq_exec_brch hc (h.resolve_left (by simp [hc]))
  case refused =>
    rintro ⟨hc, hhide, hlink⟩
    obtain ⟨rl, hl, hres⟩ := regName_reservedLink hhide hlink
    exact exec_brrl_of_reservedLink hc hl hres false

end Sys2Proof.Machine

end

section
/-! PROOFS. The move and the exchange of registers (R170, R172, R173). -/

namespace Sys2Proof.Machine

open Sys2Proof.Spec

/-! ### The move -/

/-- Settles O37. -/
theorem moveCopiesTheSource : Obligations.MoveCopiesTheSource := by
  intro s c d src rd rs hc hd hs
  have hexec : exec (.movr c d src) s = withReg s src fun v => writeBack s.cs (fallThrough s) d v :=
    underCond_holds hc _
  rw [hexec, withReg_of_name hs]
  exact writes_writeBack hd _ _

/-! ### A destination that cannot take the value -/

/-- A register refuses a value when it is CS and the value names a page of 4 or more (R26). -/
theorem writable_eq_false_iff (r : RegName) (v : Word) :
    writable r v = false ↔ r = .cs ∧ 4 ≤ (field v 12 4).toNat := by
  rw [← Bool.not_eq_true, writable_eq_true_iff, not_or, not_not, not_lt]

theorem withDest_of_not_writable {cs : Word} {i : RegNum} {r : RegName} {v : Word} (h : regName cs i = some r)
    (hw : writable r v = false) (k : RegName → Result) : withDest cs i v k = .fault .pageOutOfRange := by
  simp [withDest, h, hw]

/-! ### The exchange -/

/-- Both registers are read before either is written, and both destinations are checked before the next state
(R173). -/
theorem exec_swap_of_names {s : State} {c : Cond} {d src : RegNum} {rd rs : RegName}
    (hc : condHolds c s.cs = true) (hd : regName s.cs d = some rd) (hs : regName s.cs src = some rs) :
    exec (.swap c d src) s =
      withDest s.cs d (s.get rs) fun rd' => withDest s.cs src (s.get rd) fun rs' =>
        .next (((fallThrough s).set rd' (s.get rs)).set rs' (s.get rd)) := by
  have hexec : exec (.swap c d src) s = withReg s d fun t1 => withReg s src fun t2 =>
      withDest s.cs d t2 fun rd' => withDest s.cs src t1 fun rs' =>
        .next (((fallThrough s).set rd' t2).set rs' t1) :=
    underCond_holds hc _
  rw [hexec, withReg_of_name hd, withReg_of_name hs]

/-- Settles O38: a value that either register refuses ends in the same fault, whichever is checked first. -/
theorem swapExchangesTheRegisters : Obligations.SwapExchangesTheRegisters := by
  intro s c d src rd rs hc hd hs
  rw [exec_swap_of_names hc hd hs]
  simp only [← writable_eq_true_iff, ← writable_eq_false_iff]
  refine ⟨fun hwd hws => ?exchange, fun hno => ?fault⟩
  case exchange => rw [withDest_of_name hd hwd, withDest_of_name hs hws]
  case fault =>
    cases hwd : writable rd (s.get rs) with
    | false => exact withDest_of_not_writable hd hwd _
    | true =>
      have hws : writable rs (s.get rd) = false := hno.resolve_left (by simp [hwd])
      rw [withDest_of_name hd hwd, withDest_of_not_writable hs hws]

end Sys2Proof.Machine

end

section
/-! PROOFS. Load and store: the one addressing mode, and what `MEM_MAP` has at the address (R63, R64, R180 to R182). -/

namespace Sys2Proof.Machine

open Sys2Proof.Spec

section
variable {s : State} {c : Cond} {base sd : RegNum} {rb rd rs : RegName} {off : BitVec 16}

/-! ### The load -/

/-- A load whose read succeeds ends with the write of the destination, under the CS it began with (R39, R181). -/
theorem writes_load_of_memRead_ok (hc : condHolds c s.cs = true) (hb : regName s.cs base = some rb)
    (hd : regName s.cs sd = some rd) {v : Word} {u : State}
    (hr : memRead s (s.get rb + off.signExtend 32) = .ok (v, u)) :
    Writes (exec (.load c base sd off) s) (fallThrough u) rd v := by
  have hexec : exec (.load c base sd off) s = writeBack s.cs (fallThrough u) sd v :=
    calc exec (.load c base sd off) s
      _ = withReg s base _ := underCond_holds hc _
      _ = _ := by rw [withReg_of_name hb, effectiveAddress, hr]; rfl
  rw [hexec]
  exact writes_writeBack hd _ _

theorem exec_load_of_memRead_error (hc : condHolds c s.cs = true) (hb : regName s.cs base = some rb) {f : Fault}
    (hr : memRead s (s.get rb + off.signExtend 32) = .error f) : exec (.load c base sd off) s = .fault f :=
  calc exec (.load c base sd off) s
    _ = withReg s base _ := underCond_holds hc _
    _ = _ := by rw [withReg_of_name hb, effectiveAddress, hr]

/-! ### The store -/

/-- Both registers are read before the write, which leaves IP for the advance (R28, R182). -/
theorem exec_stor_of_memWrite_ok (hc : condHolds c s.cs = true) (hb : regName s.cs base = some rb)
    (hs : regName s.cs sd = some rs) {u : State}
    (hw : memWrite s (s.get rb + off.signExtend 32) (s.get rs) = .ok u) :
    exec (.stor c base sd off) s = .next (u.withIp (s.ip + 1)) := by
  obtain ⟨-, hip, -⟩ := memWrite_frame hw
  calc exec (.stor c base sd off) s
    _ = withReg s base _ := underCond_holds hc _
    _ = .next (advance u) := by rw [withReg_of_name hb, withReg_of_name hs, effectiveAddress, hw]
    _ = .next (u.withIp (s.ip + 1)) := by rw [advance, hip]

theorem exec_stor_of_memWrite_error (hc : condHolds c s.cs = true) (hb : regName s.cs base = some rb)
    (hs : regName s.cs sd = some rs) {f : Fault}
    (hw : memWrite s (s.get rb + off.signExtend 32) (s.get rs) = .error f) :
    exec (.stor c base sd off) s = .fault f :=
  calc exec (.stor c base sd off) s
    _ = withReg s base _ := underCond_holds hc _
    _ = _ := by rw [withReg_of_name hb, withReg_of_name hs, effectiveAddress, hw]

end

/-! ### The two instructions by the kind of memory at the address -/

/-- Settles O39: a device answers every read, so only a CS that would get a page of 4 or more stops a load from it. -/
theorem loadReadsTheWord : Obligations.LoadReadsTheWord := by
  intro s c base sd off rb rd hc hb hd a
  refine ⟨fun h => ?memory, fun h hrd => ?device, fun h hrd => ?deviceToCs, fun h => ?unmapped⟩
  case memory => exact writes_load_of_memRead_ok hc hb hd (memRead_of_memory h)
  case device => exact (writes_load_of_memRead_ok hc hb hd (memRead_of_device h)).1 (.inl hrd)
  case deviceToCs =>
    subst hrd
    obtain ⟨hnext, hfault⟩ := writes_load_of_memRead_ok hc hb hd (memRead_of_device h)
    split_ifs with hpage
    · exact hnext (.inr hpage)
    · exact hfault ⟨rfl, not_lt.mp hpage⟩
  case unmapped => exact exec_load_of_memRead_error hc hb (memRead_of_unmapped h)

/-- Settles O40. -/
theorem storeWritesTheWord : Obligations.StoreWritesTheWord := by
  intro s c base sd off rb rs hc hb hs
  exact writesMemory_of_memWrite (fun u hu => exec_stor_of_memWrite_ok hc hb hs hu)
    fun f hf => exec_stor_of_memWrite_error hc hb hs hf

end Sys2Proof.Machine

end

section
/-! PROOFS. The interrupts: the handler, the choice of a request, the entry through the stack and through the link
register, and the return from each (R32, R192 to R195, R197, R199). -/

namespace Sys2Proof.Machine

open Sys2Proof.Spec

/-! ### The handler -/

/-- Settles O47: the ID has 8 bits, so widening it keeps its value, and the vector is read past the mapping. -/
theorem handlerIsVectorPlusId : Obligations.HandlerIsVectorPlusId := by
  intro s cs k id
  refine ⟨?sum, ?anyCs⟩
  case sum =>
    have hid : (id.setWidth 32).toNat = id.toNat := BitVec.toNat_setWidth_of_le (by decide)
    calc (handler s k id).toNat
      _ = ((vectorBase s k).toNat + (id.setWidth 32).toNat) % 2 ^ 32 := BitVec.toNat_add _ _
      _ = _ := by rw [hid]; rfl
  case anyCs => rfl

/-- Priorities 0 and 1 save on the stack and have the vectors H0 and H1 (R192, R194). -/
theorem savesToStack_of_low_or_medium {k : Priority} (hk : k = .low ∨ k = .medium) : k.savesToStack = true := by
  rcases hk with rfl | rfl <;> rfl

theorem handler_of_low_or_medium {k : Priority} (hk : k = .low ∨ k = .medium) (s : State) (id : IrqId) :
    handler s k id = s.paged 2 (if k = .low then 0 else 1) + id.setWidth 32 := by
  rcases hk with rfl | rfl <;> rfl

/-- Priorities 2 and 3 save in the link register and have the vectors H2 and H3 (R192, R194). -/
theorem savesToStack_of_high_or_extreme {k : Priority} (hk : k = .high ∨ k = .extreme) : k.savesToStack = false := by
  rcases hk with rfl | rfl <;> rfl

theorem handler_of_high_or_extreme {k : Priority} (hk : k = .high ∨ k = .extreme) (s : State) (id : IrqId) :
    handler s k id = s.paged 2 (if k = .high then 2 else 3) + id.setWidth 32 := by
  rcases hk with rfl | rfl <;> rfl

/-! ### The choice of a request -/

theorem requestToTake_of_masked {s : State} (h : csAllow s.cs = false) : requestToTake s = none := by
  simp [requestToTake, h]

theorem requestToTake_of_allowed {s : State} (h : csAllow s.cs = true) : requestToTake s = highest s.pending :=
  if_pos h

/-- Of two requests the one chosen is one of them, and neither exceeds it (R193). -/
theorem higher_spec (r q : Request) :
    (higher r q = r ∨ higher r q = q) ∧ r.priority.number ≤ (higher r q).priority.number ∧
      q.priority.number ≤ (higher r q).priority.number := by
  by_cases h : r.priority.number < q.priority.number
  · rw [higher, if_pos h]
    exact ⟨.inr rfl, h.le, le_rfl⟩
  · rw [higher, if_neg h]
    exact ⟨.inl rfl, le_rfl, not_lt.mp h⟩

/-- The choice from a list that is not empty: a member that no other exceeds (R193). -/
theorem highest_cons (r : Request) (rest : List Request) :
    ∃ m ∈ r :: rest, highest (r :: rest) = some m ∧ ∀ q ∈ r :: rest, q.priority.number ≤ m.priority.number := by
  induction rest generalizing r with
  | nil => exact ⟨r, by simp, rfl, by simp⟩
  | cons r' rest ih =>
    obtain ⟨m, hmem, hm, hmax⟩ := ih r'
    obtain ⟨hone, hr, hle⟩ := higher_spec r m
    refine ⟨higher r m, ?mem, by rw [highest, hm], ?max⟩
    case mem =>
      rcases hone with h | h <;> rw [h]
      · exact List.mem_cons_self
      · exact List.mem_cons_of_mem r hmem
    case max =>
      rintro q (_ | ⟨_, hq⟩)
      · exact hr
      · exact (hmax q hq).trans hle

/-- Settles O48. -/
theorem takenRequestHasTheHighestPriority : Obligations.TakenRequestHasTheHighestPriority := by
  intro s
  refine ⟨requestToTake_of_masked, fun _ => requestToTake_of_pending_nil, fun hallow hne => ?_⟩
  rw [requestToTake_of_allowed hallow]
  obtain ⟨r, rest, hpending⟩ := List.exists_cons_of_ne_nil hne
  rw [hpending]
  exact highest_cons r rest

/-! ### The step at a boundary with requests -/

/-- The boundary replaces the pending set, whatever it was. -/
@[simp] theorem nextBoundary_withRequests (s : State) (now : List Request) (later : List (List Request)) :
    nextBoundary (s.withRequests now later) = s.withRequests (later.headD []) later.tail := rfl

/-- Settles O51: no request is taken, and the step goes on from a state that the pending set is no part of. -/
theorem maskedRequestsDoNotMatter : Obligations.MaskedRequestsDoNotMatter := by
  intro s p q hmasked
  have hnone : ∀ now, requestToTake (s.withRequests now s.schedule) = none := fun _ => requestToTake_of_masked hmasked
  simp only [step, hnone, nextBoundary_withRequests, State.withRequests_halted]

/-- A request that may be taken is taken instead of a fetch, and the return address is the next instruction's (R195,
R197). -/
theorem step_of_request {s : State} {r : Request} (hrun : s.halted = false) (hr : requestToTake s = some r) :
    step s = takeInterrupt r.priority r.id s.ip (nextBoundary s) := by
  simp only [step, hrun, hr, Bool.false_eq_true, if_false]

/-! ### The entry -/

/-- Settles O49. -/
theorem interruptEntryThroughTheStack : Obligations.InterruptEntryThroughTheStack := by
  intro s r hrun hr hk u
  rw [step_of_request hrun hr, ← handler_of_low_or_medium hk]
  exact writesMemory_takeInterrupt (savesToStack_of_low_or_medium hk) r.id s.ip u

section
variable {s : State} {k : Priority} {rl : RegName}

/-- The entry at a priority that saves in the link register: the return address goes there, IP to the handler and CS.i
is cleared (R195). -/
theorem takeInterrupt_of_link (hk : k.savesToStack = false) (hl : regName s.cs (csLink s.cs) = some rl)
    (hok : rl.reservedLink = false) (id : IrqId) (ret : Word) :
    takeInterrupt k id ret s = .next (((s.set rl ret).withIp (handler s k id)).withCs (allow s.cs false)) := by
  simp only [takeInterrupt, hk, withLink_of_name hl, hok, csSetAllow_eq_allow, Bool.false_eq_true, if_false]

theorem takeInterrupt_of_reservedLink (hk : k.savesToStack = false) (hl : regName s.cs (csLink s.cs) = some rl)
    (hres : rl.reservedLink = true) (id : IrqId) (ret : Word) :
    takeInterrupt k id ret s = .fault .linkRegister := by
  simp only [takeInterrupt, hk, withLink_of_name hl, hres, Bool.false_eq_true, if_false, if_true]

end

/-- Settles O50. -/
theorem interruptEntryThroughTheLink : Obligations.InterruptEntryThroughTheLink := by
  intro s r rl hrun hr hk hl u
  have hsave := savesToStack_of_high_or_extreme hk
  rw [step_of_request hrun hr, ← handler_of_high_or_extreme hk]
  exact ⟨fun hne => takeInterrupt_of_link (s := u) hsave hl ((reservedLink_eq_false_iff rl).mpr hne) r.id s.ip,
    fun hres => takeInterrupt_of_reservedLink (s := u) hsave hl ((reservedLink_eq_true_iff rl).mpr hres) r.id s.ip⟩

/-! ### The return -/

/-- Of two writes of CS.i the later one stays, and no other bit knows of either (R34). -/
theorem allow_allow (cs : Word) (a b : Bool) : allow (allow cs a) b = allow cs b := by
  simp only [← csSetAllow_eq_allow]
  apply BitVec.eq_of_getLsbD_eq
  intro j hj
  simp only [getLsbD_csSetAllow _ _ _ hj]
  split <;> rfl

/-- CS.i is no part of what names the link register (R23, R32). -/
theorem linkName_allow (cs : Word) (b : Bool) :
    regName (allow cs b) (csLink (allow cs b)) = regName cs (csLink cs) := by
  rw [← csSetAllow_eq_allow, csLink_csSetAllow]
  exact regName_congr (csHide_csSetAllow cs b) (csPage_csSetAllow cs b) _

/-- A jump that writes CS leaves every other register. -/
theorem get_withIp_withCs (s : State) (target cs : Word) {r : RegName} (hip : r ≠ .ip) (hcs : r ≠ .cs) :
    ((s.withIp target).withCs cs).get r = s.get r :=
  (State.get_withCs hcs cs).trans (State.get_withIp hip target)

/-- `brrs i` after an entry through the stack: the address comes back from RAM, and SP moves back over it (R161,
R199). -/
theorem brrs_undoes_takeInterrupt {s : State} {k : Priority} (hk : k.savesToStack = true)
    (hram : kindAt s.map (s.sp - 1) = some .ram) (id : IrqId) (ret : Word) :
    ∃ t u, takeInterrupt k id ret s = .next t ∧ exec (.brrs .alc true) t = .next u ∧ u.ip = ret ∧
      u.cs = allow s.cs true ∧ u.sp = s.sp ∧ u.gl = s.gl ∧ u.regs = s.regs := by
  obtain ⟨hentry, -⟩ := writesMemory_takeInterrupt hk id ret s
  refine ⟨_, _, hentry hram, exec_brrs_of_pop_ok rfl (pop_of_memory (.inl hram)) true, ?ip, ?cs, ?sp, rfl, rfl⟩
  case ip => exact Memory.readWord_writeWord_same _ _ _
  case cs => exact allow_allow s.cs false true
  case sp => exact BitVec.sub_add_cancel s.sp 1

/-- What `brrl i` does where the link register can hold a return address: IP, CS.i, and nothing else (R165, R167). -/
theorem brrl_resumes {t : State} {rl : RegName} (hl : regName t.cs (csLink t.cs) = some rl)
    (hok : rl.reservedLink = false) :
    ∃ u, exec (.brrl .alc true) t = .next u ∧ u.ip = t.get rl ∧ u.cs = allow t.cs true ∧ u.mem = t.mem ∧
      ∀ r, r ≠ .ip → r ≠ .cs → u.get r = t.get r :=
  ⟨_, exec_brrl_of_name rfl hl hok true, rfl, rfl, rfl, fun _ hip hcs => get_withIp_withCs _ _ _ hip hcs⟩

/-- `brrl i` after an entry through the link register: the same register is the link register still, and holds the
address (R32, R199). -/
theorem brrl_undoes_takeInterrupt {s : State} {k : Priority} (hk : k.savesToStack = false) {rl : RegName}
    (hl : regName s.cs (csLink s.cs) = some rl) (hne : rl ≠ .ip ∧ rl ≠ .sp ∧ rl ≠ .cs) (id : IrqId) (ret : Word) :
    ∃ t u, takeInterrupt k id ret s = .next t ∧ exec (.brrl .alc true) t = .next u ∧ u.ip = ret ∧
      u.cs = allow s.cs true ∧ u.get rl = ret ∧ u.mem = s.mem ∧
      ∀ r, r ≠ rl → r ≠ .ip → r ≠ .cs → u.get r = s.get r := by
  have hok : rl.reservedLink = false := (reservedLink_eq_false_iff rl).mpr hne
  obtain ⟨hip, -, hcs⟩ := hne
  have hget : ∀ r, r ≠ .ip → r ≠ .cs →
      (((s.set rl ret).withIp (handler s k id)).withCs (allow s.cs false)).get r = (s.set rl ret).get r :=
    fun _ => get_withIp_withCs _ _ _
  have hsaved : (s.set rl ret).get rl = ret := (State.get_set_same s rl ret).trans (if_neg hcs)
  obtain ⟨u, hreturn, huip, hucs, humem, huget⟩ :=
    brrl_resumes (t := ((s.set rl ret).withIp (handler s k id)).withCs (allow s.cs false))
      ((linkName_allow s.cs false).trans hl) hok
  refine ⟨_, u, takeInterrupt_of_link hk hl hok id ret, hreturn, ?ip, ?cs, ?link, ?mem, fun r hr hrip hrcs => ?other⟩
  case ip => rw [huip, hget rl hip hcs, hsaved]
  case cs => exact hucs.trans (allow_allow s.cs false true)
  case link => rw [huget rl hip hcs, hget rl hip hcs, hsaved]
  case mem => exact humem.trans (State.set_mem s rl ret)
  case other => rw [huget r hrip hrcs, hget r hrip hrcs, State.get_set_other s rl ret r hr.symm]

/-- Settles O52. -/
theorem returnUndoesTheEntry : Obligations.ReturnUndoesTheEntry := by
  intro s k id ret
  exact ⟨fun hk hram => brrs_undoes_takeInterrupt (savesToStack_of_low_or_medium hk) hram id ret,
    fun _ hk hl hne => brrl_undoes_takeInterrupt (savesToStack_of_high_or_extreme hk) hl hne id ret⟩

end Sys2Proof.Machine

end
